-- ==== Sys2Proof/Word.lean ====
section
/-! DEFINITION. The word types of AETHER-CORE and the numbering of its registers (00_scope.md R7 to R9). -/

namespace Sys2Proof

/-- A 32-bit word: a command word, a CFG word, a cursor, an integer delay. -/
abbrev Word := BitVec 32

/-- A 64-bit integer: an X register, a phase, a virtual time. -/
abbrev XWord := BitVec 64

/-- A Sample as its 32-bit pattern (R9); its arithmetic is Machine/Sample.lean. -/
abbrev Sample := BitVec 32

/-- The number of an X register (R20). -/
abbrev XReg := Fin 16

/-- The number of an L register (R21). -/
abbrev LReg := Fin 8

/-- A lane position. The CFG lane stride is 8 for every N (R75); lane i exists when i < N. -/
abbrev Lane := Fin 8

/-- One 32-bit word per lane position: a lane register, a coefficient array, a state array. -/
abbrev Lanes := Vector Word 8

/-- Every lane +0.0 (or integer 0). -/
abbrev Lanes.zero : Lanes := Vector.replicate 8 0#32

end Sys2Proof
end

