-- ==== Sys2Proof/Config.lean ====
section
/-! DEFINITION. What an implementation fixes (00_scope.md R6) and the free values.

The parameters the spec leaves OPEN are fields of `Params`, plain data carried in State and written by no step
(log entries 1, 2); those it decides are the constants below (log entry 3). The one free value is the sign and
payload of a NaN (R9, 93_implementation_defined.md U1; log entry 5). -/

namespace Sys2Proof

/-- The OPEN parameters of R6: an argument of the model, with no value fixed by any source. -/
structure Params where
  /-- N, the number of lanes: 1, 2, 4 or 8 -/
  n       : Nat
  /-- NCH, audio channels: 1 or 2, divides N -/
  nch     : Nat
  /-- DLLOG[u], log2 of the slots of delay line u -/
  dllog   : Vector Nat 4
  /-- APLOG, log2 of the per-stage memory depth of the allpass cascades -/
  aplog   : Nat
  /-- EQLOG, log2 of the EQ memory depth -/
  eqlog   : Nat
  /-- TLOG, log2 of the slots of a tape buffer -/
  tlog    : Nat
  /-- FADEWIN[0..255], the fade window ROM (R268) -/
  fadewin : List Sample
  deriving DecidableEq, Repr

/-- Bits 11:6 of HWCFG (R29): log2 of the oscillators' unit U = 2^30 (R110). -/
abbrev Config.logU : Nat := 30

/-- NOSC, the number of phase registers (R6, D12). -/
abbrev Config.nosc : Nat := 4

/-- NBANK, SOS banks (R6, D21). -/
abbrev Config.nbank : Nat := 4

/-- NSECMAX, sections per bank (R6). -/
abbrev Config.nsecmax : Nat := 5

/-- NLP, one-pole units (R6, D22). -/
abbrev Config.nlp : Nat := 4

/-- NDC, DC blockers (R6, D23). -/
abbrev Config.ndc : Nat := 2

/-- NDL, delay lines (R6, D25). -/
abbrev Config.ndl : Nat := 4

/-- NAP, allpass cascades (R6, D28). -/
abbrev Config.nap : Nat := 2

/-- NSTAGEMAX, stages per cascade (R6, D28). -/
abbrev Config.nstagemax : Nat := 128

/-- NPRM, ramped parameter slots (R6, D30). -/
abbrev Config.nprm : Nat := 8

/-- Where a NaN is made: the step's stamp, then the lane and the operation inside the command. -/
abbrev Draw := List Nat

/-- FREE VALUE (R9, U1): the sign (bit 22) and the 22 payload bits of the quiet NaN made at a place. No body. -/
opaque Config.nanDraw : Draw → BitVec 23

end Sys2Proof
end

