-- ==== Sys2Proof/Syntax.lean ====
section
/-! DEFINITION. The commands of AETHER-CORE, one constructor per row of spec/opcode_table.json (30_encoding.md R96),
and the names of what the decoder refuses (R97, R98). -/

namespace Sys2Proof

/-- The tape modes and their codes 0, 1, 2 (10_state.md R41, 46_tape.md R264). -/
inductive Mode where
  | normal
  | backForth
  | reverse
  deriving DecidableEq, Repr

/-- The 49 commands. An X field is `XReg`, an L field `LReg`, a shift six bits, an index below its bound. -/
inductive Instr where
  -- system
  | nop
  | init
  | cfgw (rs rb : XReg) (off : BitVec 12)
  | cfgr (rd rb : XReg) (off : BitVec 12)
  -- scalar and timebase
  | xli (rd : XReg) (imm : BitVec 16)
  | xsli (rd : XReg) (imm : BitVec 16)
  | xmov (rd rs : XReg)
  | xadd (rd ra rb : XReg)
  | xsub (rd ra rb : XReg)
  | xsrai (rd rs : XReg) (sh : BitVec 6)
  | xslli (rd rs : XReg) (sh : BitVec 6)
  | vcmp (rd ra rb : XReg)
  | plfo (rd rs : XReg) (k : Fin Config.nosc)
  | tlfo (rd rs : XReg) (k : Fin Config.nosc)
  -- lane, ramp, sum, decimate
  | lmov (ld ls : LReg)
  | lli (ld : LReg) (imm : BitVec 16)
  | ladd (ld la lb : LReg)
  | lsub (ld la lb : LReg)
  | lmul (ld la lb : LReg)
  | lmac (ld la lb : LReg)
  | lsplat (ld : LReg) (rs : XReg)
  | lxcvt (ld : LReg) (rs : XReg) (sh : BitVec 6)
  | lins (ld : LReg) (rs : XReg) (k : Lane)
  | lext (rd : XReg) (ls : LReg) (k : Lane)
  | pramp (ld : LReg) (k : Fin Config.nprm)
  | pend (k : Fin Config.nprm)
  | lsumt (ld : LReg)
  | decim (ld : LReg)
  -- filters
  | sos (ld : LReg) (k : Fin Config.nbank)
  | lp1 (ld : LReg) (k : Fin Config.nlp)
  | dcb (ld : LReg) (k : Fin Config.ndc)
  -- delay line
  | dlmod (ld : LReg)
  | dlset (ls : LReg) (u : Fin Config.ndl)
  | dlwr (ls : LReg) (u : Fin Config.ndl)
  | dlrdh (ld : LReg) (u : Fin Config.ndl)
  | dlrdl (ld : LReg) (u : Fin Config.ndl)
  | dladv (u : Fin Config.ndl)
  | dladvx (rs : XReg) (u : Fin Config.ndl)
  | dlsav (u : Fin Config.ndl)
  | dlrst (u : Fin Config.ndl)
  -- allpass and EQ
  | apc (ld : LReg) (u : Fin Config.nap)
  | eqn (ld : LReg)
  -- tape
  | tspd (rd : XReg)
  | twr (ls : LReg) (rs : XReg)
  | tseek (rs : XReg) (t : Fin 2)
  | trd (ld : LReg) (t : Fin 2)
  | trev
  | tmode (m : Mode)
  | tmix (ld lcur lold : LReg)
  deriving DecidableEq, Repr

/-- Why a command word is malformed, in the order the decoder checks (R97, R98): causes 1 to 4 of
60_exceptions.md R302. -/
inductive DecodeError where
  /-- `op` is not one of the 49 (cause 1) -/
  | illop
  /-- a field the row marks 0 is not zero (cause 2) -/
  | resvd
  /-- a field of kind L holds 8 to 15 (cause 3) -/
  | lreg
  /-- an index holds a value at or above its bound (cause 4) -/
  | index
  deriving DecidableEq, Repr

end Sys2Proof
end

