-- ==== Sys2Proof/WellFormed.lean ====
section
/-! DEFINITION. When an instruction is well-formed for a core of N lanes. Register numbers, shift amounts and the
indices with a fixed bound are well-formed by their types; the one check left is the lane index of LINS and LEXT,
`k < N` (30_encoding.md R96, R98 step 3). -/

namespace Sys2Proof

/-- The instruction can stand in a legal command word of a core with `n` lanes. -/
def Instr.wf (n : Nat) : Instr → Bool
  | .lins _ _ k => decide (k.val < n)
  | .lext _ _ k => decide (k.val < n)
  | .nop | .init | .cfgw .. | .cfgr .. => true
  | .xli .. | .xsli .. | .xmov .. | .xadd .. | .xsub .. | .xsrai .. | .xslli .. | .vcmp .. | .plfo .. | .tlfo .. => true
  | .lmov .. | .lli .. | .ladd .. | .lsub .. | .lmul .. | .lmac .. | .lsplat .. | .lxcvt .. => true
  | .pramp .. | .pend .. | .lsumt .. | .decim .. | .sos .. | .lp1 .. | .dcb .. => true
  | .dlmod .. | .dlset .. | .dlwr .. | .dlrdh .. | .dlrdl .. | .dladv .. | .dladvx .. | .dlsav .. | .dlrst .. => true
  | .apc .. | .eqn .. | .tspd .. | .twr .. | .tseek .. | .trd .. | .trev | .tmode .. | .tmix .. => true

end Sys2Proof
end

