-- ==== Sys2Proof/Decode.lean ====
section
/-! DEFINITION. The decoder (30_encoding.md R90 to R98), total on every 32-bit word, and after it the encoder.

A row of the table R96 says what each field of the word must be; the checks run in the order of R98. A command word
is handed over whole (20_memory.md R76), so there is no fetch byte order. -/

namespace Sys2Proof

/-- What a row asks of a four-bit field (R95). -/
inductive FieldKind where
  /-- must be zero -/
  | zero
  /-- an L register: 0 to 7 -/
  | l
  /-- an X register, or bits of imm16: all 16 values -/
  | any
  deriving DecidableEq, Repr

/-- What a row asks of bits 11:0 (R93, R95). -/
inductive ImmKind where
  /-- must be zero -/
  | zero
  /-- a shift: bits 11:6 must be zero -/
  | shift
  /-- any 12 bits: a CFG offset, or bits of imm16 -/
  | any
  /-- an index that must be less than the bound -/
  | below (bound : Nat)
  deriving DecidableEq, Repr

/-- One row of the table R96 and how its instruction is read from the word. -/
structure Row where
  a     : FieldKind
  b     : FieldKind
  c     : FieldKind
  imm   : ImmKind
  build : Word → Instr

/-! The fields of a word (R91, R92). -/

def fieldOp (w : Word) : BitVec 8 := w.extractLsb' 24 8
def fieldA (w : Word) : BitVec 4 := w.extractLsb' 20 4
def fieldB (w : Word) : BitVec 4 := w.extractLsb' 16 4
def fieldC (w : Word) : BitVec 4 := w.extractLsb' 12 4
def fieldImm12 (w : Word) : BitVec 12 := w.extractLsb' 0 12
def fieldImm16 (w : Word) : BitVec 16 := w.extractLsb' 0 16
def fieldShift (w : Word) : BitVec 6 := w.extractLsb' 0 6

/-- A four-bit field as an X register number. -/
def toX (f : BitVec 4) : XReg := f.toFin

/-- A four-bit field as an L register number (checked to be 0 to 7 before it is used). -/
def toL (f : BitVec 4) : LReg := (f.setWidth 3).toFin

/-- imm12 as an index below `m` (checked to be below it before it is used). -/
def toIdx (m : Nat) [NeZero m] (f : BitVec 12) : Fin m := Fin.ofNat m f.toNat

/-- imm12 of TMODE as a mode (R264). -/
def toMode (f : BitVec 12) : Mode :=
  if f = 0 then .normal else if f = 1 then .backForth else .reverse

/-- The table R96, for a core with `n` lanes; `none` where `op` is not one of the 49 (R97). -/
def rowOf (n : Nat) (op : BitVec 8) : Option Row :=
  match op.toNat with
  | 0x00 => some ⟨.zero, .zero, .zero, .zero, fun _ => .nop⟩
  | 0x01 => some ⟨.zero, .zero, .zero, .zero, fun _ => .init⟩
  | 0x02 => some ⟨.any, .any, .zero, .any, fun w => .cfgw (toX (fieldA w)) (toX (fieldB w)) (fieldImm12 w)⟩
  | 0x03 => some ⟨.any, .any, .zero, .any, fun w => .cfgr (toX (fieldA w)) (toX (fieldB w)) (fieldImm12 w)⟩
  | 0x10 => some ⟨.any, .zero, .any, .any, fun w => .xli (toX (fieldA w)) (fieldImm16 w)⟩
  | 0x11 => some ⟨.any, .zero, .any, .any, fun w => .xsli (toX (fieldA w)) (fieldImm16 w)⟩
  | 0x12 => some ⟨.any, .any, .zero, .zero, fun w => .xmov (toX (fieldA w)) (toX (fieldB w))⟩
  | 0x13 => some ⟨.any, .any, .any, .zero, fun w => .xadd (toX (fieldA w)) (toX (fieldB w)) (toX (fieldC w))⟩
  | 0x14 => some ⟨.any, .any, .any, .zero, fun w => .xsub (toX (fieldA w)) (toX (fieldB w)) (toX (fieldC w))⟩
  | 0x15 => some ⟨.any, .any, .zero, .shift, fun w => .xsrai (toX (fieldA w)) (toX (fieldB w)) (fieldShift w)⟩
  | 0x16 => some ⟨.any, .any, .zero, .shift, fun w => .xslli (toX (fieldA w)) (toX (fieldB w)) (fieldShift w)⟩
  | 0x17 => some ⟨.any, .any, .any, .zero, fun w => .vcmp (toX (fieldA w)) (toX (fieldB w)) (toX (fieldC w))⟩
  | 0x18 => some ⟨.any, .any, .zero, .below Config.nosc, fun w => .plfo (toX (fieldA w)) (toX (fieldB w)) (toIdx _ (fieldImm12 w))⟩
  | 0x19 => some ⟨.any, .any, .zero, .below Config.nosc, fun w => .tlfo (toX (fieldA w)) (toX (fieldB w)) (toIdx _ (fieldImm12 w))⟩
  | 0x20 => some ⟨.l, .l, .zero, .zero, fun w => .lmov (toL (fieldA w)) (toL (fieldB w))⟩
  | 0x21 => some ⟨.l, .zero, .any, .any, fun w => .lli (toL (fieldA w)) (fieldImm16 w)⟩
  | 0x22 => some ⟨.l, .l, .l, .zero, fun w => .ladd (toL (fieldA w)) (toL (fieldB w)) (toL (fieldC w))⟩
  | 0x23 => some ⟨.l, .l, .l, .zero, fun w => .lsub (toL (fieldA w)) (toL (fieldB w)) (toL (fieldC w))⟩
  | 0x24 => some ⟨.l, .l, .l, .zero, fun w => .lmul (toL (fieldA w)) (toL (fieldB w)) (toL (fieldC w))⟩
  | 0x25 => some ⟨.l, .l, .l, .zero, fun w => .lmac (toL (fieldA w)) (toL (fieldB w)) (toL (fieldC w))⟩
  | 0x26 => some ⟨.l, .any, .zero, .zero, fun w => .lsplat (toL (fieldA w)) (toX (fieldB w))⟩
  | 0x27 => some ⟨.l, .any, .zero, .shift, fun w => .lxcvt (toL (fieldA w)) (toX (fieldB w)) (fieldShift w)⟩
  | 0x28 => some ⟨.l, .any, .zero, .below n, fun w => .lins (toL (fieldA w)) (toX (fieldB w)) (toIdx _ (fieldImm12 w))⟩
  | 0x29 => some ⟨.any, .l, .zero, .below n, fun w => .lext (toX (fieldA w)) (toL (fieldB w)) (toIdx _ (fieldImm12 w))⟩
  | 0x2A => some ⟨.l, .zero, .zero, .below Config.nprm, fun w => .pramp (toL (fieldA w)) (toIdx _ (fieldImm12 w))⟩
  | 0x2B => some ⟨.zero, .zero, .zero, .below Config.nprm, fun w => .pend (toIdx _ (fieldImm12 w))⟩
  | 0x2C => some ⟨.l, .zero, .zero, .zero, fun w => .lsumt (toL (fieldA w))⟩
  | 0x2D => some ⟨.l, .zero, .zero, .zero, fun w => .decim (toL (fieldA w))⟩
  | 0x30 => some ⟨.l, .zero, .zero, .below Config.nbank, fun w => .sos (toL (fieldA w)) (toIdx _ (fieldImm12 w))⟩
  | 0x31 => some ⟨.l, .zero, .zero, .below Config.nlp, fun w => .lp1 (toL (fieldA w)) (toIdx _ (fieldImm12 w))⟩
  | 0x32 => some ⟨.l, .zero, .zero, .below Config.ndc, fun w => .dcb (toL (fieldA w)) (toIdx _ (fieldImm12 w))⟩
  | 0x40 => some ⟨.l, .zero, .zero, .zero, fun w => .dlmod (toL (fieldA w))⟩
  | 0x41 => some ⟨.l, .zero, .zero, .below Config.ndl, fun w => .dlset (toL (fieldA w)) (toIdx _ (fieldImm12 w))⟩
  | 0x42 => some ⟨.l, .zero, .zero, .below Config.ndl, fun w => .dlwr (toL (fieldA w)) (toIdx _ (fieldImm12 w))⟩
  | 0x43 => some ⟨.l, .zero, .zero, .below Config.ndl, fun w => .dlrdh (toL (fieldA w)) (toIdx _ (fieldImm12 w))⟩
  | 0x44 => some ⟨.l, .zero, .zero, .below Config.ndl, fun w => .dlrdl (toL (fieldA w)) (toIdx _ (fieldImm12 w))⟩
  | 0x45 => some ⟨.zero, .zero, .zero, .below Config.ndl, fun w => .dladv (toIdx _ (fieldImm12 w))⟩
  | 0x46 => some ⟨.any, .zero, .zero, .below Config.ndl, fun w => .dladvx (toX (fieldA w)) (toIdx _ (fieldImm12 w))⟩
  | 0x47 => some ⟨.zero, .zero, .zero, .below Config.ndl, fun w => .dlsav (toIdx _ (fieldImm12 w))⟩
  | 0x48 => some ⟨.zero, .zero, .zero, .below Config.ndl, fun w => .dlrst (toIdx _ (fieldImm12 w))⟩
  | 0x50 => some ⟨.l, .zero, .zero, .below Config.nap, fun w => .apc (toL (fieldA w)) (toIdx _ (fieldImm12 w))⟩
  | 0x51 => some ⟨.l, .zero, .zero, .zero, fun w => .eqn (toL (fieldA w))⟩
  | 0x60 => some ⟨.any, .zero, .zero, .zero, fun w => .tspd (toX (fieldA w))⟩
  | 0x61 => some ⟨.l, .any, .zero, .zero, fun w => .twr (toL (fieldA w)) (toX (fieldB w))⟩
  | 0x62 => some ⟨.zero, .any, .zero, .below 2, fun w => .tseek (toX (fieldB w)) (toIdx _ (fieldImm12 w))⟩
  | 0x63 => some ⟨.l, .zero, .zero, .below 2, fun w => .trd (toL (fieldA w)) (toIdx _ (fieldImm12 w))⟩
  | 0x64 => some ⟨.zero, .zero, .zero, .zero, fun _ => .trev⟩
  | 0x65 => some ⟨.zero, .zero, .zero, .below 3, fun w => .tmode (toMode (fieldImm12 w))⟩
  | 0x66 => some ⟨.l, .l, .l, .zero, fun w => .tmix (toL (fieldA w)) (toL (fieldB w)) (toL (fieldC w))⟩
  | _ => none

/-- R98 step 1 on a four-bit field. -/
def FieldKind.zeroOk (k : FieldKind) (f : BitVec 4) : Bool :=
  match k with
  | .zero => f == 0
  | .l => true
  | .any => true

/-- R98 step 2 on a four-bit field. -/
def FieldKind.lregOk (k : FieldKind) (f : BitVec 4) : Bool :=
  match k with
  | .zero => true
  | .l => decide (f.toNat < 8)
  | .any => true

/-- R98 step 1 on imm12. -/
def ImmKind.zeroOk (k : ImmKind) (f : BitVec 12) : Bool :=
  match k with
  | .zero => f == 0
  | .shift => decide (f.toNat < 64)
  | .any => true
  | .below _ => true

/-- R98 step 3 on imm12. -/
def ImmKind.indexOk (k : ImmKind) (f : BitVec 12) : Bool :=
  match k with
  | .zero => true
  | .shift => true
  | .any => true
  | .below bound => decide (f.toNat < bound)

/-- R98 step 1: every field the row marks 0 is zero. -/
def Row.zeroOk (r : Row) (w : Word) : Bool :=
  r.a.zeroOk (fieldA w) && r.b.zeroOk (fieldB w) && r.c.zeroOk (fieldC w) && r.imm.zeroOk (fieldImm12 w)

/-- R98 step 2: every field of kind L holds 0 to 7. -/
def Row.lregOk (r : Row) (w : Word) : Bool :=
  r.a.lregOk (fieldA w) && r.b.lregOk (fieldB w) && r.c.lregOk (fieldC w)

/-- The decoder of a core with `n` lanes: the instruction, or the first check of R97, R98 that fails. -/
def decode (n : Nat) (w : Word) : Except DecodeError Instr :=
  match rowOf n (fieldOp w) with
  | none => .error .illop
  | some r =>
    if r.zeroOk w = false then .error .resvd
    else if r.lregOk w = false then .error .lreg
    else if r.imm.indexOk (fieldImm12 w) = false then .error .index
    else .ok (r.build w)

/-! The encoder, from R91, R92 and the table R96. -/

/-- Format R (R91). -/
def packR (op : BitVec 8) (a b c : BitVec 4) (imm : BitVec 12) : Word := op ++ a ++ b ++ c ++ imm

/-- Format I (R92). -/
def packI (op : BitVec 8) (a : BitVec 4) (imm : BitVec 16) : Word := op ++ a ++ 0#4 ++ imm

/-- The field of an X register. -/
def ofX (r : XReg) : BitVec 4 := BitVec.ofFin r

/-- The field of an L register. -/
def ofL (r : LReg) : BitVec 4 := BitVec.ofNat 4 r.val

/-- imm12 holding an index. -/
def ofIdx {m : Nat} (k : Fin m) : BitVec 12 := BitVec.ofNat 12 k.val

/-- imm12 holding a shift amount. -/
def ofShift (sh : BitVec 6) : BitVec 12 := sh.setWidth 12

/-- The code of a mode (R264). -/
def Mode.code : Mode → BitVec 12
  | .normal => 0
  | .backForth => 1
  | .reverse => 2

/-- The command word of an instruction. -/
def encode : Instr → Word
  | .nop => packR 0x00 0 0 0 0
  | .init => packR 0x01 0 0 0 0
  | .cfgw rs rb off => packR 0x02 (ofX rs) (ofX rb) 0 off
  | .cfgr rd rb off => packR 0x03 (ofX rd) (ofX rb) 0 off
  | .xli rd imm => packI 0x10 (ofX rd) imm
  | .xsli rd imm => packI 0x11 (ofX rd) imm
  | .xmov rd rs => packR 0x12 (ofX rd) (ofX rs) 0 0
  | .xadd rd ra rb => packR 0x13 (ofX rd) (ofX ra) (ofX rb) 0
  | .xsub rd ra rb => packR 0x14 (ofX rd) (ofX ra) (ofX rb) 0
  | .xsrai rd rs sh => packR 0x15 (ofX rd) (ofX rs) 0 (ofShift sh)
  | .xslli rd rs sh => packR 0x16 (ofX rd) (ofX rs) 0 (ofShift sh)
  | .vcmp rd ra rb => packR 0x17 (ofX rd) (ofX ra) (ofX rb) 0
  | .plfo rd rs k => packR 0x18 (ofX rd) (ofX rs) 0 (ofIdx k)
  | .tlfo rd rs k => packR 0x19 (ofX rd) (ofX rs) 0 (ofIdx k)
  | .lmov ld ls => packR 0x20 (ofL ld) (ofL ls) 0 0
  | .lli ld imm => packI 0x21 (ofL ld) imm
  | .ladd ld la lb => packR 0x22 (ofL ld) (ofL la) (ofL lb) 0
  | .lsub ld la lb => packR 0x23 (ofL ld) (ofL la) (ofL lb) 0
  | .lmul ld la lb => packR 0x24 (ofL ld) (ofL la) (ofL lb) 0
  | .lmac ld la lb => packR 0x25 (ofL ld) (ofL la) (ofL lb) 0
  | .lsplat ld rs => packR 0x26 (ofL ld) (ofX rs) 0 0
  | .lxcvt ld rs sh => packR 0x27 (ofL ld) (ofX rs) 0 (ofShift sh)
  | .lins ld rs k => packR 0x28 (ofL ld) (ofX rs) 0 (ofIdx k)
  | .lext rd ls k => packR 0x29 (ofX rd) (ofL ls) 0 (ofIdx k)
  | .pramp ld k => packR 0x2A (ofL ld) 0 0 (ofIdx k)
  | .pend k => packR 0x2B 0 0 0 (ofIdx k)
  | .lsumt ld => packR 0x2C (ofL ld) 0 0 0
  | .decim ld => packR 0x2D (ofL ld) 0 0 0
  | .sos ld k => packR 0x30 (ofL ld) 0 0 (ofIdx k)
  | .lp1 ld k => packR 0x31 (ofL ld) 0 0 (ofIdx k)
  | .dcb ld k => packR 0x32 (ofL ld) 0 0 (ofIdx k)
  | .dlmod ld => packR 0x40 (ofL ld) 0 0 0
  | .dlset ls u => packR 0x41 (ofL ls) 0 0 (ofIdx u)
  | .dlwr ls u => packR 0x42 (ofL ls) 0 0 (ofIdx u)
  | .dlrdh ld u => packR 0x43 (ofL ld) 0 0 (ofIdx u)
  | .dlrdl ld u => packR 0x44 (ofL ld) 0 0 (ofIdx u)
  | .dladv u => packR 0x45 0 0 0 (ofIdx u)
  | .dladvx rs u => packR 0x46 (ofX rs) 0 0 (ofIdx u)
  | .dlsav u => packR 0x47 0 0 0 (ofIdx u)
  | .dlrst u => packR 0x48 0 0 0 (ofIdx u)
  | .apc ld u => packR 0x50 (ofL ld) 0 0 (ofIdx u)
  | .eqn ld => packR 0x51 (ofL ld) 0 0 0
  | .tspd rd => packR 0x60 (ofX rd) 0 0 0
  | .twr ls rs => packR 0x61 (ofL ls) (ofX rs) 0 0
  | .tseek rs t => packR 0x62 0 (ofX rs) 0 (ofIdx t)
  | .trd ld t => packR 0x63 (ofL ld) 0 0 (ofIdx t)
  | .trev => packR 0x64 0 0 0 0
  | .tmode m => packR 0x65 0 0 0 m.code
  | .tmix ld lcur lold => packR 0x66 (ofL ld) (ofL lcur) (ofL lold) 0

/-- The default number of lanes (R6), for which the opcode table's words are decoded. -/
def defaultLanes : Nat := 8

/-- The host's view of the decoder: the instruction of a table word of `nbits` bits (all rows have 32). -/
def decodeTableWord (nbits w : Nat) : Option Instr :=
  match decode defaultLanes (BitVec.ofNat 32 (w % 2 ^ nbits)) with
  | .ok i => some i
  | .error _ => none

end Sys2Proof
end

