-- ==== Sys2Proof/Machine/Defaults.lean ====
section
/-! DEFINITION. The default parameters of 00_scope.md R6: the values the spec's examples use (log entry 2). -/

namespace Sys2Proof.Machine

/-! FADEWIN by default (46_tape.md R268): entry n is the binary32 nearest to (1 - cos(pi n / 255)) / 2. -/

/-- FADEWIN[0..31]. -/
def fadeRom0 : List Sample :=
  [0x00000000#32, 0x381F2712#32, 0x391F2587#32, 0x39B30751#32, 0x3A1F1F58#32, 0x3A7899BA#32, 0x3AB2F7AB#32, 0x3AF38DF6#32,
   0x3B1F069E#32, 0x3B49394B#32, 0x3B785D60#32, 0x3B963883#32, 0x3BB2B91C#32, 0x3BD1AF60#32, 0x3BF31A1B#32, 0x3C0B7C00#32,
   0x3C1EA3D4#32, 0x3C3303CE#32, 0x3C489B20#32, 0x3C5F68F5#32, 0x3C776C6A#32, 0x3C885248#32, 0x3C958836#32, 0x3CA3577C#32,
   0x3CB1BF90#32, 0x3CC0BFE4#32, 0x3CD057E0#32, 0x3CE086EC#32, 0x3CF14C65#32, 0x3D0153D3#32, 0x3D0A4C00#32, 0x3D138E61#32]

/-- FADEWIN[32..63]. -/
def fadeRom1 : List Sample :=
  [0x3D1D1A9A#32, 0x3D26F04C#32, 0x3D310F14#32, 0x3D3B768F#32, 0x3D462655#32, 0x3D511DFB#32, 0x3D5C5D15#32, 0x3D67E333#32,
   0x3D73AFE1#32, 0x3D7FC2AB#32, 0x3D860D8C#32, 0x3D8C5C57#32, 0x3D92CD78#32, 0x3D9960AE#32, 0x3DA015B8#32, 0x3DA6EC54#32,
   0x3DADE43D#32, 0x3DB4FD2E#32, 0x3DBC36E0#32, 0x3DC3910D#32, 0x3DCB0B69#32, 0x3DD2A5AC#32, 0x3DDA5F89#32, 0x3DE238B4#32,
   0x3DEA30DE#32, 0x3DF247B8#32, 0x3DFA7CF3#32, 0x3E01681E#32, 0x3E05A0A0#32, 0x3E09E7D5#32, 0x3E0E3D94#32, 0x3E12A1B1#32]

/-- FADEWIN[64..95]. -/
def fadeRom2 : List Sample :=
  [0x3E171400#32, 0x3E1B9455#32, 0x3E202283#32, 0x3E24BE5E#32, 0x3E2967B7#32, 0x3E2E1E5F#32, 0x3E32E228#32, 0x3E37B2E3#32,
   0x3E3C9060#32, 0x3E417A6E#32, 0x3E4670DC#32, 0x3E4B7379#32, 0x3E508213#32, 0x3E559C78#32, 0x3E5AC276#32, 0x3E5FF3D8#32,
   0x3E65306B#32, 0x3E6A77FC#32, 0x3E6FCA55#32, 0x3E752741#32, 0x3E7A8E8C#32, 0x3E800000#32, 0x3E82BDB3#32, 0x3E858044#32,
   0x3E884798#32, 0x3E8B1392#32, 0x3E8DE417#32, 0x3E90B90C#32, 0x3E939253#32, 0x3E966FD1#32, 0x3E995169#32, 0x3E9C36FE#32]

/-- FADEWIN[96..127]. -/
def fadeRom3 : List Sample :=
  [0x3E9F2074#32, 0x3EA20DAE#32, 0x3EA4FE8E#32, 0x3EA7F2F7#32, 0x3EAAEACC#32, 0x3EADE5EF#32, 0x3EB0E443#32, 0x3EB3E5AA#32,
   0x3EB6EA06#32, 0x3EB9F139#32, 0x3EBCFB25#32, 0x3EC007AB#32, 0x3EC316AE#32, 0x3EC6280E#32, 0x3EC93BAE#32, 0x3ECC516F#32,
   0x3ECF6932#32, 0x3ED282D8#32, 0x3ED59E43#32, 0x3ED8BB53#32, 0x3EDBD9EA#32, 0x3EDEF9E8#32, 0x3EE21B2F#32, 0x3EE53D9F#32,
   0x3EE8611A#32, 0x3EEB857F#32, 0x3EEEAAB0#32, 0x3EF1D08E#32, 0x3EF4F6F8#32, 0x3EF81DD1#32, 0x3EFB44F7#32, 0x3EFE6C4D#32]

/-- FADEWIN[128..159]. -/
def fadeRom4 : List Sample :=
  [0x3F00C9D9#32, 0x3F025D84#32, 0x3F03F118#32, 0x3F058484#32, 0x3F0717B9#32, 0x3F08AAA8#32, 0x3F0A3D40#32, 0x3F0BCF73#32,
   0x3F0D6130#32, 0x3F0EF268#32, 0x3F10830C#32, 0x3F12130B#32, 0x3F13A256#32, 0x3F1530DF#32, 0x3F16BE94#32, 0x3F184B67#32,
   0x3F19D748#32, 0x3F1B6229#32, 0x3F1CEBF9#32, 0x3F1E74A9#32, 0x3F1FFC2A#32, 0x3F21826E#32, 0x3F230764#32, 0x3F248AFD#32,
   0x3F260D2B#32, 0x3F278DDE#32, 0x3F290D08#32, 0x3F2A8A9A#32, 0x3F2C0685#32, 0x3F2D80B9#32, 0x3F2EF929#32, 0x3F306FC6#32]

/-- FADEWIN[160..191]. -/
def fadeRom5 : List Sample :=
  [0x3F31E481#32, 0x3F33574C#32, 0x3F34C818#32, 0x3F3636D6#32, 0x3F37A37A#32, 0x3F390DF4#32, 0x3F3A7637#32, 0x3F3BDC34#32,
   0x3F3D3FDE#32, 0x3F3EA126#32, 0x3F400000#32, 0x3F415C5D#32, 0x3F42B630#32, 0x3F440D6B#32, 0x3F456201#32, 0x3F46B3E5#32,
   0x3F48030A#32, 0x3F494F63#32, 0x3F4A98E2#32, 0x3F4BDF7B#32, 0x3F4D2322#32, 0x3F4E63C9#32, 0x3F4FA165#32, 0x3F50DBE8#32,
   0x3F521347#32, 0x3F534776#32, 0x3F547868#32, 0x3F55A612#32, 0x3F56D069#32, 0x3F57F75F#32, 0x3F591AEB#32, 0x3F5A3B00#32]

/-- FADEWIN[192..223]. -/
def fadeRom6 : List Sample :=
  [0x3F5B5794#32, 0x3F5C709B#32, 0x3F5D860B#32, 0x3F5E97D8#32, 0x3F5FA5F9#32, 0x3F60B062#32, 0x3F61B709#32, 0x3F62B9E4#32,
   0x3F63B8EA#32, 0x3F64B40F#32, 0x3F65AB4B#32, 0x3F669E93#32, 0x3F678DDE#32, 0x3F687924#32, 0x3F69605A#32, 0x3F6A4378#32,
   0x3F6B2276#32, 0x3F6BFD49#32, 0x3F6CD3EA#32, 0x3F6DA651#32, 0x3F6E7475#32, 0x3F6F3E4E#32, 0x3F7003D5#32, 0x3F70C502#32,
   0x3F7181CD#32, 0x3F723A2F#32, 0x3F72EE20#32, 0x3F739D9B#32, 0x3F744897#32, 0x3F74EF0F#32, 0x3F7590FB#32, 0x3F762E56#32]

/-- FADEWIN[224..255]. -/
def fadeRom7 : List Sample :=
  [0x3F76C71A#32, 0x3F775B40#32, 0x3F77EAC3#32, 0x3F78759D#32, 0x3F78FBC9#32, 0x3F797D41#32, 0x3F79FA01#32, 0x3F7A7203#32,
   0x3F7AE544#32, 0x3F7B53BE#32, 0x3F7BBD6E#32, 0x3F7C224E#32, 0x3F7C825C#32, 0x3F7CDD93#32, 0x3F7D33F1#32, 0x3F7D8571#32,
   0x3F7DD210#32, 0x3F7E19CC#32, 0x3F7E5CA1#32, 0x3F7E9A8E#32, 0x3F7ED38F#32, 0x3F7F07A3#32, 0x3F7F36C7#32, 0x3F7F60F9#32,
   0x3F7F8639#32, 0x3F7FA684#32, 0x3F7FC1DA#32, 0x3F7FD838#32, 0x3F7FE99F#32, 0x3F7FF60E#32, 0x3F7FFD83#32, 0x3F800000#32]

/-- The default content of FADEWIN, 256 Samples. -/
def fadeRom : List Sample :=
  fadeRom0 ++ fadeRom1 ++ fadeRom2 ++ fadeRom3 ++ fadeRom4 ++ fadeRom5 ++ fadeRom6 ++ fadeRom7

/-- The defaults of R6. -/
def defaultParams : Params where
  n       := 8
  nch     := 2
  dllog   := #v[12, 10, 8, 12]
  aplog   := 5
  eqlog   := 8
  tlog    := 16
  fadewin := fadeRom

end Sys2Proof.Machine
end

