-- ==== Sys2Proof/Machine/State.lean ====
section
/-! DEFINITION. The state of AETHER-CORE (10_state.md), as plain data, and its value after Reset
(70_reset_and_hazards.md R320). INVENTORY.md lists every piece. -/

namespace Sys2Proof.Machine

/-- A private unit memory (20_memory.md R71): (key, word) pairs with keys strictly rising and no word 0, which is
what an unlisted key reads as: the reset content (R320). Log entry 14. -/
abbrev Memory (w : Nat) := List (Nat × BitVec w)

/-- The fault causes (60_exceptions.md R302); STATUS.CAUSE codes 1 to 6. -/
inductive Cause where
  | illop
  | resvd
  | lreg
  | index
  | cfgaddr
  | noinit
  deriving DecidableEq, Repr

/-- STATUS (R28). FAULT and CAUSE are one optional cause: FAULT = 0 exactly when CAUSE = 0 (U9, log entry 24). -/
structure Status where
  initd   : Bool
  fault   : Option Cause
  fading  : Bool
  fast    : Bool
  revstop : Bool
  tapUnder : Bool
  tapOver : Bool
  revdrop : Bool
  deriving DecidableEq, Repr

/-- One second-order section (R32). -/
structure SosSection where
  b0 : Lanes
  b1 : Lanes
  b2 : Lanes
  a1 : Lanes
  a2 : Lanes
  s0 : Lanes
  s1 : Lanes
  deriving DecidableEq, Repr

/-- One SOS bank (R32); NSECT holds 0 to 5. -/
structure SosBank where
  sec   : Vector SosSection Config.nsecmax
  nsect : Fin 6
  deriving DecidableEq, Repr

/-- One one-pole low-pass (R33). -/
structure OnePole where
  a : Lanes
  s : Lanes
  deriving DecidableEq, Repr

/-- One DC blocker (R34). -/
structure DcBlock where
  r  : Lanes
  x1 : Lanes
  y1 : Lanes
  deriving DecidableEq, Repr

/-- One delay line (R35). BUF is keyed by slot * 8 + lane. -/
structure DelayLine where
  buf    : Memory 32
  id     : Word
  saved  : Word
  idelay : Lanes
  fdelay : Lanes
  deriving DecidableEq, Repr

/-- The modulation generator (R37). -/
structure Lcg where
  state : Lanes
  seed  : Lanes
  deriving DecidableEq, Repr

/-- One allpass stage's memory and cells (R38). M is keyed by slot * 8 + lane. -/
structure ApStage where
  m  : Memory 32
  s1 : Lanes
  s2 : Lanes
  deriving DecidableEq, Repr

/-- One allpass cascade (R38); NSTAGE holds 0 to 128. -/
structure Cascade where
  nstage : Fin 129
  apid   : Word
  a1     : Lanes
  a2     : Lanes
  ik     : Lanes
  stages : Vector ApStage Config.nstagemax
  deriving DecidableEq, Repr

/-- The EQ section (R39). EQM is keyed by slot * 8 + lane. -/
structure EqUnit where
  eqid : Word
  b0   : Lanes
  b1   : Lanes
  b2   : Lanes
  a1   : Lanes
  a2   : Lanes
  keq  : Lanes
  eqm  : Memory 32
  deriving DecidableEq, Repr

/-- One ramped parameter slot (R40). -/
structure Ramp where
  val : Lanes
  inc : Lanes
  deriving DecidableEq, Repr

/-- One tape buffer and its write cursor (R41, R42), keyed by slot. -/
structure TapeBuf where
  tv : Memory 64
  ts : Vector (Memory 32) 2
  nw : Word
  deriving DecidableEq, Repr

/-- The playback direction of a tap (R43); codes 0, 1. -/
inductive Dir where
  | forwards
  | backwards
  deriving DecidableEq, Repr

/-- One tape-read head (R43). -/
structure Tap where
  nread    : Word
  dir      : Dir
  buf      : Fin 2
  frac     : Sample
  pbs      : Sample
  xread    : XWord
  xrevstop : XWord
  prevn    : Word
  prevf    : Sample
  ym1      : Vector Sample 2
  y0       : Vector Sample 2
  y1       : Vector Sample 2
  y2       : Vector Sample 2
  aas      : Vector Sample 2
  deriving DecidableEq, Repr

/-- The tape transport (R41 to R43). -/
structure Tape where
  mode   : Mode
  wbuf   : Fin 2
  spdsh  : BitVec 6
  aacoef : Sample
  fastth : Sample
  cur    : Fin 2
  fcnt   : BitVec 9
  tspeed : XWord
  speed  : XWord
  xwrite : XWord
  bufs   : Vector TapeBuf 2
  taps   : Vector Tap 2
  deriving DecidableEq, Repr

/-- A transaction of the host (00_scope.md R12). -/
inductive HostTx where
  /-- hand one command word to the core -/
  | issue (w : Word)
  /-- read one CFG word -/
  | hostRead (a : BitVec 16)
  /-- write one CFG word -/
  | hostWrite (a : BitVec 16) (v : Word)
  /-- put the core in its reset state -/
  | reset
  deriving DecidableEq, Repr

/-- The machine. The first five fields are the model's own (INVENTORY.md): the parameters, which no step writes;
the host's pending transactions, oldest first; the command index of R27; the stamp of the free NaN values; and the
value the last HostRead returned. -/
structure State where
  par       : Params
  inbox     : List HostTx
  index     : Nat
  draw      : Nat
  lastRead  : Option Word
  x         : Vector XWord 16
  l         : Vector Lanes 8
  status    : Status
  faultinfo : Word
  decm      : Word
  deccnt    : Word
  ph        : Vector XWord Config.nosc
  sos       : Vector SosBank Config.nbank
  lp1       : Vector OnePole Config.nlp
  dcb       : Vector DcBlock Config.ndc
  dl        : Vector DelayLine Config.ndl
  lcg       : Lcg
  ap        : Vector Cascade Config.nap
  eq        : EqUnit
  prm       : Vector Ramp Config.nprm
  tape      : Tape
  deriving DecidableEq, Repr

/-- Why the machine stops. Nothing of this core stops it: every command runs or takes the fault entry of R303, a
halted core discards (R305), an idle core waits (R321). So there is no constructor (log entry 12; safe). -/
inductive Fault where
  deriving DecidableEq, Repr

/-- Why an instruction has no meaning. -/
inductive Refusal where
  /-- an arm of exec whose instruction has no meaning yet; no arm raises it now (safe) -/
  | notModelled (mnemonic : String)
  deriving DecidableEq, Repr

/-- What a step or a meaning answers. -/
abbrev Result := Host.Outcome State Fault Refusal

/-! The reset values of R320, unit by unit. -/

def Status.reset : Status := ⟨false, none, false, false, false, false, false, false⟩

def SosSection.reset : SosSection :=
  ⟨Lanes.zero, Lanes.zero, Lanes.zero, Lanes.zero, Lanes.zero, Lanes.zero, Lanes.zero⟩

def SosBank.reset : SosBank := ⟨Vector.replicate _ SosSection.reset, 0⟩

def OnePole.reset : OnePole := ⟨Lanes.zero, Lanes.zero⟩

def DcBlock.reset : DcBlock := ⟨Lanes.zero, Lanes.zero, Lanes.zero⟩

def DelayLine.reset : DelayLine := ⟨[], 0, 0, Lanes.zero, Lanes.zero⟩

def Lcg.reset : Lcg := ⟨Lanes.zero, Lanes.zero⟩

def ApStage.reset : ApStage := ⟨[], Lanes.zero, Lanes.zero⟩

def Cascade.reset : Cascade :=
  ⟨0, 0, Lanes.zero, Lanes.zero, Lanes.zero, Vector.replicate _ ApStage.reset⟩

def EqUnit.reset : EqUnit :=
  ⟨0, Lanes.zero, Lanes.zero, Lanes.zero, Lanes.zero, Lanes.zero, Lanes.zero, []⟩

def Ramp.reset : Ramp := ⟨Lanes.zero, Lanes.zero⟩

def TapeBuf.reset : TapeBuf := ⟨[], Vector.replicate _ [], 0⟩

def Tap.reset : Tap where
  nread    := 0
  dir      := .forwards
  buf      := 0
  frac     := 0
  pbs      := 0
  xread    := 0
  xrevstop := 0
  prevn    := 0
  prevf    := 0
  ym1      := Vector.replicate _ 0
  y0       := Vector.replicate _ 0
  y1       := Vector.replicate _ 0
  y2       := Vector.replicate _ 0
  aas      := Vector.replicate _ 0

/-- FASTTH is the binary32 nearest 1.01 (R41, R320). -/
def Tape.reset : Tape where
  mode   := .normal
  wbuf   := 0
  spdsh  := 0
  aacoef := 0
  fastth := 0x3F8147AE
  cur    := 0
  fcnt   := 0
  tspeed := 0
  speed  := 0
  xwrite := 0
  bufs   := Vector.replicate _ TapeBuf.reset
  taps   := Vector.replicate _ Tap.reset

/-- The machine right after Reset (R320, R321): nothing pending, idle, the default parameters (log entry 2). -/
def State.reset : State where
  par       := defaultParams
  inbox     := []
  index     := 0
  draw      := 0
  lastRead  := none
  x         := Vector.replicate _ 0
  l         := Vector.replicate _ Lanes.zero
  status    := Status.reset
  faultinfo := 0
  decm      := 1
  deccnt    := 0
  ph        := Vector.replicate _ 0
  sos       := Vector.replicate _ SosBank.reset
  lp1       := Vector.replicate _ OnePole.reset
  dcb       := Vector.replicate _ DcBlock.reset
  dl        := Vector.replicate _ DelayLine.reset
  lcg       := Lcg.reset
  ap        := Vector.replicate _ Cascade.reset
  eq        := EqUnit.reset
  prm       := Vector.replicate _ Ramp.reset
  tape      := Tape.reset

end Sys2Proof.Machine
end

