-- ==== Sys2Proof/Machine/Flags.lean ====
section
/-! DEFINITION. The flags: the word STATUS (10_state.md R28) and every rule that sets or clears a bit of it. -/

namespace Sys2Proof.Machine

/-- The code of a cause in STATUS[7:4] (60_exceptions.md R302). -/
def Cause.code : Cause → BitVec 4
  | .illop => 1
  | .resvd => 2
  | .lreg => 3
  | .index => 4
  | .cfgaddr => 5
  | .noinit => 6

/-- The cause of a malformed word (R97, R98). -/
def causeOf : DecodeError → Cause
  | .illop => .illop
  | .resvd => .resvd
  | .lreg => .lreg
  | .index => .index

/-- STATUS.CAUSE: 0 while no fault has occurred. -/
def Status.causeCode (st : Status) : BitVec 4 :=
  match st.fault with
  | none => 0
  | some c => c.code

/-- STATUS as the word at CFG 0x0002: INITD, FAULT, 0, CAUSE, FADING, FAST, REVSTOP, UNDER, OVER, REVDROP, 0. -/
def Status.word (st : Status) : Word :=
  0#18 ++ BitVec.ofBool st.revdrop ++ BitVec.ofBool st.tapOver ++ BitVec.ofBool st.tapUnder ++ BitVec.ofBool st.revstop
    ++ BitVec.ofBool st.fast ++ BitVec.ofBool st.fading ++ st.causeCode ++ 0#2 ++ BitVec.ofBool st.fault.isSome
    ++ BitVec.ofBool st.initd

/-- The core is halted exactly when STATUS.FAULT = 1 (R305). -/
def State.halted (s : State) : Bool := s.status.fault.isSome

/-- INIT sets INITD and clears the six tape flags; FAULT and CAUSE stay (47_system.md R282). -/
def Status.afterInit (st : Status) : Status :=
  { st with initd := true, fading := false, fast := false, revstop := false, tapUnder := false, tapOver := false, revdrop := false }

/-- The flags TSEEK sets (46_tape.md R254, R256, R257): UNDER, OVER and REVSTOP are sticky; FAST is copied only when
the tap sought is the current one. -/
def Status.afterSeek (st : Status) (isUnder isOver revstop isCur fast : Bool) : Status :=
  { st with
    tapUnder := st.tapUnder || isUnder
    tapOver := st.tapOver || isOver
    revstop := st.revstop || revstop
    fast := if isCur then fast else st.fast }

end Sys2Proof.Machine
end

