-- ==== Sys2Proof/Machine/Sample.lean ====
section
/-! DEFINITION. Sample arithmetic (00_scope.md R9): IEEE 754 binary32, round to nearest, ties to even, not fused,
subnormals kept. An operation on finite values computes the exact result as an integer times a power of two and
rounds it once. A NaN result is a quiet NaN whose sign and payload are a free value (log entry 5). -/

namespace Sys2Proof.Machine

/-! The parts of a pattern. -/

/-- The sign bit. -/
def signBit (a : Sample) : Bool := a.msb

/-- The biased exponent, bits 30:23. -/
def expField (a : Sample) : Nat := (a.extractLsb' 23 8).toNat

/-- The fraction, bits 22:0. -/
def fracField (a : Sample) : Nat := (a.extractLsb' 0 23).toNat

def isNaN (a : Sample) : Bool := expField a == 255 && fracField a != 0
def isInf (a : Sample) : Bool := expField a == 255 && fracField a == 0

/-- A zero of either sign. -/
def isZero (a : Sample) : Bool := expField a == 0 && fracField a == 0

/-- A number that is neither an infinity nor a NaN. -/
def isFinite (a : Sample) : Bool := expField a != 255

/-- The significand of a finite number: its magnitude is `signif a * 2 ^ lsbExp a`. -/
def signif (a : Sample) : Nat := if expField a = 0 then fracField a else 2 ^ 23 + fracField a

/-- The exponent of the significand's last bit. -/
def lsbExp (a : Sample) : Int := if expField a = 0 then -149 else (expField a : Int) - 150

/-- The significand with its sign. -/
def signedSignif (a : Sample) : Int := if signBit a then -(signif a : Int) else (signif a : Int)

/-! Special results. -/

def zeroOf (neg : Bool) : Sample := if neg then 0x80000000#32 else 0x00000000#32
def infOf (neg : Bool) : Sample := if neg then 0xFF800000#32 else 0x7F800000#32

/-- The quiet NaN made at a place: free sign and payload, quiet bit set (R9, U1). -/
def nanAt (d : Draw) : Sample :=
  (Config.nanDraw d).extractLsb' 22 1 ++ 0xFF#8 ++ 1#1 ++ (Config.nanDraw d).extractLsb' 0 22

/-! Rounding. -/

/-- `m / 2 ^ k` (k ≥ 1) to the nearest integer, ties to even. -/
def roundShift (m k : Nat) : Nat :=
  if m % 2 ^ k > 2 ^ (k - 1) ∨ (m % 2 ^ k = 2 ^ (k - 1) ∧ m / 2 ^ k % 2 = 1) then m / 2 ^ k + 1 else m / 2 ^ k

/-- The exponent of the last bit kept of the magnitude `m * 2 ^ e` (m ≠ 0): 24 significant bits, or fewer at the
bottom of the range. -/
def keptExp (m : Nat) (e : Int) : Int := max (e + (Nat.log2 m : Int) - 23) (-149)

/-- `m * 2 ^ e` in units of its last bit kept, rounded. -/
def keptSignif (m : Nat) (e : Int) : Nat :=
  if keptExp m e ≤ e then m * 2 ^ (e - keptExp m e).toNat else roundShift m (keptExp m e - e).toNat

/-- The pattern, without its sign, of `m * 2 ^ e` rounded; a magnitude past the largest finite one gives infinity.
A carry out of the significand moves into the exponent field by the addition. -/
def roundMag (m : Nat) (e : Int) : Nat :=
  if m = 0 then 0 else min ((keptExp m e + 149).toNat * 2 ^ 23 + keptSignif m e) 0x7F800000

/-- The Sample nearest to `(-1)^neg * m * 2 ^ e`. -/
def roundTo (neg : Bool) (m : Nat) (e : Int) : Sample :=
  BitVec.ofNat 32 (roundMag m e + if neg then 2 ^ 31 else 0)

/-! The operations of R9. -/

/-- Negation: flips the sign bit. -/
def fneg (a : Sample) : Sample := a ^^^ 0x80000000#32

/-- Absolute value: clears the sign bit (46_tape.md R250). -/
def fabs (a : Sample) : Sample := a &&& 0x7FFFFFFF#32

/-- The sum of two finite numbers in units of the smaller of the two last bits. -/
def alignedSum (a b : Sample) : Int :=
  signedSignif a * 2 ^ (lsbExp a - min (lsbExp a) (lsbExp b)).toNat
    + signedSignif b * 2 ^ (lsbExp b - min (lsbExp a) (lsbExp b)).toNat

/-- `fadd`. -/
def fadd (d : Draw) (a b : Sample) : Sample :=
  if isNaN a || isNaN b then nanAt d
  else if isInf a then (if isInf b && signBit a != signBit b then nanAt d else a)
  else if isInf b then b
  else if alignedSum a b = 0 then zeroOf (signBit a && signBit b)
  else roundTo (decide (alignedSum a b < 0)) (alignedSum a b).natAbs (min (lsbExp a) (lsbExp b))

/-- `fsub`: the sum with the second operand negated. -/
def fsub (d : Draw) (a b : Sample) : Sample := fadd d a (fneg b)

/-- `fmul`. -/
def fmul (d : Draw) (a b : Sample) : Sample :=
  if isNaN a || isNaN b then nanAt d
  else if isInf a || isInf b then (if isZero a || isZero b then nanAt d else infOf (signBit a != signBit b))
  else roundTo (signBit a != signBit b) (signif a * signif b) (lsbExp a + lsbExp b)

/-- The quotient of two significands in units of 2^-51, its last bit set when a remainder is dropped. -/
def stickyQuot (ma mb : Nat) : Nat :=
  2 * (ma * 2 ^ 50 / mb) + if ma * 2 ^ 50 % mb = 0 then 0 else 1

/-- `fdiv`. -/
def fdiv (d : Draw) (a b : Sample) : Sample :=
  if isNaN a || isNaN b then nanAt d
  else if isInf a then (if isInf b then nanAt d else infOf (signBit a != signBit b))
  else if isInf b then zeroOf (signBit a != signBit b)
  else if isZero b then (if isZero a then nanAt d else infOf (signBit a != signBit b))
  else roundTo (signBit a != signBit b) (stickyQuot (signif a) (signif b)) (lsbExp a - lsbExp b - 51)

/-- `i2f`: an integer rounded to a Sample. -/
def i2f (z : Int) : Sample := roundTo (decide (z < 0)) z.natAbs 0

/-- The order of two numbers: the magnitude pattern with its sign, which grows with the value. -/
def orderKey (a : Sample) : Int :=
  if signBit a then -((a.toNat % 2 ^ 31 : Nat) : Int) else ((a.toNat % 2 ^ 31 : Nat) : Int)

/-- `a > b`; false when either is a NaN (R256). -/
def fgt (a b : Sample) : Bool := !isNaN a && !isNaN b && decide (orderKey b < orderKey a)

/-- The pattern of 2^-sh, for sh ≤ 63 (R161, R217). -/
def pow2neg (sh : Nat) : Sample := BitVec.ofNat 32 ((127 - sh) * 2 ^ 23)

end Sys2Proof.Machine
end

