-- ==== Sys2Proof/Machine/Ops.lean ====
section
/-! DEFINITION. The named operations over memories and registers, and taking a fault (60_exceptions.md R303). -/

namespace Sys2Proof.Machine

/-! Private memories (20_memory.md R71). -/

/-- The word at a key; an unlisted key reads 0. -/
def Memory.read {w : Nat} (m : Memory w) (a : Nat) : BitVec w :=
  match m with
  | [] => 0#w
  | (k, v) :: t => if k = a then v else Memory.read t a

/-- Store a word at a key; storing 0 removes the entry, so that equal memories are equal lists. -/
def Memory.write {w : Nat} (m : Memory w) (a : Nat) (v : BitVec w) : Memory w :=
  match m with
  | [] => if v = 0#w then [] else [(a, v)]
  | (k, u) :: t =>
    if a < k then (if v = 0#w then (k, u) :: t else (a, v) :: (k, u) :: t)
    else if a = k then (if v = 0#w then t else (a, v) :: t)
    else (k, u) :: Memory.write t a v

/-- The canonical form: keys strictly rising, all at least `lo`, and no word 0. -/
def Memory.wfFrom {w : Nat} (lo : Nat) : Memory w → Bool
  | [] => true
  | (k, v) :: t => decide (lo ≤ k) && v != 0#w && Memory.wfFrom (k + 1) t

/-- The canonical form of a memory. -/
def Memory.wf {w : Nat} (m : Memory w) : Bool := Memory.wfFrom 0 m

/-! Rings (20_memory.md R74). -/

/-- The mask of a ring of 2^log slots. -/
def ringMask (log : Nat) : Word := BitVec.ofNat 32 (2 ^ log - 1)

/-- The slot for cursor `c` and delay `d`: (c - d) & m, the subtraction modulo 2^32. -/
def ringSlot (log : Nat) (c d : Word) : Word := (c - d) &&& ringMask log

/-- The cursor moved by `k` slots. -/
def ringAdvance (log : Nat) (c k : Word) : Word := (c + k) &&& ringMask log

/-- The key of a slot's lane in a memory of N-lane slots (log entry 14). -/
def cell (slot : Word) (i : Lane) : Nat := slot.toNat * 8 + i.val

/-- Write lanes 0 to `k - 1` of `v` into a slot. -/
def writeLanes (m : Memory 32) (slot : Word) (v : Lanes) : Nat → Memory 32
  | 0 => m
  | k + 1 =>
    if h : k < 8 then Memory.write (writeLanes m slot v k) (cell slot ⟨k, h⟩) v[k] else writeLanes m slot v k

/-! Lanes (00_scope.md R8: "for i in lanes"). -/

/-- `f i` in every lane i < n; the positions at or above n keep what `old` holds (log entry 18). -/
def onLanes (n : Nat) (old : Lanes) (f : Lane → Word) : Lanes :=
  Vector.ofFn fun i => if i.val < n then f i else old[i]

/-- `f c` in every channel c < nch; a second channel that does not exist keeps what `old` holds. -/
def onChannels (nch : Nat) (old : Vector Sample 2) (f : Fin 2 → Sample) : Vector Sample 2 :=
  Vector.ofFn fun c => if c.val < nch then f c else old[c]

/-! Registers. -/

/-- X[r] <- v (R8, R20). -/
def State.setX (s : State) (r : XReg) (v : XWord) : State := { s with x := s.x.set r v }

/-- L[r] <- v, all lanes at once (R8, R21). -/
def State.setL (s : State) (r : LReg) (v : Lanes) : State := { s with l := s.l.set r v }

/-- L[r][i] <- f i for every lane i of the machine; f reads the state before any lane is written (R22). -/
def State.mapL (s : State) (r : LReg) (f : Lane → Sample) : State :=
  s.setL r (onLanes s.par.n s.l[r] f)

/-- The place of operation `k` of lane `i` in the current step, for its free NaN (log entry 5). -/
def State.at (s : State) (i k : Nat) : Draw := [s.draw, i, k]

/-! Faults. -/

/-- Taking a fault (60_exceptions.md R303): FAULT, CAUSE and FAULTINFO are written, nothing else, and the core is
halted. There is no return from it but Reset (R306). -/
def State.raise (s : State) (c : Cause) (w : Word) : State :=
  { s with status := { s.status with fault := some c }, faultinfo := w }

/-- The check of 47_system.md R283: a command that uses unit state runs only after INIT, else it takes cause 6.
A word decodes to exactly one instruction and has no free bits, so `encode i` is the word that was issued
(log entry 13). -/
def State.whenInit (s : State) (i : Instr) (t : State) : Result :=
  if s.status.initd then .next t else .next (s.raise .noinit (encode i))

/-! 64-bit pairs (10_state.md R45). -/

/-- Replace the low (`hi = false`) or the high half. -/
def setHalf (v : XWord) (hi : Bool) (w : Word) : XWord :=
  if hi then w ++ v.extractLsb' 0 32 else v.extractLsb' 32 32 ++ w

/-- The low or the high half. -/
def getHalf (v : XWord) (hi : Bool) : Word :=
  if hi then v.extractLsb' 32 32 else v.extractLsb' 0 32

/-! The bits of one-bit fields. -/

def Dir.bit : Dir → BitVec 1
  | .forwards => 0
  | .backwards => 1

/-- Bit 0 of a written word as a direction. -/
def Dir.ofWord (w : Word) : Dir := if w.getLsbD 0 then .backwards else .forwards

/-- The other direction. -/
def Dir.flip : Dir → Dir
  | .forwards => .backwards
  | .backwards => .forwards

/-- Bit 0 of a written word as a buffer number. -/
def bufOfWord (w : Word) : Fin 2 := if w.getLsbD 0 then 1 else 0

/-- The other of the two taps. -/
def otherTap (t : Fin 2) : Fin 2 := if t = 0 then 1 else 0

/-- Reset (70_reset_and_hazards.md R320): every piece of state at its reset value. The parameters are not state
(R46), and the host's side of the interface goes on (log entry 11). -/
def State.afterReset (s : State) : State :=
  { State.reset with par := s.par, inbox := s.inbox, index := s.index, draw := s.draw, lastRead := s.lastRead }

end Sys2Proof.Machine
end

