-- ==== Sys2Proof/Machine/Operands.lean ====
section
/-! DEFINITION. The operand forms of the commands (30_encoding.md R93, R95; 41_timebase.md R129). -/

namespace Sys2Proof.Machine

/-- imm16 of XLI: sign-extended to 64 bits. -/
def immSext (imm : BitVec 16) : XWord := imm.signExtend 64

/-- imm16 of XSLI: zero-extended to 64 bits. -/
def immZext (imm : BitVec 16) : XWord := imm.setWidth 64

/-- imm16 of LLI: bits 31:16 of a Sample pattern, bits 15:0 zero. -/
def immSample (imm : BitVec 16) : Sample := imm ++ 0#16

/-- A 32-bit quantity moved from an X register: bits 31:0 (R129). -/
def lowWord (v : XWord) : Word := v.setWidth 32

/-- A 32-bit quantity moved to an X register: zero-extended (R129). -/
def zextWord (w : Word) : XWord := w.setWidth 64

/-- The CFG address of CFGR and CFGW: (X[b][15:0] + zext(imm12)) mod 2^16 (47_system.md R284, R286). -/
def cfgAddress (base : XWord) (off : BitVec 12) : BitVec 16 := base.setWidth 16 + off.setWidth 16

/-- `sra(v, k)`: arithmetic right shift (R7). -/
def sra (v : XWord) (k : Nat) : XWord := v.sshiftRight k

/-- `sll(v, k)`: left shift modulo 2^64 (R7). -/
def sll (v : XWord) (k : Nat) : XWord := v <<< k

/-- A truth value as an X register value. -/
def boolX (b : Bool) : XWord := if b then 1 else 0

end Sys2Proof.Machine
end

