-- ==== Sys2Proof/Machine/Allpass.lean ====
section
/-! DEFINITION. The allpass cascades and the EQ section (44_allpass_eq.md). -/

namespace Sys2Proof.Machine

/-! One stage step (R191); `d k` is the place of operation k. -/

/-- `d` of a stage step: the stage memory K slots back, read before the write. -/
def stageD (log : Nat) (c : Cascade) (g : ApStage) (i : Lane) : Sample :=
  Memory.read g.m (cell (ringSlot log c.apid c.ik[i]) i)

/-- `v` of a stage step. -/
def stageV (d : Nat → Draw) (log : Nat) (c : Cascade) (g : ApStage) (i : Lane) (x : Sample) : Sample :=
  fsub (d 1) x (fmul (d 0) c.a1[i] (stageD log c g i))

/-- `w` of a stage step, from `t`. -/
def stageW (d : Nat → Draw) (log : Nat) (c : Cascade) (g : ApStage) (i : Lane) (x : Sample) : Sample :=
  fsub (d 5)
    (fadd (d 3) (fmul (d 2) c.a1[i] (stageV d log c g i x)) (stageD log c g i))
    (fmul (d 4) c.a2[i] g.s2[i])

/-- `y` of a stage step. R192's corner calls a stage with a1 = a2 = 0 a pure delay of K + 2 samples; by the pseudocode of
R191 in binary32 a sample of -0.0 can come out as +0.0 and an infinity makes a NaN. The pseudocode is followed (log
entry 30). -/
def stageY (d : Nat → Draw) (log : Nat) (c : Cascade) (g : ApStage) (i : Lane) (x : Sample) : Sample :=
  fadd (d 7) (fmul (d 6) c.a2[i] (stageW d log c g i x)) g.s2[i]

/-- One stage over all lanes: its memory and cells, and its output. -/
def stageStep (d : Lane → Nat → Draw) (n log : Nat) (c : Cascade) (g : ApStage) (x : Lanes) : ApStage × Lanes :=
  ({ m := writeLanes g.m c.apid (Vector.ofFn fun i => stageV (d i) log c g i x[i]) n
     s2 := onLanes n g.s2 fun i => g.s1[i]
     s1 := onLanes n g.s1 fun i => stageW (d i) log c g i x[i] },
   onLanes n x fun i => stageY (d i) log c g i x[i])

/-- Stages 0 to `k - 1` in order (R192). -/
def stageRun (d : Nat → Lane → Nat → Draw) (n log : Nat) (c : Cascade) (x : Lanes) :
    Nat → Vector ApStage Config.nstagemax × Lanes
  | 0 => (c.stages, x)
  | k + 1 =>
    let r := stageRun d n log c x k
    if h : k < Config.nstagemax then
      let q := stageStep (d k) n log c r.1[k] r.2
      (r.1.set k q.1, q.2)
    else r

/-- The run of a cascade on an L register. -/
def State.apRun (s : State) (ld : LReg) (u : Fin Config.nap) : Vector ApStage Config.nstagemax × Lanes :=
  stageRun (fun j i op => s.at i (8 * j + op)) s.par.n s.par.aplog s.ap[u] s.l[ld] s.ap[u].nstage.val

/-- APC (R192): the cursor moves once, after all stages. -/
def execApc (ld : LReg) (u : Fin Config.nap) (s : State) : Result :=
  s.whenInit (.apc ld u)
    { s.setL ld (s.apRun ld u).2 with
      ap := s.ap.set u { s.ap[u] with
        stages := (s.apRun ld u).1
        apid := ringAdvance s.par.aplog s.ap[u].apid 1 } }

/-! The EQ (R197). -/

/-- The memory `k` slots back in lane i. -/
def State.eqTap (s : State) (i : Lane) (k : Word) : Sample :=
  Memory.read s.eq.eqm (cell (ringSlot s.par.eqlog s.eq.eqid k) i)

/-- `w` of an EQ step. -/
def State.eqW (s : State) (i : Lane) (x : Sample) : Sample :=
  fsub (s.at i 3)
    (fsub (s.at i 1) x (fmul (s.at i 0) s.eq.a1[i] (s.eqTap i s.eq.keq[i])))
    (fmul (s.at i 2) s.eq.a2[i] (s.eqTap i (2 * s.eq.keq[i])))

/-- `y` of an EQ step. R198's corners say that B0 = 1 and the rest 0 is the identity and that all coefficients 0 give 0; by
the pseudocode of R197 in binary32 an input of -0.0 can come out as +0.0, a zero can be -0.0, and an infinity makes a
NaN. The pseudocode is followed (log entry 30). -/
def State.eqY (s : State) (i : Lane) (x : Sample) : Sample :=
  fadd (s.at i 8)
    (fadd (s.at i 6) (fmul (s.at i 4) s.eq.b0[i] (s.eqW i x)) (fmul (s.at i 5) s.eq.b1[i] (s.eqTap i s.eq.keq[i])))
    (fmul (s.at i 7) s.eq.b2[i] (s.eqTap i (2 * s.eq.keq[i])))

/-- EQN (R198). -/
def execEqn (ld : LReg) (s : State) : Result :=
  s.whenInit (.eqn ld)
    { s.mapL ld (fun i => s.eqY i s.l[ld][i]) with
      eq := { s.eq with
        eqm := writeLanes s.eq.eqm s.eq.eqid (Vector.ofFn fun i => s.eqW i s.l[ld][i]) s.par.n
        eqid := ringAdvance s.par.eqlog s.eq.eqid 1 } }

end Sys2Proof.Machine
end

