-- ==== Sys2Proof/Machine/Delay.lean ====
section
/-! DEFINITION. Delay lines, fractional taps and the modulation source (43_delayline.md). -/

namespace Sys2Proof.Machine

/-! The modulation source. -/

/-- The generator step of lane i (R161): SEED + STATE * 1103515245 modulo 2^32. -/
def State.lcgNext (s : State) (i : Lane) : Word := s.lcg.seed[i] + s.lcg.state[i] * 1103515245#32

/-- DLMOD (R162): the new state read as signed, scaled by 2^-31. -/
def execDlmod (ld : LReg) (s : State) : Result :=
  s.whenInit (.dlmod ld)
    { s.mapL ld (fun i => fmul (s.at i 0) (i2f (s.lcgNext i).toInt) (pow2neg 31)) with
      lcg := { s.lcg with state := onLanes s.par.n s.lcg.state s.lcgNext } }

/-! Delay values. -/

/-- floor(v) of a finite number that is not below 0. -/
def floorNat (v : Sample) : Nat :=
  if 0 ≤ lsbExp v then signif v * 2 ^ (lsbExp v).toNat else signif v / 2 ^ (-lsbExp v).toNat

/-- `split(v)` (R165): NaN and negative give (0, +0.0), 2^32 and above (0xFFFFFFFF, +0.0), a zero fraction is +0.0. -/
def splitDelay (d : Draw) (v : Sample) : Word × Sample :=
  if isNaN v || (signBit v && !isZero v) then (0, 0)
  else if orderKey 0x4F800000#32 ≤ orderKey v then (0xFFFFFFFF, 0)
  else
    let f := fsub d v (i2f (floorNat v))
    (BitVec.ofNat 32 (floorNat v), if isZero f then 0 else f)

/-- Replace one delay line. -/
def State.setDl (s : State) (u : Fin Config.ndl) (p : DelayLine) : State := { s with dl := s.dl.set u p }

/-- DLSET (R166). -/
def execDlset (ls : LReg) (u : Fin Config.ndl) (s : State) : Result :=
  s.whenInit (.dlset ls u)
    (s.setDl u { s.dl[u] with
      idelay := onLanes s.par.n s.dl[u].idelay fun i => (splitDelay (s.at i 0) s.l[ls][i]).1
      fdelay := onLanes s.par.n s.dl[u].fdelay fun i => (splitDelay (s.at i 0) s.l[ls][i]).2 })

/-- DLWR (R170): the slot at the cursor is written; the cursor does not move. -/
def execDlwr (ls : LReg) (u : Fin Config.ndl) (s : State) : Result :=
  s.whenInit (.dlwr ls u)
    (s.setDl u { s.dl[u] with buf := writeLanes s.dl[u].buf s.dl[u].id s.l[ls] s.par.n })

/-! Taps. -/

/-- `tapv(u, i, e)` (R168): the sample `e` slots older than lane i's integer tap. -/
def State.tapv (s : State) (u : Fin Config.ndl) (i : Lane) (e : Word) : Sample :=
  Memory.read s.dl[u].buf (cell (ringSlot s.par.dllog[u] s.dl[u].id (s.dl[u].idelay[i] + e)) i)

/-- `lin(a0, a1, f)` (R171), in binary32 (R9). R172's corner says that a tap of -0.0 with FDELAY = +0.0 gives +0.0; by
its pseudocode the product, and with it the result, is -0.0 where the older neighbour is negative. The pseudocode is
followed (log entry 29). -/
def lin (d : Nat → Draw) (a0 a1 f : Sample) : Sample := fadd (d 2) a0 (fmul (d 1) f (fsub (d 0) a1 a0))

/-! `herm(ym1, y0, y1, y2, f)` (R173): the constants are 0.5, 1.5, 2.0 and 2.5. -/

def hermC1 (d : Nat → Draw) (ym1 y1 : Sample) : Sample := fmul (d 1) 0x3F000000#32 (fsub (d 0) y1 ym1)

def hermC2 (d : Nat → Draw) (ym1 y0 y1 y2 : Sample) : Sample :=
  fsub (d 7)
    (fadd (d 5) (fsub (d 3) ym1 (fmul (d 2) 0x40200000#32 y0)) (fmul (d 4) 0x40000000#32 y1))
    (fmul (d 6) 0x3F000000#32 y2)

def hermC3 (d : Nat → Draw) (ym1 y0 y1 y2 : Sample) : Sample :=
  fadd (d 12) (fmul (d 9) 0x3F000000#32 (fsub (d 8) y2 ym1)) (fmul (d 11) 0x3FC00000#32 (fsub (d 10) y0 y1))

/-- The polynomial. At f = 0 it is y0 up to the sign of zero, as R173 says, for finite intermediate values; an infinite one
makes a NaN by the pseudocode, which is followed (log entry 30). -/
def herm (d : Nat → Draw) (ym1 y0 y1 y2 f : Sample) : Sample :=
  fadd (d 18)
    (fmul (d 17)
      (fadd (d 16) (fmul (d 15) (fadd (d 14) (fmul (d 13) (hermC3 d ym1 y0 y1 y2) f) (hermC2 d ym1 y0 y1 y2)) f)
        (hermC1 d ym1 y1))
      f)
    y0

/-- DLRDL (R172). -/
def execDlrdl (ld : LReg) (u : Fin Config.ndl) (s : State) : Result :=
  s.whenInit (.dlrdl ld u)
    (s.mapL ld fun i => lin (s.at i) (s.tapv u i 0) (s.tapv u i 1) s.dl[u].fdelay[i])

/-- DLRDH (R174). -/
def execDlrdh (ld : LReg) (u : Fin Config.ndl) (s : State) : Result :=
  s.whenInit (.dlrdh ld u)
    (s.mapL ld fun i => herm (s.at i) (s.tapv u i (-1)) (s.tapv u i 0) (s.tapv u i 1) (s.tapv u i 2) s.dl[u].fdelay[i])

/-! Cursor commands. -/

/-- DLADV (R178). -/
def execDladv (u : Fin Config.ndl) (s : State) : Result :=
  s.whenInit (.dladv u) (s.setDl u { s.dl[u] with id := ringAdvance s.par.dllog[u] s.dl[u].id 1 })

/-- DLADVX (R179). -/
def execDladvx (rs : XReg) (u : Fin Config.ndl) (s : State) : Result :=
  s.whenInit (.dladvx rs u)
    (s.setDl u { s.dl[u] with id := ringAdvance s.par.dllog[u] s.dl[u].id (lowWord s.x[rs]) })

/-- DLSAV (R180). -/
def execDlsav (u : Fin Config.ndl) (s : State) : Result :=
  s.whenInit (.dlsav u) (s.setDl u { s.dl[u] with saved := s.dl[u].id })

/-- DLRST (R181). -/
def execDlrst (u : Fin Config.ndl) (s : State) : Result :=
  s.whenInit (.dlrst u) (s.setDl u { s.dl[u] with id := s.dl[u].saved })

end Sys2Proof.Machine
end

