-- ==== Sys2Proof/Machine/Filters.lean ====
section
/-! DEFINITION. The biquad bank, the one-pole low-pass and the DC blocker (42_sos_filters.md). Every lane is computed
from its own input, coefficients and state (R149); the order of operations is the order written. -/

namespace Sys2Proof.Machine

/-- `w` of a section step (R141); `d k` is the place of operation k. -/
def secW (d : Nat → Draw) (c : SosSection) (i : Lane) (x : Sample) : Sample :=
  fsub (d 3) (fsub (d 1) x (fmul (d 0) c.a1[i] c.s0[i])) (fmul (d 2) c.a2[i] c.s1[i])

/-- `y` of a section step (R141), from its `w`. With all coefficients 0, where 10_state.md R32 speaks of zeros, it is a
zero of either sign, or a NaN beside an infinity (log entry 30). -/
def secY (d : Nat → Draw) (c : SosSection) (i : Lane) (w : Sample) : Sample :=
  fadd (d 8) (fadd (d 6) (fmul (d 4) c.b0[i] w) (fmul (d 5) c.b1[i] c.s0[i])) (fmul (d 7) c.b2[i] c.s1[i])

/-- One section over all lanes: its cells (S0 the newer) and its output. -/
def secStep (d : Lane → Nat → Draw) (n : Nat) (c : SosSection) (v : Lanes) : SosSection × Lanes :=
  ({ c with
      s1 := onLanes n c.s1 fun i => c.s0[i]
      s0 := onLanes n c.s0 fun i => secW (d i) c i v[i] },
   onLanes n v fun i => secY (d i) c i (secW (d i) c i v[i]))

/-- Sections 0 to `k - 1` in order, each fed by the one before (R142). -/
def secRun (d : Nat → Lane → Nat → Draw) (n : Nat) (secs : Vector SosSection Config.nsecmax) (v : Lanes) :
    Nat → Vector SosSection Config.nsecmax × Lanes
  | 0 => (secs, v)
  | k + 1 =>
    let r := secRun d n secs v k
    if h : k < Config.nsecmax then
      let q := secStep (d k) n r.1[k] r.2
      (r.1.set k q.1, q.2)
    else r

/-- The run of a bank on an L register. -/
def State.sosRun (s : State) (ld : LReg) (k : Fin Config.nbank) : Vector SosSection Config.nsecmax × Lanes :=
  secRun (fun j i op => s.at i (16 * j + op)) s.par.n s.sos[k].sec s.l[ld] s.sos[k].nsect.val

/-- SOS (R142). -/
def execSos (ld : LReg) (k : Fin Config.nbank) (s : State) : Result :=
  s.whenInit (.sos ld k)
    { s.setL ld (s.sosRun ld k).2 with
      sos := s.sos.set k { s.sos[k] with sec := (s.sosRun ld k).1 } }

/-- The new state, and output, of a one-pole low-pass in lane i (R146). The corner A = 0 holds the state but for the sign
of a zero and for infinities, by the pseudocode, which is followed (log entry 30). -/
def State.lp1Out (s : State) (ld : LReg) (k : Fin Config.nlp) (i : Lane) : Sample :=
  fadd (s.at i 2) s.lp1[k].s[i] (fmul (s.at i 1) s.lp1[k].a[i] (fsub (s.at i 0) s.l[ld][i] s.lp1[k].s[i]))

/-- LP1 (R146). -/
def execLp1 (ld : LReg) (k : Fin Config.nlp) (s : State) : Result :=
  s.whenInit (.lp1 ld k)
    { s.mapL ld (s.lp1Out ld k) with
      lp1 := s.lp1.set k { s.lp1[k] with s := onLanes s.par.n s.lp1[k].s (s.lp1Out ld k) } }

/-- The output of a DC blocker in lane i (R148). The corner R = 0 gives the first difference but for the sign of a zero and
for infinities, by the pseudocode, which is followed (log entry 30). -/
def State.dcbOut (s : State) (ld : LReg) (k : Fin Config.ndc) (i : Lane) : Sample :=
  fadd (s.at i 2) (fsub (s.at i 0) s.l[ld][i] s.dcb[k].x1[i]) (fmul (s.at i 1) s.dcb[k].r[i] s.dcb[k].y1[i])

/-- DCB (R148). -/
def execDcb (ld : LReg) (k : Fin Config.ndc) (s : State) : Result :=
  s.whenInit (.dcb ld k)
    { s.mapL ld (s.dcbOut ld k) with
      dcb := s.dcb.set k { s.dcb[k] with
        x1 := onLanes s.par.n s.dcb[k].x1 fun i => s.l[ld][i]
        y1 := onLanes s.par.n s.dcb[k].y1 (s.dcbOut ld k) } }

end Sys2Proof.Machine
end

