-- ==== Sys2Proof/Machine/LaneOps.lean ====
section
/-! DEFINITION. Lane arithmetic, ramped parameters, tree sum and decimator (45_lane_ramp_sum_decim.md). -/

namespace Sys2Proof.Machine

/-- LMOV (R210), bit for bit. -/
def execLmov (ld ls : LReg) (s : State) : Result := .next (s.mapL ld fun i => s.l[ls][i])

/-- LLI (R211). -/
def execLli (ld : LReg) (imm : BitVec 16) (s : State) : Result := .next (s.mapL ld fun _ => immSample imm)

/-- LADD (R212). -/
def execLadd (ld la lb : LReg) (s : State) : Result :=
  .next (s.mapL ld fun i => fadd (s.at i 0) s.l[la][i] s.l[lb][i])

/-- LSUB (R213). -/
def execLsub (ld la lb : LReg) (s : State) : Result :=
  .next (s.mapL ld fun i => fsub (s.at i 0) s.l[la][i] s.l[lb][i])

/-- LMUL (R214). -/
def execLmul (ld la lb : LReg) (s : State) : Result :=
  .next (s.mapL ld fun i => fmul (s.at i 0) s.l[la][i] s.l[lb][i])

/-- LMAC (R215): two roundings, not fused. -/
def execLmac (ld la lb : LReg) (s : State) : Result :=
  .next (s.mapL ld fun i => fadd (s.at i 1) s.l[ld][i] (fmul (s.at i 0) s.l[la][i] s.l[lb][i]))

/-- LSPLAT (R216). -/
def execLsplat (ld : LReg) (rs : XReg) (s : State) : Result := .next (s.mapL ld fun _ => lowWord s.x[rs])

/-- LXCVT (R217). -/
def execLxcvt (ld : LReg) (rs : XReg) (sh : BitVec 6) (s : State) : Result :=
  .next (s.mapL ld fun i => fmul (s.at i 0) (i2f s.x[rs].toInt) (pow2neg sh.toNat))

/-- LINS (R218): a lane that does not exist takes cause 4. -/
def execLins (ld : LReg) (rs : XReg) (k : Lane) (s : State) : Result :=
  if k.val < s.par.n then .next (s.setL ld (s.l[ld].set k (lowWord s.x[rs])))
  else .next (s.raise .index (encode (.lins ld rs k)))

/-- LEXT (R219): a lane that does not exist takes cause 4. -/
def execLext (rd : XReg) (ls : LReg) (k : Lane) (s : State) : Result :=
  if k.val < s.par.n then .next (s.setX rd (zextWord s.l[ls][k]))
  else .next (s.raise .index (encode (.lext rd ls k)))

/-- The new value of a ramped parameter in lane i (R224). -/
def State.ramped (s : State) (k : Fin Config.nprm) (i : Lane) : Sample :=
  fadd (s.at i 0) s.prm[k].val[i] s.prm[k].inc[i]

/-- PRAMP (R224): the increment is added first and the new value returned. -/
def execPramp (ld : LReg) (k : Fin Config.nprm) (s : State) : Result :=
  s.whenInit (.pramp ld k)
    { s.mapL ld (s.ramped k) with
      prm := s.prm.set k { s.prm[k] with val := onLanes s.par.n s.prm[k].val (s.ramped k) } }

/-- PEND (R226): INC is zeroed, VAL left. -/
def execPend (k : Fin Config.nprm) (s : State) : Result :=
  s.whenInit (.pend k)
    { s with prm := s.prm.set k { s.prm[k] with inc := onLanes s.par.n s.prm[k].inc fun _ => 0 } }

/-! The tree sum (R228). -/

/-- One stride of a channel's loop: lane base + i gets the sum with lane base + i + stride, for i < stride. -/
def treeStep (d : Nat → Nat → Draw) (base stride : Nat) (v : Lanes) : Lanes :=
  Vector.ofFn fun i =>
    if h : base ≤ i.val ∧ i.val < base + stride ∧ i.val + stride < 8 then
      fadd (d i.val stride) v[i] (v[i.val + stride]'h.2.2)
    else v[i]

/-- The strides `stride`, stride / 2, ..., 1, at most `fuel` of them. -/
def treeSum (d : Nat → Nat → Draw) (base : Nat) : Nat → Nat → Lanes → Lanes
  | 0, _, v => v
  | fuel + 1, stride, v =>
    if stride = 0 then v else treeSum d base fuel (stride / 2) (treeStep d base stride v)

/-- The channels 0 to `chs - 1`, of `g` lanes each. -/
def treeChannels (d : Nat → Nat → Draw) (g : Nat) (v : Lanes) : Nat → Lanes
  | 0 => v
  | chs + 1 => treeSum d (chs * g) 8 (g / 2) (treeChannels d g v chs)

/-- LSUMT (R228): G = N / NCH lanes per channel. -/
def execLsumt (ld : LReg) (s : State) : Result :=
  .next (s.setL ld (treeChannels s.at (s.par.n / s.par.nch) s.l[ld] s.par.nch))

/-! The decimator (R231). -/

/-- The next position in the decimation period. -/
def State.nextDeccnt (s : State) : Word := if s.deccnt + 1 = s.decm then 0 else s.deccnt + 1

/-- DECIM (R231): the first sample of each period is kept and scaled by M, the others are zero-filled. -/
def execDecim (ld : LReg) (s : State) : Result :=
  s.whenInit (.decim ld)
    { s.mapL ld (fun i => if s.deccnt = 0 then fmul (s.at i 0) s.l[ld][i] (i2f s.decm.toNat) else 0) with
      deccnt := s.nextDeccnt }

end Sys2Proof.Machine
end

