-- ==== Sys2Proof/Machine/Scalar.lean ====
section
/-! DEFINITION. The scalar integer commands and the oscillators (41_timebase.md). All arithmetic is on 64-bit
two's-complement values modulo 2^64 (R129). -/

namespace Sys2Proof.Machine

/-- XLI (R114). -/
def execXli (rd : XReg) (imm : BitVec 16) (s : State) : Result := .next (s.setX rd (immSext imm))

/-- XSLI (R115). -/
def execXsli (rd : XReg) (imm : BitVec 16) (s : State) : Result :=
  .next (s.setX rd (sll s.x[rd] 16 ||| immZext imm))

/-- XMOV (R116). -/
def execXmov (rd rs : XReg) (s : State) : Result := .next (s.setX rd s.x[rs])

/-- XADD (R117). -/
def execXadd (rd ra rb : XReg) (s : State) : Result := .next (s.setX rd (s.x[ra] + s.x[rb]))

/-- XSUB (R118). -/
def execXsub (rd ra rb : XReg) (s : State) : Result := .next (s.setX rd (s.x[ra] - s.x[rb]))

/-- XSRAI (R119). -/
def execXsrai (rd rs : XReg) (sh : BitVec 6) (s : State) : Result := .next (s.setX rd (sra s.x[rs] sh.toNat))

/-- XSLLI (R120). -/
def execXslli (rd rs : XReg) (sh : BitVec 6) (s : State) : Result := .next (s.setX rd (sll s.x[rs] sh.toNat))

/-- `compare(x, y)` (R112): the sign of the 64-bit difference, formed by negating `y` and adding. -/
def compare64 (x y : XWord) : Bool := decide (0 < (x + (~~~y + 1)).toInt)

/-- `le(x, y)` (00_scope.md R10). -/
def le64 (x y : XWord) : Bool := !compare64 x y

/-- VCMP (R121). -/
def execVcmp (rd ra rb : XReg) (s : State) : Result := .next (s.setX rd (boolX (compare64 s.x[ra] s.x[rb])))

/-! The oscillators. U = 2^30 (R110). -/

/-- `wrap(s)` (R113). -/
def wrapPhase (v : XWord) : XWord := (v.setWidth 32).signExtend 64

/-- `para(p)` (R123): p (2U - |p|) / 2^30, rounded toward minus infinity. -/
def paraWave (p : Int) : Int := p * (2 ^ 31 - (p.natAbs : Int)) / 2 ^ 30

/-- `tri(p)` (R125). -/
def triWave (p : Int) : Int :=
  if 2 ^ 30 < p then 2 ^ 31 - p else if p < -2 ^ 30 then -2 ^ 31 - p else p

/-- `advance(freq)` (R122): the phase moves first, the waveform is taken at the new phase. -/
def State.oscillate (s : State) (rd rs : XReg) (k : Fin Config.nosc) (wave : Int → Int) : State :=
  let p := wrapPhase (s.ph[k] + s.x[rs])
  { s with ph := s.ph.set k p, x := s.x.set rd (BitVec.ofInt 64 (wave p.toInt)) }

/-- PLFO (R124). -/
def execPlfo (rd rs : XReg) (k : Fin Config.nosc) (s : State) : Result :=
  s.whenInit (.plfo rd rs k) (s.oscillate rd rs k paraWave)

/-- TLFO (R126). -/
def execTlfo (rd rs : XReg) (k : Fin Config.nosc) (s : State) : Result :=
  s.whenInit (.tlfo rd rs k) (s.oscillate rd rs k triWave)

end Sys2Proof.Machine
end

