-- ==== Sys2Proof/Machine/CfgMap.lean ====
section
/-! DEFINITION. The CFG space (20_memory.md R70 to R75): its words by name, the map from addresses to names, the
value of a word, and its writing with the legalisation of its row (10_state.md R28 to R43). -/

namespace Sys2Proof.Machine

/-- A mapped CFG word, by the name its row gives it. `hi` selects the high word of a 64-bit pair (R45). Arrays of
one unit are numbered in the order of their row: SOS B0, B1, B2, A1, A2, S0, S1; AP A1, A2, IK; EQ B0, B1, B2, A1,
A2, KEQ; tap history YM1, Y0, Y1, Y2, AAS. -/
inductive CfgWord where
  | hwid
  | hwcfg
  | status
  | faultinfo
  | decm
  | deccnt
  | tmode
  | tctl
  | spdsh
  | aacoef
  | fastth
  | nw (b : Fin 2)
  | cur
  | fcnt
  | tspeed (hi : Bool)
  | speed (hi : Bool)
  | xwrite (hi : Bool)
  | tapNread (t : Fin 2)
  | tapDir (t : Fin 2)
  | tapBuf (t : Fin 2)
  | tapFrac (t : Fin 2)
  | tapPbs (t : Fin 2)
  | tapXread (t : Fin 2) (hi : Bool)
  | tapXrevstop (t : Fin 2) (hi : Bool)
  | tapPrevn (t : Fin 2)
  | tapPrevf (t : Fin 2)
  | tapHist (t c : Fin 2) (q : Fin 5)
  | ph (k : Fin Config.nosc) (hi : Bool)
  | lcgState (i : Lane)
  | lcgSeed (i : Lane)
  | lreg (r : LReg) (i : Lane)
  | xreg (j : XReg) (hi : Bool)
  | dlId (u : Fin Config.ndl)
  | dlSaved (u : Fin Config.ndl)
  | dlLogsize (u : Fin Config.ndl)
  | dlIdelay (u : Fin Config.ndl) (i : Lane)
  | dlFdelay (u : Fin Config.ndl) (i : Lane)
  | prmVal (p : Fin Config.nprm) (i : Lane)
  | prmInc (p : Fin Config.nprm) (i : Lane)
  | lp1A (k : Fin Config.nlp) (i : Lane)
  | lp1S (k : Fin Config.nlp) (i : Lane)
  | dcbR (k : Fin Config.ndc) (i : Lane)
  | dcbX1 (k : Fin Config.ndc) (i : Lane)
  | dcbY1 (k : Fin Config.ndc) (i : Lane)
  | apNstage (u : Fin Config.nap)
  | apApid (u : Fin Config.nap)
  | apArr (u : Fin Config.nap) (q : Fin 3) (i : Lane)
  | eqEqid
  | eqArr (q : Fin 6) (i : Lane)
  | sosArr (b : Fin Config.nbank) (j : Fin Config.nsecmax) (q : Fin 7) (i : Lane)
  | sosNsect (b : Fin Config.nbank)
  deriving DecidableEq, Repr

/-! The address map (R75). -/

/-- A lane word at address `x`: mapped when its lane exists (R75: "addresses whose i ≥ N ... are unmapped"). -/
def laneWord (p : Params) (x : Nat) (f : Lane → CfgWord) : Option CfgWord :=
  if x % 8 < p.n then some (f (Fin.ofNat 8 x)) else none

/-- 0x0000 to 0x000F (R28, R29). -/
def globalWord (x : Nat) : Option CfgWord :=
  match x with
  | 0 => some .hwid
  | 1 => some .hwcfg
  | 2 => some .status
  | 3 => some .faultinfo
  | 4 => some .decm
  | 5 => some .deccnt
  | _ => none

/-- Offsets of the tape scalars from 0x0010 (R41). -/
def tapeWord (x : Nat) : Option CfgWord :=
  match x with
  | 0x0 => some .tmode
  | 0x1 => some .tctl
  | 0x2 => some .spdsh
  | 0x3 => some .aacoef
  | 0x4 => some .fastth
  | 0x5 => some (.nw 0)
  | 0x6 => some .cur
  | 0x7 => some .fcnt
  | 0x8 => some (.tspeed false)
  | 0x9 => some (.tspeed true)
  | 0xA => some (.speed false)
  | 0xB => some (.speed true)
  | 0xC => some (.xwrite false)
  | 0xD => some (.xwrite true)
  | 0xE => some (.nw 1)
  | _ => none

/-- Offsets of a tap's words (R43). -/
def tapWord (t : Fin 2) (x : Nat) : Option CfgWord :=
  match x with
  | 0x0 => some (.tapNread t)
  | 0x1 => some (.tapDir t)
  | 0x2 => some (.tapBuf t)
  | 0x3 => some (.tapFrac t)
  | 0x4 => some (.tapPbs t)
  | 0x6 => some (.tapXread t false)
  | 0x7 => some (.tapXread t true)
  | 0x8 => some (.tapXrevstop t false)
  | 0x9 => some (.tapXrevstop t true)
  | 0xA => some (.tapPrevn t)
  | 0xB => some (.tapPrevf t)
  | _ => none

/-- A tap's history from 0x0040 (R43): channel c at 8 c, mapped when c < NCH. -/
def histWord (p : Params) (x : Nat) : Option CfgWord :=
  if h : x % 8 < 5 then
    if x / 8 % 2 < p.nch then some (.tapHist (Fin.ofNat 2 (x / 16)) (Fin.ofNat 2 (x / 8)) ⟨x % 8, h⟩) else none
  else none

/-- A delay line's words (R35), by their offset in the line's 0x20 words. -/
def dlWord (p : Params) (u : Fin Config.ndl) (x : Nat) : Option CfgWord :=
  if x = 0 then some (.dlId u)
  else if x = 1 then some (.dlSaved u)
  else if x = 2 then some (.dlLogsize u)
  else if x / 8 = 1 then laneWord p x (.dlIdelay u)
  else if x / 8 = 2 then laneWord p x (.dlFdelay u)
  else none

/-- A DC blocker's words (R34), by their offset in its 0x20 words. -/
def dcbWord (p : Params) (k : Fin Config.ndc) (x : Nat) : Option CfgWord :=
  if x / 8 = 0 then laneWord p x (.dcbR k)
  else if x / 8 = 1 then laneWord p x (.dcbX1 k)
  else if x / 8 = 2 then laneWord p x (.dcbY1 k)
  else none

/-- A cascade's words (R38), by their offset in its 0x40 words. -/
def apWord (p : Params) (u : Fin Config.nap) (x : Nat) : Option CfgWord :=
  if x = 0 then some (.apNstage u)
  else if x = 1 then some (.apApid u)
  else if x / 8 = 1 then laneWord p x (.apArr u 0)
  else if x / 8 = 2 then laneWord p x (.apArr u 1)
  else if x / 8 = 3 then laneWord p x (.apArr u 2)
  else none

/-- The EQ's words (R39), by their offset from 0x0380. -/
def eqWord (p : Params) (x : Nat) : Option CfgWord :=
  if x = 0 then some .eqEqid
  else if h : 1 ≤ x / 8 ∧ x / 8 ≤ 6 then laneWord p x (.eqArr ⟨x / 8 - 1, by omega⟩)
  else none

/-- An SOS bank's words (R32), by their offset in the bank's 0x200 words. -/
def sosWord (p : Params) (b : Fin Config.nbank) (x : Nat) : Option CfgWord :=
  if x = 0x1F0 then some (.sosNsect b)
  else if h : x / 0x40 < 5 ∧ x % 0x40 / 8 < 7 then laneWord p x (.sosArr b ⟨x / 0x40, h.1⟩ ⟨x % 0x40 / 8, h.2⟩)
  else none

/-- The map R75: the word an address names, `none` where the address is unmapped. -/
def cfgWord (p : Params) (a : BitVec 16) : Option CfgWord :=
  let x := a.toNat
  if x < 0x10 then globalWord x
  else if x < 0x20 then tapeWord (x - 0x10)
  else if x < 0x40 then tapWord (Fin.ofNat 2 ((x - 0x20) / 0x10)) (x % 0x10)
  else if x < 0x60 then histWord p (x - 0x40)
  else if x < 0x68 then some (.ph (Fin.ofNat 4 ((x - 0x60) / 2)) (x % 2 == 1))
  else if x < 0x70 then none
  else if x < 0x78 then laneWord p x .lcgState
  else if x < 0x80 then laneWord p x .lcgSeed
  else if x < 0xC0 then laneWord p x (.lreg (Fin.ofNat 8 ((x - 0x80) / 8)))
  else if x < 0xE0 then some (.xreg (Fin.ofNat 16 ((x - 0xC0) / 2)) (x % 2 == 1))
  else if x < 0x100 then none
  else if x < 0x180 then dlWord p (Fin.ofNat 4 ((x - 0x100) / 0x20)) (x % 0x20)
  else if x < 0x200 then none
  else if x < 0x280 then
    if x % 0x10 < 8 then laneWord p x (.prmVal (Fin.ofNat 8 ((x - 0x200) / 0x10)))
    else laneWord p x (.prmInc (Fin.ofNat 8 ((x - 0x200) / 0x10)))
  else if x < 0x2C0 then
    if x % 0x10 < 8 then laneWord p x (.lp1A (Fin.ofNat 4 ((x - 0x280) / 0x10)))
    else laneWord p x (.lp1S (Fin.ofNat 4 ((x - 0x280) / 0x10)))
  else if x < 0x300 then dcbWord p (Fin.ofNat 2 ((x - 0x2C0) / 0x20)) (x % 0x20)
  else if x < 0x380 then apWord p (Fin.ofNat 2 ((x - 0x300) / 0x40)) (x % 0x40)
  else if x < 0x3C0 then eqWord p (x - 0x380)
  else if x < 0x1000 then none
  else if x < 0x1800 then sosWord p (Fin.ofNat 4 ((x - 0x1000) / 0x200)) (x % 0x200)
  else none

/-- 1 for the high word of a pair. -/
def hiBit (hi : Bool) : Nat := if hi then 1 else 0

/-- The address of a word, from the base and stride its row gives (10_state.md R28 to R43). -/
def CfgWord.addr : CfgWord → Nat
  | .hwid => 0x0000
  | .hwcfg => 0x0001
  | .status => 0x0002
  | .faultinfo => 0x0003
  | .decm => 0x0004
  | .deccnt => 0x0005
  | .tmode => 0x0010
  | .tctl => 0x0011
  | .spdsh => 0x0012
  | .aacoef => 0x0013
  | .fastth => 0x0014
  | .nw b => if b = 0 then 0x0015 else 0x001E
  | .cur => 0x0016
  | .fcnt => 0x0017
  | .tspeed hi => 0x0018 + hiBit hi
  | .speed hi => 0x001A + hiBit hi
  | .xwrite hi => 0x001C + hiBit hi
  | .tapNread t => 0x0020 + 0x10 * t.val
  | .tapDir t => 0x0020 + 0x10 * t.val + 1
  | .tapBuf t => 0x0020 + 0x10 * t.val + 2
  | .tapFrac t => 0x0020 + 0x10 * t.val + 3
  | .tapPbs t => 0x0020 + 0x10 * t.val + 4
  | .tapXread t hi => 0x0020 + 0x10 * t.val + 6 + hiBit hi
  | .tapXrevstop t hi => 0x0020 + 0x10 * t.val + 8 + hiBit hi
  | .tapPrevn t => 0x0020 + 0x10 * t.val + 0xA
  | .tapPrevf t => 0x0020 + 0x10 * t.val + 0xB
  | .tapHist t c q => 0x0040 + 0x10 * t.val + 8 * c.val + q.val
  | .ph k hi => 0x0060 + 2 * k.val + hiBit hi
  | .lcgState i => 0x0070 + i.val
  | .lcgSeed i => 0x0078 + i.val
  | .lreg r i => 0x0080 + 8 * r.val + i.val
  | .xreg j hi => 0x00C0 + 2 * j.val + hiBit hi
  | .dlId u => 0x0100 + 0x20 * u.val
  | .dlSaved u => 0x0100 + 0x20 * u.val + 1
  | .dlLogsize u => 0x0100 + 0x20 * u.val + 2
  | .dlIdelay u i => 0x0100 + 0x20 * u.val + 8 + i.val
  | .dlFdelay u i => 0x0100 + 0x20 * u.val + 0x10 + i.val
  | .prmVal p i => 0x0200 + 0x10 * p.val + i.val
  | .prmInc p i => 0x0200 + 0x10 * p.val + 8 + i.val
  | .lp1A k i => 0x0280 + 0x10 * k.val + i.val
  | .lp1S k i => 0x0280 + 0x10 * k.val + 8 + i.val
  | .dcbR k i => 0x02C0 + 0x20 * k.val + i.val
  | .dcbX1 k i => 0x02C0 + 0x20 * k.val + 8 + i.val
  | .dcbY1 k i => 0x02C0 + 0x20 * k.val + 0x10 + i.val
  | .apNstage u => 0x0300 + 0x40 * u.val
  | .apApid u => 0x0300 + 0x40 * u.val + 1
  | .apArr u q i => 0x0300 + 0x40 * u.val + 8 * (q.val + 1) + i.val
  | .eqEqid => 0x0380
  | .eqArr q i => 0x0380 + 8 * (q.val + 1) + i.val
  | .sosArr b j q i => 0x1000 + 0x200 * b.val + 0x40 * j.val + 8 * q.val + i.val
  | .sosNsect b => 0x1000 + 0x200 * b.val + 0x1F0

/-- The word exists in a core with these parameters: its lane is below N, its channel below NCH (R75). -/
def CfgWord.present (p : Params) : CfgWord → Bool
  | .tapHist _ c _ => decide (c.val < p.nch)
  | .lcgState i | .lcgSeed i | .lreg _ i | .dlIdelay _ i | .dlFdelay _ i => decide (i.val < p.n)
  | .prmVal _ i | .prmInc _ i | .lp1A _ i | .lp1S _ i => decide (i.val < p.n)
  | .dcbR _ i | .dcbX1 _ i | .dcbY1 _ i | .apArr _ _ i | .eqArr _ i | .sosArr _ _ _ i => decide (i.val < p.n)
  | .hwid | .hwcfg | .status | .faultinfo | .decm | .deccnt | .tmode | .tctl | .spdsh | .aacoef | .fastth => true
  | .nw _ | .cur | .fcnt | .tspeed _ | .speed _ | .xwrite _ => true
  | .tapNread _ | .tapDir _ | .tapBuf _ | .tapFrac _ | .tapPbs _ | .tapXread _ _ | .tapXrevstop _ _ => true
  | .tapPrevn _ | .tapPrevf _ | .ph _ _ | .xreg _ _ | .dlId _ | .dlSaved _ | .dlLogsize _ => true
  | .apNstage _ | .apApid _ | .eqEqid | .sosNsect _ => true

/-- RW words; the others are RO (R30 and the access column of each row). -/
def CfgWord.writable : CfgWord → Bool
  | .hwid | .hwcfg | .status | .faultinfo | .tmode | .cur | .fcnt => false
  | .tapPbs _ | .tapPrevn _ | .tapPrevf _ | .tapHist _ _ _ | .dlLogsize _ => false
  | .decm | .deccnt | .tctl | .spdsh | .aacoef | .fastth | .nw _ | .tspeed _ | .speed _ | .xwrite _ => true
  | .tapNread _ | .tapDir _ | .tapBuf _ | .tapFrac _ | .tapXread _ _ | .tapXrevstop _ _ => true
  | .ph _ _ | .lcgState _ | .lcgSeed _ | .lreg _ _ | .xreg _ _ => true
  | .dlId _ | .dlSaved _ | .dlIdelay _ _ | .dlFdelay _ _ | .prmVal _ _ | .prmInc _ _ => true
  | .lp1A _ _ | .lp1S _ _ | .dcbR _ _ | .dcbX1 _ _ | .dcbY1 _ _ => true
  | .apNstage _ | .apApid _ | .apArr _ _ _ | .eqEqid | .eqArr _ _ | .sosArr _ _ _ _ | .sosNsect _ => true

/-! The value of a word. -/

/-- HWCFG (R29): N, NCH, log2(U), NOSC. -/
def hwcfgWord (p : Params) : Word :=
  0#16 ++ BitVec.ofNat 4 Config.nosc ++ BitVec.ofNat 6 Config.logU ++ BitVec.ofNat 2 p.nch ++ BitVec.ofNat 4 p.n

/-- The arrays of a section, in the order of R32. -/
def SosSection.arr (c : SosSection) : Fin 7 → Lanes
  | 0 => c.b0
  | 1 => c.b1
  | 2 => c.b2
  | 3 => c.a1
  | 4 => c.a2
  | 5 => c.s0
  | 6 => c.s1

/-- Replace one array of a section. -/
def SosSection.setArr (c : SosSection) (q : Fin 7) (v : Lanes) : SosSection :=
  match q with
  | 0 => { c with b0 := v }
  | 1 => { c with b1 := v }
  | 2 => { c with b2 := v }
  | 3 => { c with a1 := v }
  | 4 => { c with a2 := v }
  | 5 => { c with s0 := v }
  | 6 => { c with s1 := v }

/-- The arrays of a cascade: A1, A2, IK (R38). -/
def Cascade.arr (c : Cascade) : Fin 3 → Lanes
  | 0 => c.a1
  | 1 => c.a2
  | 2 => c.ik

/-- Replace one array of a cascade. -/
def Cascade.setArr (c : Cascade) (q : Fin 3) (v : Lanes) : Cascade :=
  match q with
  | 0 => { c with a1 := v }
  | 1 => { c with a2 := v }
  | 2 => { c with ik := v }

/-- The arrays of the EQ: B0, B1, B2, A1, A2, KEQ (R39). -/
def EqUnit.arr (c : EqUnit) : Fin 6 → Lanes
  | 0 => c.b0
  | 1 => c.b1
  | 2 => c.b2
  | 3 => c.a1
  | 4 => c.a2
  | 5 => c.keq

/-- Replace one array of the EQ. -/
def EqUnit.setArr (c : EqUnit) (q : Fin 6) (v : Lanes) : EqUnit :=
  match q with
  | 0 => { c with b0 := v }
  | 1 => { c with b1 := v }
  | 2 => { c with b2 := v }
  | 3 => { c with a1 := v }
  | 4 => { c with a2 := v }
  | 5 => { c with keq := v }

/-- A tap's history: YM1, Y0, Y1, Y2, AAS (R43). -/
def Tap.hist (t : Tap) : Fin 5 → Vector Sample 2
  | 0 => t.ym1
  | 1 => t.y0
  | 2 => t.y1
  | 3 => t.y2
  | 4 => t.aas

/-- The value CfgRead gives for a word; fields narrower than 32 bits are zero-extended (R30). -/
def State.word (s : State) : CfgWord → Word
  | .hwid => 0x41455448
  | .hwcfg => hwcfgWord s.par
  | .status => s.status.word
  | .faultinfo => s.faultinfo
  | .decm => s.decm
  | .deccnt => s.deccnt
  | .tmode => s.tape.mode.code.setWidth 32
  | .tctl => BitVec.ofNat 32 s.tape.wbuf.val
  | .spdsh => s.tape.spdsh.setWidth 32
  | .aacoef => s.tape.aacoef
  | .fastth => s.tape.fastth
  | .nw b => s.tape.bufs[b].nw
  | .cur => BitVec.ofNat 32 s.tape.cur.val
  | .fcnt => s.tape.fcnt.setWidth 32
  | .tspeed hi => getHalf s.tape.tspeed hi
  | .speed hi => getHalf s.tape.speed hi
  | .xwrite hi => getHalf s.tape.xwrite hi
  | .tapNread t => s.tape.taps[t].nread
  | .tapDir t => s.tape.taps[t].dir.bit.setWidth 32
  | .tapBuf t => BitVec.ofNat 32 s.tape.taps[t].buf.val
  | .tapFrac t => s.tape.taps[t].frac
  | .tapPbs t => s.tape.taps[t].pbs
  | .tapXread t hi => getHalf s.tape.taps[t].xread hi
  | .tapXrevstop t hi => getHalf s.tape.taps[t].xrevstop hi
  | .tapPrevn t => s.tape.taps[t].prevn
  | .tapPrevf t => s.tape.taps[t].prevf
  | .tapHist t c q => (s.tape.taps[t].hist q)[c]
  | .ph k hi => getHalf s.ph[k] hi
  | .lcgState i => s.lcg.state[i]
  | .lcgSeed i => s.lcg.seed[i]
  | .lreg r i => s.l[r][i]
  | .xreg j hi => getHalf s.x[j] hi
  | .dlId u => s.dl[u].id
  | .dlSaved u => s.dl[u].saved
  | .dlLogsize u => BitVec.ofNat 32 s.par.dllog[u]
  | .dlIdelay u i => s.dl[u].idelay[i]
  | .dlFdelay u i => s.dl[u].fdelay[i]
  | .prmVal p i => s.prm[p].val[i]
  | .prmInc p i => s.prm[p].inc[i]
  | .lp1A k i => s.lp1[k].a[i]
  | .lp1S k i => s.lp1[k].s[i]
  | .dcbR k i => s.dcb[k].r[i]
  | .dcbX1 k i => s.dcb[k].x1[i]
  | .dcbY1 k i => s.dcb[k].y1[i]
  | .apNstage u => BitVec.ofNat 32 s.ap[u].nstage.val
  | .apApid u => s.ap[u].apid
  | .apArr u q i => (s.ap[u].arr q)[i]
  | .eqEqid => s.eq.eqid
  | .eqArr q i => (s.eq.arr q)[i]
  | .sosArr b j q i => (s.sos[b].sec[j].arr q)[i]
  | .sosNsect b => BitVec.ofNat 32 s.sos[b].nsect.val

/-! Writing a word. -/

/-- DECM: a write of 0 stores 1, and DECCNT is set to 0 when it is no longer below DECM (R29). -/
def State.storeDecm (s : State) (v : Word) : State :=
  let m := if v = 0 then 1 else v
  { s with decm := m, deccnt := if s.deccnt < m then s.deccnt else 0 }

/-- Replace one tap. -/
def State.setTap (s : State) (t : Fin 2) (p : Tap) : State :=
  { s with tape := { s.tape with taps := s.tape.taps.set t p } }

/-- A written word limited to 0 to `n - 1` with n > 0: a larger one stores the largest (R32, R38; log entry 15). -/
def clampTo (n : Nat) [NeZero n] (v : Word) : Fin n := Fin.ofNat n (min v.toNat (n - 1))

/-- CfgWrite to an RW word, with the legalisation of its row (R73); an RO word stores nothing. -/
def State.storeWord (s : State) (wd : CfgWord) (v : Word) : State :=
  match wd with
  | .hwid | .hwcfg | .status | .faultinfo | .tmode | .cur | .fcnt => s
  | .tapPbs _ | .tapPrevn _ | .tapPrevf _ | .tapHist _ _ _ | .dlLogsize _ => s
  | .decm => s.storeDecm v
  | .deccnt => { s with deccnt := if v < s.decm then v else 0 }
  | .tctl => { s with tape := { s.tape with wbuf := bufOfWord v } }
  | .spdsh => { s with tape := { s.tape with spdsh := v.setWidth 6 } }
  | .aacoef => { s with tape := { s.tape with aacoef := v } }
  | .fastth => { s with tape := { s.tape with fastth := v } }
  | .nw b => { s with tape := { s.tape with bufs := s.tape.bufs.set b { s.tape.bufs[b] with nw := v &&& ringMask s.par.tlog } } }
  | .tspeed hi => { s with tape := { s.tape with tspeed := setHalf s.tape.tspeed hi v } }
  | .speed hi => { s with tape := { s.tape with speed := setHalf s.tape.speed hi v } }
  | .xwrite hi => { s with tape := { s.tape with xwrite := setHalf s.tape.xwrite hi v } }
  | .tapNread t => s.setTap t { s.tape.taps[t] with nread := v &&& ringMask s.par.tlog }
  | .tapDir t => s.setTap t { s.tape.taps[t] with dir := Dir.ofWord v }
  | .tapBuf t => s.setTap t { s.tape.taps[t] with buf := bufOfWord v }
  | .tapFrac t => s.setTap t { s.tape.taps[t] with frac := v }
  | .tapXread t hi => s.setTap t { s.tape.taps[t] with xread := setHalf s.tape.taps[t].xread hi v }
  | .tapXrevstop t hi => s.setTap t { s.tape.taps[t] with xrevstop := setHalf s.tape.taps[t].xrevstop hi v }
  -- R31: the low word stores its sign extension, a write to the high word is ignored (log entry 16)
  | .ph k hi => if hi then s else { s with ph := s.ph.set k (v.signExtend 64) }
  | .lcgState i => { s with lcg := { s.lcg with state := s.lcg.state.set i v } }
  | .lcgSeed i => { s with lcg := { s.lcg with seed := s.lcg.seed.set i v } }
  | .lreg r i => s.setL r (s.l[r].set i v)
  | .xreg j hi => s.setX j (setHalf s.x[j] hi v)
  | .dlId u => { s with dl := s.dl.set u { s.dl[u] with id := v &&& ringMask s.par.dllog[u] } }
  | .dlSaved u => { s with dl := s.dl.set u { s.dl[u] with saved := v &&& ringMask s.par.dllog[u] } }
  | .dlIdelay u i => { s with dl := s.dl.set u { s.dl[u] with idelay := s.dl[u].idelay.set i v } }
  | .dlFdelay u i => { s with dl := s.dl.set u { s.dl[u] with fdelay := s.dl[u].fdelay.set i v } }
  | .prmVal p i => { s with prm := s.prm.set p { s.prm[p] with val := s.prm[p].val.set i v } }
  | .prmInc p i => { s with prm := s.prm.set p { s.prm[p] with inc := s.prm[p].inc.set i v } }
  | .lp1A k i => { s with lp1 := s.lp1.set k { s.lp1[k] with a := s.lp1[k].a.set i v } }
  | .lp1S k i => { s with lp1 := s.lp1.set k { s.lp1[k] with s := s.lp1[k].s.set i v } }
  | .dcbR k i => { s with dcb := s.dcb.set k { s.dcb[k] with r := s.dcb[k].r.set i v } }
  | .dcbX1 k i => { s with dcb := s.dcb.set k { s.dcb[k] with x1 := s.dcb[k].x1.set i v } }
  | .dcbY1 k i => { s with dcb := s.dcb.set k { s.dcb[k] with y1 := s.dcb[k].y1.set i v } }
  | .apNstage u => { s with ap := s.ap.set u { s.ap[u] with nstage := clampTo 129 v } }
  | .apApid u => { s with ap := s.ap.set u { s.ap[u] with apid := v &&& ringMask s.par.aplog } }
  | .apArr u q i => { s with ap := s.ap.set u (s.ap[u].setArr q ((s.ap[u].arr q).set i v)) }
  | .eqEqid => { s with eq := { s.eq with eqid := v &&& ringMask s.par.eqlog } }
  | .eqArr q i => { s with eq := s.eq.setArr q ((s.eq.arr q).set i v) }
  | .sosArr b j q i =>
    { s with sos := s.sos.set b { s.sos[b] with
        sec := s.sos[b].sec.set j (s.sos[b].sec[j].setArr q ((s.sos[b].sec[j].arr q).set i v)) } }
  | .sosNsect b => { s with sos := s.sos.set b { s.sos[b] with nsect := clampTo 6 v } }

/-! The access primitives. -/

/-- `CfgRead(a)` (R72): an unmapped address reads 0; no side effect. -/
def State.cfgRead (s : State) (a : BitVec 16) : Word :=
  match cfgWord s.par a with
  | none => 0
  | some wd => s.word wd

/-- `CfgWrite(a, v)` (R73): RO and unmapped addresses store nothing. -/
def State.cfgWrite (s : State) (a : BitVec 16) (v : Word) : State :=
  match cfgWord s.par a with
  | none => s
  | some wd => if wd.writable then s.storeWord wd v else s

end Sys2Proof.Machine
end

