-- ==== Sys2Proof/Machine/System.lean ====
section
/-! DEFINITION. The system commands NOP, INIT, CFGR, CFGW (47_system.md). -/

namespace Sys2Proof.Machine

/-! What INIT does to each unit: list (a) of R282 is cleared, list (b) kept. -/

def SosSection.afterInit (c : SosSection) : SosSection := { c with s0 := Lanes.zero, s1 := Lanes.zero }

def SosBank.afterInit (b : SosBank) : SosBank := { b with sec := Vector.ofFn fun j => b.sec[j].afterInit }

def DelayLine.afterInit (d : DelayLine) : DelayLine := { d with buf := [], id := 0, saved := 0 }

def Cascade.afterInit (c : Cascade) : Cascade := { c with apid := 0, stages := Vector.replicate _ ApStage.reset }

/-- TCTL, SPDSH, AACOEF, FASTTH, TSPEED and SPEED are kept. -/
def Tape.afterInit (t : Tape) : Tape :=
  { t with
    mode := .normal, cur := 0, fcnt := 0, xwrite := 0
    bufs := Vector.replicate _ TapeBuf.reset, taps := Vector.replicate _ Tap.reset }

/-- The effect of INIT (R282). -/
def State.afterInit (s : State) : State :=
  { s with
    status := s.status.afterInit
    deccnt := 0
    ph     := Vector.replicate _ 0
    sos    := Vector.ofFn fun b => s.sos[b].afterInit
    lp1    := Vector.ofFn fun k => { s.lp1[k] with s := Lanes.zero }
    dcb    := Vector.ofFn fun k => { s.dcb[k] with x1 := Lanes.zero, y1 := Lanes.zero }
    dl     := Vector.ofFn fun u => s.dl[u].afterInit
    lcg    := { s.lcg with state := Lanes.zero }
    ap     := Vector.ofFn fun u => s.ap[u].afterInit
    eq     := { s.eq with eqid := 0, eqm := [] }
    prm    := Vector.ofFn fun p => { s.prm[p] with inc := Lanes.zero }
    tape   := s.tape.afterInit }

/-- NOP (R280): no state changes. -/
def execNop (s : State) : Result := .next s

/-- INIT (R282). -/
def execInit (s : State) : Result := .next s.afterInit

/-- CFGR (R284): an unmapped address takes cause 5. -/
def execCfgr (rd rb : XReg) (off : BitVec 12) (s : State) : Result :=
  match cfgWord s.par (cfgAddress s.x[rb] off) with
  | none => .next (s.raise .cfgaddr (encode (.cfgr rd rb off)))
  | some wd => .next (s.setX rd (zextWord (s.word wd)))

/-- CFGW (R286): an unmapped or read-only address takes cause 5. -/
def execCfgw (rs rb : XReg) (off : BitVec 12) (s : State) : Result :=
  match cfgWord s.par (cfgAddress s.x[rb] off) with
  | none => .next (s.raise .cfgaddr (encode (.cfgw rs rb off)))
  | some wd =>
    if wd.writable then .next (s.storeWord wd (lowWord s.x[rs]))
    else .next (s.raise .cfgaddr (encode (.cfgw rs rb off)))

end Sys2Proof.Machine
end

