-- ==== Sys2Proof/Machine/Transport.lean ====
section
/-! DEFINITION. The tape transport (46_tape.md). Virtual times are 64-bit and compared by `compare64` only (R112). -/

namespace Sys2Proof.Machine

/-- DELAYUNIT (R241). -/
def delayUnit : XWord := 0x2000000000000000#64

/-- The new SPEED (R244): one step of the smoother, rounded toward minus infinity. -/
def State.nextSpeed (s : State) : XWord := s.tape.speed + sra (s.tape.tspeed - s.tape.speed) s.tape.spdsh.toNat

/-- TSPD (R244). -/
def execTspd (rd : XReg) (s : State) : Result :=
  s.whenInit (.tspd rd) { s.setX rd s.nextSpeed with tape := { s.tape with speed := s.nextSpeed } }

/-- A buffer with one frame written at its cursor, at time `v`, and the cursor advanced (R246). -/
def TapeBuf.put (b : TapeBuf) (tlog nch : Nat) (v : XWord) (frame : Lanes) : TapeBuf where
  tv := Memory.write b.tv b.nw.toNat v
  ts := Vector.ofFn fun c =>
    if c.val < nch then Memory.write b.ts[c] b.nw.toNat (frame[c.val]'(by omega)) else b.ts[c]
  nw := ringAdvance tlog b.nw 1

/-- TWR (R246): the time stored is the time after the add. -/
def execTwr (ls : LReg) (rs : XReg) (s : State) : Result :=
  s.whenInit (.twr ls rs)
    { s with tape := { s.tape with
        xwrite := s.tape.xwrite + s.x[rs]
        bufs := s.tape.bufs.set s.tape.wbuf
          (s.tape.bufs[s.tape.wbuf].put s.par.tlog s.par.nch (s.tape.xwrite + s.x[rs]) s.l[ls]) } }

/-! The search (R252). `times p` is A(p), position 0 the oldest entry and `top` the newest. -/

/-- What a search returns: the position, `under`, `over`. -/
structure Hit where
  pos     : Nat
  isUnder : Bool
  isOver  : Bool
  deriving DecidableEq, Repr

/-- The binary search: A(lo) ≤ target < A(hi) is narrowed to hi = lo + 1. `hi - lo` rounds suffice. -/
def bisect (times : Nat → XWord) (target : XWord) : Nat → Nat → Nat → Nat
  | 0, lo, _ => lo
  | fuel + 1, lo, hi =>
    if hi - lo > 1 then
      if le64 (times (lo + (hi - lo) / 2)) target then bisect times target fuel (lo + (hi - lo) / 2) hi
      else bisect times target fuel lo (lo + (hi - lo) / 2)
    else lo

/-- Towards newer, the stride doubling from the last probe. Each round raises `lo`, so `top + 1` rounds suffice and
the fuel never runs out (log entry 25). -/
def seekUp (times : Nat → XWord) (target : XWord) (top : Nat) : Nat → Nat → Nat → Hit
  | 0, _, _ => ⟨top, false, true⟩
  | fuel + 1, lo, stride =>
    if lo = top then ⟨top, false, true⟩
    else if le64 (times (min (lo + stride) top)) target then
      seekUp times target top fuel (min (lo + stride) top) (2 * stride)
    else ⟨bisect times target (min (lo + stride) top - lo) lo (min (lo + stride) top), false, false⟩

/-- Towards older, the stride doubling from the last probe. Each round lowers `hi`. -/
def seekDown (times : Nat → XWord) (target : XWord) : Nat → Nat → Nat → Hit
  | 0, _, _ => ⟨0, true, false⟩
  | fuel + 1, hi, stride =>
    if hi = 0 then ⟨0, true, false⟩
    else if le64 (times (hi - stride)) target then
      ⟨bisect times target (hi - (hi - stride)) (hi - stride) hi, false, false⟩
    else seekDown times target fuel (hi - stride) (2 * stride)

/-- `search` from position `p0`. -/
def searchFrom (times : Nat → XWord) (target : XWord) (top p0 : Nat) : Hit :=
  if le64 (times p0) target then seekUp times target top (top + 1) p0 1
  else seekDown times target (p0 + 1) p0 1

/-- A(p) of buffer `b` (R252). -/
def TapeBuf.timeAt (b : TapeBuf) (tlog : Nat) (p : Nat) : XWord :=
  Memory.read b.tv (ringAdvance tlog b.nw (BitVec.ofNat 32 p)).toNat

/-! TSEEK (R250). -/

/-- The target of a tap: one delay unit behind XWRITE forwards, `step` back from XREAD backwards. -/
def State.seekTarget (s : State) (t : Fin 2) (step : XWord) : XWord :=
  match s.tape.taps[t].dir with
  | .forwards => s.tape.xwrite - delayUnit
  | .backwards => s.tape.taps[t].xread - step

/-- The search of a tap's buffer from its previous slot. -/
def State.seekHit (s : State) (t : Fin 2) (step : XWord) : Hit :=
  searchFrom (s.tape.bufs[s.tape.taps[t].buf].timeAt s.par.tlog) (s.seekTarget t step) (2 ^ s.par.tlog - 1)
    (ringSlot s.par.tlog s.tape.taps[t].nread s.tape.bufs[s.tape.taps[t].buf].nw).toNat

/-- The slot `n` a tap is moved to. -/
def State.seekSlot (s : State) (t : Fin 2) (step : XWord) : Word :=
  ringAdvance s.par.tlog s.tape.bufs[s.tape.taps[t].buf].nw (BitVec.ofNat 32 (s.seekHit t step).pos)

/-- FRAC: the position of the target between the slot's time and the next; +0.0 when parked. -/
def State.seekFrac (s : State) (t : Fin 2) (step : XWord) : Sample :=
  let b := s.tape.bufs[s.tape.taps[t].buf]
  let n := s.seekSlot t step
  if (s.seekHit t step).isUnder || (s.seekHit t step).isOver then 0
  else
    fdiv (s.at 0 0) (i2f (s.seekTarget t step - Memory.read b.tv n.toNat).toInt)
      (i2f (Memory.read b.tv (ringAdvance s.par.tlog n 1).toNat - Memory.read b.tv n.toNat).toInt)

/-- The TLOG-bit value read as two's complement (`signed_TLOG`). -/
def signedLog (tlog : Nat) (v : Word) : Int :=
  if v.toNat < 2 ^ (tlog - 1) then v.toNat else (v.toNat : Int) - 2 ^ tlog

/-- PBS: the distance in slots the tap moved. -/
def State.seekPbs (s : State) (t : Fin 2) (step : XWord) : Sample :=
  fabs (fadd (s.at 0 2)
    (i2f (signedLog s.par.tlog (ringSlot s.par.tlog (s.seekSlot t step) s.tape.taps[t].nread)))
    (fsub (s.at 0 1) (s.seekFrac t step) s.tape.taps[t].frac))

/-- The samples of the slot `e` away from `n`, per channel that exists. -/
def State.histAt (s : State) (t : Fin 2) (old : Vector Sample 2) (n e : Word) : Vector Sample 2 :=
  onChannels s.par.nch old fun c =>
    Memory.read s.tape.bufs[s.tape.taps[t].buf].ts[c] (ringAdvance s.par.tlog n e).toNat

/-- The tap after TSEEK; the history is in write order whatever the direction. -/
def State.seekTap (s : State) (t : Fin 2) (step : XWord) : Tap :=
  let p := s.tape.taps[t]
  let n := s.seekSlot t step
  { p with
    prevn := p.nread
    prevf := p.frac
    xread := s.seekTarget t step
    nread := n
    frac := s.seekFrac t step
    pbs := s.seekPbs t step
    ym1 := s.histAt t p.ym1 n (-1)
    y0 := s.histAt t p.y0 n 0
    y1 := s.histAt t p.y1 n 1
    y2 := s.histAt t p.y2 n 2 }

/-- REVSTOP's condition (R257): a backward tap past its stop time. -/
def State.seekPastStop (s : State) (t : Fin 2) (step : XWord) : Bool :=
  s.tape.taps[t].dir == .backwards && compare64 s.tape.taps[t].xrevstop (s.seekTarget t step)

/-- TSEEK (R250, R254, R256, R257). -/
def execTseek (rs : XReg) (t : Fin 2) (s : State) : Result :=
  s.whenInit (.tseek rs t)
    { s.setTap t (s.seekTap t s.x[rs]) with
      status := s.status.afterSeek (s.seekHit t s.x[rs]).isUnder (s.seekHit t s.x[rs]).isOver
        (s.seekPastStop t s.x[rs]) (t == s.tape.cur) (fgt (s.seekPbs t s.x[rs]) s.tape.fastth) }

/-! TRD (R260). -/

/-- The interpolated sample of channel c. -/
def State.tapHerm (s : State) (t c : Fin 2) : Sample :=
  let p := s.tape.taps[t]
  herm (s.at c) p.ym1[c] p.y0[c] p.y1[c] p.y2[c] p.frac

/-- The new AAS, and output, of channel c: smoothed while the tap is fast, the sample itself otherwise. -/
def State.tapOut (s : State) (t c : Fin 2) : Sample :=
  let p := s.tape.taps[t]
  if fgt p.pbs s.tape.fastth then
    fadd (s.at c 21) p.aas[c] (fmul (s.at c 20) s.tape.aacoef (fsub (s.at c 19) (s.tapHerm t c) p.aas[c]))
  else s.tapHerm t c

/-- `f c` in lane c for the channels that exist, `g i` in the other lanes (R260, R266). -/
def channelLanes (nch : Nat) (f : Fin 2 → Sample) (g : Lane → Sample) (i : Lane) : Sample :=
  if h : i.val < nch ∧ i.val < 2 then f ⟨i.val, h.2⟩ else g i

/-- TRD (R260): the tap does not move. -/
def execTrd (ld : LReg) (t : Fin 2) (s : State) : Result :=
  s.whenInit (.trd ld t)
    ((s.mapL ld (channelLanes s.par.nch (s.tapOut t) fun _ => 0)).setTap t
      { s.tape.taps[t] with aas := onChannels s.par.nch s.tape.taps[t].aas (s.tapOut t) })

/-! Reversal and modes (R262 to R264). -/

/-- The new tap of a reversal: one delay unit behind XWRITE, at the newest slot of the written buffer. -/
def State.newTap (s : State) : Tap :=
  let n := ringSlot s.par.tlog s.tape.bufs[s.tape.wbuf].nw 1
  { dir := s.tape.taps[s.tape.cur].dir.flip
    buf := s.tape.wbuf
    nread := n
    prevn := n
    xread := s.tape.xwrite - delayUnit
    xrevstop := s.tape.xwrite - delayUnit - delayUnit
    frac := 0
    prevf := 0
    pbs := 0
    ym1 := Vector.replicate _ 0
    y0 := Vector.replicate _ 0
    y1 := Vector.replicate _ 0
    y2 := Vector.replicate _ 0
    aas := Vector.replicate _ 0 }

/-- A reversal; during a fade it is dropped and REVDROP set (R263). -/
def State.reversed (s : State) : State :=
  if s.status.fading then { s with status := { s.status with revdrop := true } }
  else
    { s with
      status := { s.status with fading := true }
      tape := { s.tape with
        taps := s.tape.taps.set (otherTap s.tape.cur) s.newTap
        cur := otherTap s.tape.cur
        fcnt := 0 } }

/-- TREV (R262). -/
def execTrev (s : State) : Result := s.whenInit .trev s.reversed

/-- The direction a mode wants: BACK_FORTH keeps the current one (R264). -/
def wantedDir (m : Mode) (cur : Dir) : Dir :=
  match m with
  | .normal => .forwards
  | .reverse => .backwards
  | .backForth => cur

/-- TMODE (R264): the mode is written even when the reversal is dropped. -/
def execTmode (m : Mode) (s : State) : Result :=
  let s' := { s with tape := { s.tape with mode := m } }
  s.whenInit (.tmode m)
    (if wantedDir m s.tape.taps[s.tape.cur].dir = s.tape.taps[s.tape.cur].dir then s' else s'.reversed)

/-! TMIX (R266). -/

/-- The blended sample of channel c: old + g (new - old). The corner g = 0 (R266) gives the old sample but for the sign of
a zero and for infinities, by the pseudocode, which is followed (log entry 30). -/
def State.mixed (s : State) (lcur lold : LReg) (c : Fin 2) : Sample :=
  let new := s.l[lcur][c.val]
  let old := s.l[lold][c.val]
  fadd (s.at c 2) old (fmul (s.at c 1) (s.par.fadewin.getD s.tape.fcnt.toNat 0) (fsub (s.at c 0) new old))

/-- One sample of the fade counted; the 256th ends it. -/
def State.fadeCounted (s : State) : State :=
  if s.tape.fcnt + 1 = 256 then
    { s with status := { s.status with fading := false }, tape := { s.tape with fcnt := 0 } }
  else { s with tape := { s.tape with fcnt := s.tape.fcnt + 1 } }

/-- The state after TMIX, INITD being set. -/
def State.afterMix (s : State) (ld lcur lold : LReg) : State :=
  if s.status.fading then
    (s.mapL ld (channelLanes s.par.nch (s.mixed lcur lold) fun i => s.l[lcur][i])).fadeCounted
  else s.mapL ld fun i => s.l[lcur][i]

/-- TMIX (R266). -/
def execTmix (ld lcur lold : LReg) (s : State) : Result :=
  s.whenInit (.tmix ld lcur lold) (s.afterMix ld lcur lold)

end Sys2Proof.Machine
end

