-- ==== Sys2Proof/Machine/Dispatch.lean ====
section
/-! DEFINITION. What each command does: one meaning per row of the table R96. -/

namespace Sys2Proof.Machine

def exec (i : Instr) (s : State) : Host.Outcome State Fault Refusal :=
  match i with
  -- system
  | .nop => Sys2Proof.Machine.execNop s
  | .init => Sys2Proof.Machine.execInit s
  | .cfgw rs rb off => Sys2Proof.Machine.execCfgw rs rb off s
  | .cfgr rd rb off => Sys2Proof.Machine.execCfgr rd rb off s
  -- scalar and timebase
  | .xli rd imm => Sys2Proof.Machine.execXli rd imm s
  | .xsli rd imm => Sys2Proof.Machine.execXsli rd imm s
  | .xmov rd rs => Sys2Proof.Machine.execXmov rd rs s
  | .xadd rd ra rb => Sys2Proof.Machine.execXadd rd ra rb s
  | .xsub rd ra rb => Sys2Proof.Machine.execXsub rd ra rb s
  | .xsrai rd rs sh => Sys2Proof.Machine.execXsrai rd rs sh s
  | .xslli rd rs sh => Sys2Proof.Machine.execXslli rd rs sh s
  | .vcmp rd ra rb => Sys2Proof.Machine.execVcmp rd ra rb s
  | .plfo rd rs k => Sys2Proof.Machine.execPlfo rd rs k s
  | .tlfo rd rs k => Sys2Proof.Machine.execTlfo rd rs k s
  -- lane, ramp, sum, decimate
  | .lmov ld ls => Sys2Proof.Machine.execLmov ld ls s
  | .lli ld imm => Sys2Proof.Machine.execLli ld imm s
  | .ladd ld la lb => Sys2Proof.Machine.execLadd ld la lb s
  | .lsub ld la lb => Sys2Proof.Machine.execLsub ld la lb s
  | .lmul ld la lb => Sys2Proof.Machine.execLmul ld la lb s
  | .lmac ld la lb => Sys2Proof.Machine.execLmac ld la lb s
  | .lsplat ld rs => Sys2Proof.Machine.execLsplat ld rs s
  | .lxcvt ld rs sh => Sys2Proof.Machine.execLxcvt ld rs sh s
  | .lins ld rs k => Sys2Proof.Machine.execLins ld rs k s
  | .lext rd ls k => Sys2Proof.Machine.execLext rd ls k s
  | .pramp ld k => Sys2Proof.Machine.execPramp ld k s
  | .pend k => Sys2Proof.Machine.execPend k s
  | .lsumt ld => Sys2Proof.Machine.execLsumt ld s
  | .decim ld => Sys2Proof.Machine.execDecim ld s
  -- filters
  | .sos ld k => Sys2Proof.Machine.execSos ld k s
  | .lp1 ld k => Sys2Proof.Machine.execLp1 ld k s
  | .dcb ld k => Sys2Proof.Machine.execDcb ld k s
  -- delay line
  | .dlmod ld => Sys2Proof.Machine.execDlmod ld s
  | .dlset ls u => Sys2Proof.Machine.execDlset ls u s
  | .dlwr ls u => Sys2Proof.Machine.execDlwr ls u s
  | .dlrdh ld u => Sys2Proof.Machine.execDlrdh ld u s
  | .dlrdl ld u => Sys2Proof.Machine.execDlrdl ld u s
  | .dladv u => Sys2Proof.Machine.execDladv u s
  | .dladvx rs u => Sys2Proof.Machine.execDladvx rs u s
  | .dlsav u => Sys2Proof.Machine.execDlsav u s
  | .dlrst u => Sys2Proof.Machine.execDlrst u s
  -- allpass and EQ
  | .apc ld u => Sys2Proof.Machine.execApc ld u s
  | .eqn ld => Sys2Proof.Machine.execEqn ld s
  -- tape
  | .tspd rd => Sys2Proof.Machine.execTspd rd s
  | .twr ls rs => Sys2Proof.Machine.execTwr ls rs s
  | .tseek rs t => Sys2Proof.Machine.execTseek rs t s
  | .trd ld t => Sys2Proof.Machine.execTrd ld t s
  | .trev => Sys2Proof.Machine.execTrev s
  | .tmode m => Sys2Proof.Machine.execTmode m s
  | .tmix ld lcur lold => Sys2Proof.Machine.execTmix ld lcur lold s

end Sys2Proof.Machine
end

