-- ==== Sys2Proof/Machine/Transact.lean ====
section
/-! DEFINITION. Serving one host transaction (00_scope.md R12) and fetching the next. -/

namespace Sys2Proof.Machine

/-- Issue(w) (R12 a). The command index advances by 1 in every case, also for a faulting command and for a word that a
halted core discards (10_state.md R27, 95_test_vectors.md program 5; log entry 9). A halted core discards the word
without decoding it and without any other change (60_exceptions.md R305; log entry 8). Otherwise a malformed word takes
its fault (R303), and any other is executed, with a fresh stamp for its free NaN values (log entry 5). -/
def State.issue (s : State) (w : Word) : Result :=
  if s.halted then .next { s with index := s.index + 1 }
  else
    match decode s.par.n w with
    | .ok i => exec i { s with index := s.index + 1, draw := s.draw + 1 }
    | .error e => .next ({ s with index := s.index + 1 }.raise (causeOf e) w)

/-- HostRead(a) (R12 b), allowed in any state: the host gets CfgRead(a). -/
def State.hostRead (s : State) (a : BitVec 16) : State := { s with lastRead := some (s.cfgRead a) }

/-- HostWrite(a, v) (R12 c), discarded when halted (R305). -/
def State.hostWrite (s : State) (a : BitVec 16) (v : Word) : State := if s.halted then s else s.cfgWrite a v

/-- One transaction. -/
def State.serve (s : State) (t : HostTx) : Result :=
  match t with
  | .issue w => s.issue w
  | .hostRead a => .next (s.hostRead a)
  | .hostWrite a v => .next (s.hostWrite a v)
  | .reset => .next s.afterReset

/-- The oldest pending transaction is taken and served; a core with none is idle and keeps its state
(70_reset_and_hazards.md R321, 60_exceptions.md R310; log entry 6). -/
def State.serveNext (s : State) : Result :=
  match s.inbox with
  | [] => .next s
  | t :: rest => { s with inbox := rest }.serve t

/-- The state with a command word put first among the pending transactions. -/
def State.pushIssue (s : State) (w : Word) : State := { s with inbox := .issue w :: s.inbox }

end Sys2Proof.Machine
end

