-- ==== Sys2Proof/Machine/Step.lean ====
section
/-! DEFINITION. One step of the machine: one host transaction (00_scope.md R11, R12). -/

namespace Sys2Proof.Machine

/-- One step. -/
def step (s : State) : Host.Outcome State Fault Refusal := s.serveNext

/-- `s` with the command whose bits are `w` handed to the core as its next transaction (log entry 7). -/
def State.withFetchWord (s : State) (nbits w : Nat) : State := s.pushIssue (BitVec.ofNat 32 (w % 2 ^ nbits))

end Sys2Proof.Machine
end

