-- ==== Sys2Proof/Safety.lean ====
section
/-! DEFINITION. The terms claims are stated in: legal parameters, the machine's invariant, what a command may change,
and the facts of the table R96 that are not in the decoder. -/

namespace Sys2Proof.Machine

/-! Legal parameters (00_scope.md R6). -/

/-- The value of a non-negative finite Sample in units of 2^-149. -/
def unitsOf (a : Sample) : Nat := signif a * 2 ^ (lsbExp a + 149).toNat

/-- Entry n of a fade window. -/
def fadeAt (w : List Sample) (n : Nat) : Sample := w.getD n 0

/-- The constraint of 46_tape.md R268: 256 finite Samples from +0.0 to 1.0, non-decreasing, and
|w[n] + w[255 - n] - 1| ≤ 1e-6 for n < 128. -/
def fadeLegal (w : List Sample) : Bool :=
  w.length == 256 && fadeAt w 0 == 0x00000000#32 && fadeAt w 255 == 0x3F800000#32
    && (List.range 256).all (fun n => isFinite (fadeAt w n) && !signBit (fadeAt w n))
    && (List.range 255).all (fun n => decide (unitsOf (fadeAt w n) ≤ unitsOf (fadeAt w (n + 1))))
    && (List.range 128).all fun n =>
      decide (1000000 * (unitsOf (fadeAt w n) + unitsOf (fadeAt w (255 - n))) ≤ 1000001 * 2 ^ 149)
        && decide (999999 * 2 ^ 149 ≤ 1000000 * (unitsOf (fadeAt w n) + unitsOf (fadeAt w (255 - n))))

/-- N is 1, 2, 4 or 8; NCH is 1 or 2 and divides N; a cursor fits a CFG word (log entry 25). -/
def Params.legal (p : Params) : Bool :=
  (p.n == 1 || p.n == 2 || p.n == 4 || p.n == 8) && (p.nch == 1 || p.nch == 2) && p.n % p.nch == 0
    && decide (∀ u : Fin 4, p.dllog[u] ≤ 32) && decide (p.aplog ≤ 32) && decide (p.eqlog ≤ 32) && decide (p.tlog ≤ 32)
    && fadeLegal p.fadewin

/-! The invariant. -/

/-- Every private memory is in canonical form. -/
def State.memoriesWf (s : State) : Prop :=
  (∀ u : Fin 4, Memory.wf s.dl[u].buf = true)
    ∧ (∀ u : Fin 2, ∀ j : Fin 128, Memory.wf s.ap[u].stages[j].m = true)
    ∧ Memory.wf s.eq.eqm = true
    ∧ (∀ b : Fin 2, Memory.wf s.tape.bufs[b].tv = true)
    ∧ ∀ b c : Fin 2, Memory.wf s.tape.bufs[b].ts[c] = true

/-- Every phase register holds a value in [-2U, 2U) (10_state.md R31). -/
def State.phasesInRange (s : State) : Prop :=
  ∀ k : Fin 4, -2 ^ 31 ≤ s.ph[k].toInt ∧ s.ph[k].toInt < 2 ^ 31

/-- DECM is not 0 and DECCNT is below it (10_state.md R29). -/
def State.decimOk (s : State) : Prop := s.decm ≠ 0 ∧ s.deccnt < s.decm

/-- A cursor of a ring of 2^log slots has no bit outside the mask. -/
def fitsRing (log : Nat) (c : Word) : Prop := c &&& ringMask log = c

/-- Every cursor and slot register fits its ring (10_state.md R35, R38, R39, R41, R43). -/
def State.cursorsFit (s : State) : Prop :=
  (∀ u : Fin 4, fitsRing s.par.dllog[u] s.dl[u].id ∧ fitsRing s.par.dllog[u] s.dl[u].saved)
    ∧ (∀ u : Fin 2, fitsRing s.par.aplog s.ap[u].apid)
    ∧ fitsRing s.par.eqlog s.eq.eqid
    ∧ (∀ b : Fin 2, fitsRing s.par.tlog s.tape.bufs[b].nw)
    ∧ ∀ t : Fin 2, fitsRing s.par.tlog s.tape.taps[t].nread ∧ fitsRing s.par.tlog s.tape.taps[t].prevn

/-- FCNT is below 256, and 0 while no fade runs (46_tape.md R261, R266). -/
def State.fadeOk (s : State) : Prop := s.tape.fcnt.toNat < 256 ∧ (s.status.fading = false → s.tape.fcnt = 0)

/-- The machine's invariant. -/
def State.Inv (s : State) : Prop :=
  s.memoriesWf ∧ s.phasesInRange ∧ s.decimOk ∧ s.cursorsFit ∧ s.fadeOk

/-! What a command may change. `t = { s with x := t.x }` says that every other piece of state, every private memory
among them, is what it was. -/

/-- Nothing but X[rd] differs. -/
def OnlyX (rd : XReg) (s t : State) : Prop := t = { s with x := t.x } ∧ ∀ r : XReg, r ≠ rd → t.x[r] = s.x[r]

/-- Of the L registers only L[ld] differs. (Positions at or above N are no lanes: log entry 18.) -/
def OnlyLanesOf (ld : LReg) (s t : State) : Prop := ∀ r : LReg, r ≠ ld → t.l[r] = s.l[r]

/-- Nothing but L[ld] differs. -/
def OnlyL (ld : LReg) (s t : State) : Prop := t = { s with l := t.l } ∧ OnlyLanesOf ld s t

/-- The command answers a next state in which X[rd] holds `v` and nothing else changed. -/
def AnswersX (i : Instr) (s : State) (rd : XReg) (v : XWord) : Prop :=
  ∃ t, exec i s = .next t ∧ t.x[rd] = v ∧ OnlyX rd s t

/-- The command answers a next state in which lane i of L[ld] holds `f i` for every i < N and nothing else changed. -/
def AnswersL (i : Instr) (s : State) (ld : LReg) (f : Lane → Sample) : Prop :=
  ∃ t, exec i s = .next t ∧ (∀ k : Lane, k.val < s.par.n → t.l[ld][k] = f k) ∧ OnlyL ld s t

/-- The command takes the fault `c` with the word `w` recorded, and nothing else changes (60_exceptions.md R303). -/
def TakesFault (i : Instr) (s : State) (c : Cause) (w : Word) : Prop :=
  exec i s = .next { s with status := { s.status with fault := some c }, faultinfo := w }

/-- The command takes cause 6 before the first INIT (47_system.md R283). -/
def NeedsInit (i : Instr) (s : State) : Prop := s.status.initd = false → TakesFault i s .noinit (encode i)

/-- The same command executed `k` times. -/
def execTimes (i : Instr) : Nat → State → Result
  | 0, s => .next s
  | k + 1, s =>
    match exec i s with
    | .next t => execTimes i k t
    | .fault e => .fault e
    | .refused e => .refused e

/-! The table R96 as spec/opcode_table.json lists it. -/

/-- One row: opcode, the bits that must be zero, the top bits of the L fields, the bound of imm12 if it is an index
(`none` where it is not, the core's N where the row says N), and whether the row needs INITD. -/
structure TableRow where
  op        : Nat
  zeroMask  : Word
  lregMask  : Word
  bound     : Option Nat
  needsInit : Bool
  deriving DecidableEq, Repr

/-- The rows of the system and scalar commands. -/
def tableX : List TableRow :=
  [⟨0x00, 0x00FFFFFF, 0, none, false⟩, ⟨0x01, 0x00FFFFFF, 0, none, false⟩, ⟨0x02, 0x0000F000, 0, none, false⟩,
   ⟨0x03, 0x0000F000, 0, none, false⟩, ⟨0x10, 0x000F0000, 0, none, false⟩, ⟨0x11, 0x000F0000, 0, none, false⟩,
   ⟨0x12, 0x0000FFFF, 0, none, false⟩, ⟨0x13, 0x00000FFF, 0, none, false⟩, ⟨0x14, 0x00000FFF, 0, none, false⟩,
   ⟨0x15, 0x0000FFC0, 0, none, false⟩, ⟨0x16, 0x0000FFC0, 0, none, false⟩, ⟨0x17, 0x00000FFF, 0, none, false⟩,
   ⟨0x18, 0x0000F000, 0, some 4, true⟩, ⟨0x19, 0x0000F000, 0, some 4, true⟩]

/-- The rows of the lane commands of a core with `n` lanes. -/
def tableL (n : Nat) : List TableRow :=
  [⟨0x20, 0x0000FFFF, 0x00880000, none, false⟩, ⟨0x21, 0x000F0000, 0x00800000, none, false⟩,
   ⟨0x22, 0x00000FFF, 0x00888000, none, false⟩, ⟨0x23, 0x00000FFF, 0x00888000, none, false⟩,
   ⟨0x24, 0x00000FFF, 0x00888000, none, false⟩, ⟨0x25, 0x00000FFF, 0x00888000, none, false⟩,
   ⟨0x26, 0x0000FFFF, 0x00800000, none, false⟩, ⟨0x27, 0x0000FFC0, 0x00800000, none, false⟩,
   ⟨0x28, 0x0000F000, 0x00800000, some n, false⟩, ⟨0x29, 0x0000F000, 0x00080000, some n, false⟩,
   ⟨0x2A, 0x000FF000, 0x00800000, some 8, true⟩, ⟨0x2B, 0x00FFF000, 0, some 8, true⟩,
   ⟨0x2C, 0x000FFFFF, 0x00800000, none, false⟩, ⟨0x2D, 0x000FFFFF, 0x00800000, none, true⟩]

/-- The rows of the filters, delay lines, allpass and EQ. -/
def tableF : List TableRow :=
  [⟨0x30, 0x000FF000, 0x00800000, some 4, true⟩, ⟨0x31, 0x000FF000, 0x00800000, some 4, true⟩,
   ⟨0x32, 0x000FF000, 0x00800000, some 2, true⟩, ⟨0x40, 0x000FFFFF, 0x00800000, none, true⟩,
   ⟨0x41, 0x000FF000, 0x00800000, some 4, true⟩, ⟨0x42, 0x000FF000, 0x00800000, some 4, true⟩,
   ⟨0x43, 0x000FF000, 0x00800000, some 4, true⟩, ⟨0x44, 0x000FF000, 0x00800000, some 4, true⟩,
   ⟨0x45, 0x00FFF000, 0, some 4, true⟩, ⟨0x46, 0x000FF000, 0, some 4, true⟩, ⟨0x47, 0x00FFF000, 0, some 4, true⟩,
   ⟨0x48, 0x00FFF000, 0, some 4, true⟩, ⟨0x50, 0x000FF000, 0x00800000, some 2, true⟩,
   ⟨0x51, 0x000FFFFF, 0x00800000, none, true⟩]

/-- The rows of the tape commands. -/
def tableT : List TableRow :=
  [⟨0x60, 0x000FFFFF, 0, none, true⟩, ⟨0x61, 0x0000FFFF, 0x00800000, none, true⟩, ⟨0x62, 0x00F0F000, 0, some 2, true⟩,
   ⟨0x63, 0x000FF000, 0x00800000, some 2, true⟩, ⟨0x64, 0x00FFFFFF, 0, none, true⟩,
   ⟨0x65, 0x00FFF000, 0, some 3, true⟩, ⟨0x66, 0x00000FFF, 0x00888000, none, true⟩]

/-- The table of a core with `n` lanes. -/
def opcodeTable (n : Nat) : List TableRow := tableX ++ tableL n ++ tableF ++ tableT

/-- The commands whose row needs INITD (30_encoding.md R96, 47_system.md R283). -/
def needsInit (i : Instr) : Bool :=
  (opcodeTable 8).any fun r => r.op == (fieldOp (encode i)).toNat && r.needsInit

/-- The fault a command word takes in a core that is not halted: the checks of 60_exceptions.md R304, in their order.
The numbers 0x02 and 0x03 are CFGW and CFGR. -/
def State.dueFault (s : State) (w : Word) : Option Cause :=
  match (opcodeTable s.par.n).find? fun r => r.op == (fieldOp w).toNat with
  | none => some .illop
  | some r =>
    let wd := cfgWord s.par (cfgAddress s.x[toX (fieldB w)] (fieldImm12 w))
    if w &&& r.zeroMask ≠ 0#32 then some .resvd
    else if w &&& r.lregMask ≠ 0#32 then some .lreg
    else if r.bound.any (fun b => decide (b ≤ (fieldImm12 w).toNat)) then some .index
    else if r.needsInit && !s.status.initd then some .noinit
    else if r.op = 0x02 ∧ wd.all (fun d => !d.writable) = true then some .cfgaddr
    else if r.op = 0x03 ∧ wd.isNone = true then some .cfgaddr
    else none

/-! The CFG space. -/

/-- The RO words (R30 and the access columns of 10_state.md R29, R35, R41, R43). -/
def CfgWord.IsReadOnly (wd : CfgWord) : Prop :=
  wd = .hwid ∨ wd = .hwcfg ∨ wd = .status ∨ wd = .faultinfo ∨ wd = .tmode ∨ wd = .cur ∨ wd = .fcnt
    ∨ (∃ t, wd = .tapPbs t) ∨ (∃ t, wd = .tapPrevn t) ∨ (∃ t, wd = .tapPrevf t) ∨ (∃ t c q, wd = .tapHist t c q)
    ∨ ∃ u, wd = .dlLogsize u

/-! What stands at each address of the table R75, in terms of the state that the commands use. -/

/-- CfgRead at the address `x`. -/
def State.cfgAt (s : State) (x : Nat) : Word := s.cfgRead (BitVec.ofNat 16 x)

/-- The 64-bit value at `x` and `x + 1`, the low word first (R45). -/
def State.cfgPairAt (s : State) (x : Nat) : XWord := s.cfgAt (x + 1) ++ s.cfgAt x

/-- 0x0000 to 0x0005 and the tape scalars (R28, R29, R41). -/
def State.MapsScalars (s : State) : Prop :=
  s.cfgAt 0x0000 = 0x41455448#32 ∧ s.cfgAt 0x0001 = hwcfgWord s.par ∧ s.cfgAt 0x0002 = s.status.word
    ∧ s.cfgAt 0x0003 = s.faultinfo ∧ s.cfgAt 0x0004 = s.decm ∧ s.cfgAt 0x0005 = s.deccnt
    ∧ s.cfgAt 0x0010 = (match s.tape.mode with | .normal => 0#32 | .backForth => 1#32 | .reverse => 2#32)
    ∧ s.cfgAt 0x0011 = BitVec.ofNat 32 s.tape.wbuf.val ∧ s.cfgAt 0x0012 = s.tape.spdsh.setWidth 32
    ∧ s.cfgAt 0x0013 = s.tape.aacoef ∧ s.cfgAt 0x0014 = s.tape.fastth
    ∧ s.cfgAt 0x0015 = s.tape.bufs[0].nw ∧ s.cfgAt 0x001E = s.tape.bufs[1].nw
    ∧ s.cfgAt 0x0016 = BitVec.ofNat 32 s.tape.cur.val ∧ s.cfgAt 0x0017 = s.tape.fcnt.setWidth 32
    ∧ s.cfgPairAt 0x0018 = s.tape.tspeed ∧ s.cfgPairAt 0x001A = s.tape.speed ∧ s.cfgPairAt 0x001C = s.tape.xwrite

/-- The two taps and their history (R43). -/
def State.MapsTaps (s : State) : Prop :=
  ∀ t : Fin 2,
    let b := 0x0020 + 0x10 * t.val
    let p := s.tape.taps[t]
    s.cfgAt b = p.nread ∧ s.cfgAt (b + 1) = (match p.dir with | .forwards => 0#32 | .backwards => 1#32)
      ∧ s.cfgAt (b + 2) = BitVec.ofNat 32 p.buf.val ∧ s.cfgAt (b + 3) = p.frac ∧ s.cfgAt (b + 4) = p.pbs
      ∧ s.cfgPairAt (b + 6) = p.xread ∧ s.cfgPairAt (b + 8) = p.xrevstop
      ∧ s.cfgAt (b + 0xA) = p.prevn ∧ s.cfgAt (b + 0xB) = p.prevf
      ∧ ∀ c : Fin 2, c.val < s.par.nch →
        let h := 0x0040 + 0x10 * t.val + 8 * c.val
        s.cfgAt h = p.ym1[c] ∧ s.cfgAt (h + 1) = p.y0[c] ∧ s.cfgAt (h + 2) = p.y1[c] ∧ s.cfgAt (h + 3) = p.y2[c]
          ∧ s.cfgAt (h + 4) = p.aas[c]

/-- The X and phase registers and the words of the units that are not per lane (R20, R31, R32, R35, R38, R39). -/
def State.MapsRegisters (s : State) : Prop :=
  (∀ k : Fin 4, s.cfgPairAt (0x0060 + 2 * k.val) = s.ph[k])
    ∧ (∀ j : XReg, s.cfgPairAt (0x00C0 + 2 * j.val) = s.x[j])
    ∧ (∀ u : Fin 4, s.cfgAt (0x0100 + 0x20 * u.val) = s.dl[u].id ∧ s.cfgAt (0x0101 + 0x20 * u.val) = s.dl[u].saved
        ∧ s.cfgAt (0x0102 + 0x20 * u.val) = BitVec.ofNat 32 s.par.dllog[u])
    ∧ (∀ u : Fin 2, s.cfgAt (0x0300 + 0x40 * u.val) = BitVec.ofNat 32 s.ap[u].nstage.val
        ∧ s.cfgAt (0x0301 + 0x40 * u.val) = s.ap[u].apid)
    ∧ s.cfgAt 0x0380 = s.eq.eqid
    ∧ ∀ b : Fin 4, s.cfgAt (0x11F0 + 0x200 * b.val) = BitVec.ofNat 32 s.sos[b].nsect.val

/-- Lane i of the L registers and of the units (R21, R32 to R35, R37 to R40). -/
def State.MapsLane (s : State) (i : Lane) : Prop :=
  s.cfgAt (0x0070 + i.val) = s.lcg.state[i] ∧ s.cfgAt (0x0078 + i.val) = s.lcg.seed[i]
    ∧ (∀ r : LReg, s.cfgAt (0x0080 + 8 * r.val + i.val) = s.l[r][i])
    ∧ (∀ u : Fin 4, s.cfgAt (0x0108 + 0x20 * u.val + i.val) = s.dl[u].idelay[i]
        ∧ s.cfgAt (0x0110 + 0x20 * u.val + i.val) = s.dl[u].fdelay[i])
    ∧ (∀ p : Fin 8, s.cfgAt (0x0200 + 0x10 * p.val + i.val) = s.prm[p].val[i]
        ∧ s.cfgAt (0x0208 + 0x10 * p.val + i.val) = s.prm[p].inc[i])
    ∧ (∀ k : Fin 4, s.cfgAt (0x0280 + 0x10 * k.val + i.val) = s.lp1[k].a[i]
        ∧ s.cfgAt (0x0288 + 0x10 * k.val + i.val) = s.lp1[k].s[i])
    ∧ (∀ k : Fin 2, s.cfgAt (0x02C0 + 0x20 * k.val + i.val) = s.dcb[k].r[i]
        ∧ s.cfgAt (0x02C8 + 0x20 * k.val + i.val) = s.dcb[k].x1[i]
        ∧ s.cfgAt (0x02D0 + 0x20 * k.val + i.val) = s.dcb[k].y1[i])
    ∧ (∀ u : Fin 2, s.cfgAt (0x0308 + 0x40 * u.val + i.val) = s.ap[u].a1[i]
        ∧ s.cfgAt (0x0310 + 0x40 * u.val + i.val) = s.ap[u].a2[i]
        ∧ s.cfgAt (0x0318 + 0x40 * u.val + i.val) = s.ap[u].ik[i])
    ∧ (s.cfgAt (0x0388 + i.val) = s.eq.b0[i] ∧ s.cfgAt (0x0390 + i.val) = s.eq.b1[i]
        ∧ s.cfgAt (0x0398 + i.val) = s.eq.b2[i] ∧ s.cfgAt (0x03A0 + i.val) = s.eq.a1[i]
        ∧ s.cfgAt (0x03A8 + i.val) = s.eq.a2[i] ∧ s.cfgAt (0x03B0 + i.val) = s.eq.keq[i])
    ∧ ∀ (b : Fin 4) (j : Fin 5),
        let x := 0x1000 + 0x200 * b.val + 0x40 * j.val + i.val
        let c := s.sos[b].sec[j]
        s.cfgAt x = c.b0[i] ∧ s.cfgAt (x + 0x08) = c.b1[i] ∧ s.cfgAt (x + 0x10) = c.b2[i]
          ∧ s.cfgAt (x + 0x18) = c.a1[i] ∧ s.cfgAt (x + 0x20) = c.a2[i]
          ∧ s.cfgAt (x + 0x28) = c.s0[i] ∧ s.cfgAt (x + 0x30) = c.s1[i]

/-- What a word reads after `v` was written to it: the legalisation of its row (10_state.md R29 to R43). -/
def State.legalised (s : State) (wd : CfgWord) (v : Word) : Word :=
  match wd with
  | .decm => if v = 0#32 then 1#32 else v
  | .deccnt => if v < s.decm then v else 0#32
  | .tctl | .tapDir _ | .tapBuf _ => v &&& 1#32
  | .spdsh => v &&& 63#32
  | .nw _ | .tapNread _ => v &&& ringMask s.par.tlog
  | .dlId u | .dlSaved u => v &&& ringMask s.par.dllog[u]
  | .apApid _ => v &&& ringMask s.par.aplog
  | .eqEqid => v &&& ringMask s.par.eqlog
  | .apNstage _ => if 128#32 < v then 128#32 else v
  | .sosNsect _ => if 5#32 < v then 5#32 else v
  | .ph k hi => if hi then s.word (.ph k true) else v
  | _ => v

/-- The words a write to `wd` may change beside `wd`: DECCNT for DECM (R73), and the high word of a phase register,
which holds the sign of the low one (R31). -/
def CfgWord.mayAlsoChange (wd : CfgWord) (other : CfgWord) : Bool :=
  match wd with
  | .decm => other == .deccnt
  | .ph k false => other == .ph k true
  | _ => false

/-- The private memories and cells (20_memory.md R71) are the same, and the model's own fields. -/
def SamePrivate (s t : State) : Prop :=
  (∀ u : Fin 4, t.dl[u].buf = s.dl[u].buf) ∧ (∀ u : Fin 2, t.ap[u].stages = s.ap[u].stages) ∧ t.eq.eqm = s.eq.eqm
    ∧ (∀ b : Fin 2, t.tape.bufs[b].tv = s.tape.bufs[b].tv ∧ t.tape.bufs[b].ts = s.tape.bufs[b].ts)
    ∧ t.par = s.par ∧ t.inbox = s.inbox ∧ t.index = s.index ∧ t.draw = s.draw ∧ t.lastRead = s.lastRead

/-! Reset and INIT. -/

/-- Every word of a private memory is 0. -/
def AllZero {w : Nat} (m : Memory w) : Prop := ∀ a, Memory.read m a = 0#w

/-- The state that INIT clears, list (a) of 47_system.md R282, is zero. -/
def State.Cleared (t : State) : Prop :=
  (∀ k : Fin 4, t.ph[k] = 0#64)
    ∧ (∀ (b : Fin 4) (j : Fin 5) (i : Lane), t.sos[b].sec[j].s0[i] = 0#32 ∧ t.sos[b].sec[j].s1[i] = 0#32)
    ∧ (∀ (k : Fin 4) (i : Lane), t.lp1[k].s[i] = 0#32)
    ∧ (∀ (k : Fin 2) (i : Lane), t.dcb[k].x1[i] = 0#32 ∧ t.dcb[k].y1[i] = 0#32)
    ∧ (∀ u : Fin 4, AllZero t.dl[u].buf ∧ t.dl[u].id = 0#32 ∧ t.dl[u].saved = 0#32)
    ∧ (∀ i : Lane, t.lcg.state[i] = 0#32)
    ∧ (∀ u : Fin 2, t.ap[u].apid = 0#32)
    ∧ (∀ (u : Fin 2) (j : Fin 128), AllZero t.ap[u].stages[j].m)
    ∧ (∀ (u : Fin 2) (j : Fin 128) (i : Lane),
        t.ap[u].stages[j].s1[i] = 0#32 ∧ t.ap[u].stages[j].s2[i] = 0#32)
    ∧ AllZero t.eq.eqm ∧ t.eq.eqid = 0#32
    ∧ (∀ (p : Fin 8) (i : Lane), t.prm[p].inc[i] = 0#32)
    ∧ t.deccnt = 0#32
    ∧ (∀ b : Fin 2, AllZero t.tape.bufs[b].tv ∧ t.tape.bufs[b].nw = 0#32)
    ∧ (∀ b c : Fin 2, AllZero t.tape.bufs[b].ts[c])
    ∧ t.tape.xwrite = 0#64 ∧ t.tape.mode = .normal ∧ t.tape.cur = 0 ∧ t.tape.fcnt = 0#9
    ∧ (∀ k : Fin 2, t.tape.taps[k].nread = 0#32 ∧ t.tape.taps[k].dir = .forwards ∧ t.tape.taps[k].buf = 0
        ∧ t.tape.taps[k].frac = 0#32 ∧ t.tape.taps[k].pbs = 0#32 ∧ t.tape.taps[k].xread = 0#64
        ∧ t.tape.taps[k].xrevstop = 0#64 ∧ t.tape.taps[k].prevn = 0#32 ∧ t.tape.taps[k].prevf = 0#32)
    ∧ (∀ k c : Fin 2, t.tape.taps[k].ym1[c] = 0#32 ∧ t.tape.taps[k].y0[c] = 0#32 ∧ t.tape.taps[k].y1[c] = 0#32
        ∧ t.tape.taps[k].y2[c] = 0#32 ∧ t.tape.taps[k].aas[c] = 0#32)
    ∧ t.status.fading = false ∧ t.status.fast = false ∧ t.status.revstop = false ∧ t.status.tapUnder = false
    ∧ t.status.tapOver = false ∧ t.status.revdrop = false

/-- The state that INIT keeps, list (b) of 47_system.md R282, is what it was; so are the model's own fields. -/
def State.Kept (s t : State) : Prop :=
  t.x = s.x ∧ t.l = s.l
    ∧ (∀ (b : Fin 4) (j : Fin 5), t.sos[b].sec[j].b0 = s.sos[b].sec[j].b0 ∧ t.sos[b].sec[j].b1 = s.sos[b].sec[j].b1
        ∧ t.sos[b].sec[j].b2 = s.sos[b].sec[j].b2 ∧ t.sos[b].sec[j].a1 = s.sos[b].sec[j].a1
        ∧ t.sos[b].sec[j].a2 = s.sos[b].sec[j].a2)
    ∧ (∀ b : Fin 4, t.sos[b].nsect = s.sos[b].nsect)
    ∧ (∀ k : Fin 4, t.lp1[k].a = s.lp1[k].a) ∧ (∀ k : Fin 2, t.dcb[k].r = s.dcb[k].r)
    ∧ (∀ u : Fin 2, t.ap[u].a1 = s.ap[u].a1 ∧ t.ap[u].a2 = s.ap[u].a2 ∧ t.ap[u].ik = s.ap[u].ik
        ∧ t.ap[u].nstage = s.ap[u].nstage)
    ∧ (t.eq.b0 = s.eq.b0 ∧ t.eq.b1 = s.eq.b1 ∧ t.eq.b2 = s.eq.b2 ∧ t.eq.a1 = s.eq.a1 ∧ t.eq.a2 = s.eq.a2
        ∧ t.eq.keq = s.eq.keq)
    ∧ (∀ u : Fin 4, t.dl[u].idelay = s.dl[u].idelay ∧ t.dl[u].fdelay = s.dl[u].fdelay)
    ∧ t.lcg.seed = s.lcg.seed ∧ (∀ p : Fin 8, t.prm[p].val = s.prm[p].val) ∧ t.decm = s.decm
    ∧ t.tape.wbuf = s.tape.wbuf ∧ t.tape.spdsh = s.tape.spdsh ∧ t.tape.aacoef = s.tape.aacoef
    ∧ t.tape.fastth = s.tape.fastth ∧ t.tape.tspeed = s.tape.tspeed ∧ t.tape.speed = s.tape.speed
    ∧ t.status.fault = s.status.fault ∧ t.faultinfo = s.faultinfo
    ∧ t.par = s.par ∧ t.inbox = s.inbox ∧ t.index = s.index ∧ t.draw = s.draw ∧ t.lastRead = s.lastRead

/-- The settings, which Reset clears and INIT keeps, at their reset values (70_reset_and_hazards.md R320). -/
def State.SettingsAtReset (t : State) : Prop :=
  (∀ r : XReg, t.x[r] = 0#64) ∧ (∀ (r : LReg) (i : Lane), t.l[r][i] = 0#32)
    ∧ t.status.word = 0#32 ∧ t.faultinfo = 0#32 ∧ t.decm = 1#32
    ∧ (∀ (b : Fin 4) (j : Fin 5) (q : Fin 7) (i : Lane), (t.sos[b].sec[j].arr q)[i] = 0#32)
    ∧ (∀ b : Fin 4, t.sos[b].nsect = 0)
    ∧ (∀ (k : Fin 4) (i : Lane), t.lp1[k].a[i] = 0#32) ∧ (∀ (k : Fin 2) (i : Lane), t.dcb[k].r[i] = 0#32)
    ∧ (∀ (u : Fin 4) (i : Lane), t.dl[u].idelay[i] = 0#32 ∧ t.dl[u].fdelay[i] = 0#32)
    ∧ (∀ i : Lane, t.lcg.seed[i] = 0#32)
    ∧ (∀ u : Fin 2, t.ap[u].nstage = 0) ∧ (∀ (u : Fin 2) (q : Fin 3) (i : Lane), (t.ap[u].arr q)[i] = 0#32)
    ∧ (∀ (q : Fin 6) (i : Lane), (t.eq.arr q)[i] = 0#32)
    ∧ (∀ (p : Fin 8) (i : Lane), t.prm[p].val[i] = 0#32)
    ∧ t.tape.wbuf = 0 ∧ t.tape.spdsh = 0#6 ∧ t.tape.aacoef = 0#32 ∧ t.tape.fastth = 0x3F8147AE#32
    ∧ t.tape.tspeed = 0#64 ∧ t.tape.speed = 0#64

/-! The values of Samples (00_scope.md R9). -/

/-- The value of a finite Sample. -/
def valQ (a : Sample) : ℚ := (signedSignif a : ℚ) * (2 : ℚ) ^ lsbExp a

/-- `r` is `q` rounded once to nearest, ties to even; from half a last bit past the largest finite value on it is an
infinity (R9: overflow gives an infinity; the bound is IEEE 754's, log entry 21). The last bit of the pattern is the last
bit of the significand. -/
def RoundsTo (q : ℚ) (r : Sample) : Prop :=
  if (2 ^ 25 - 1) * 2 ^ 103 ≤ |q| then r = infOf (decide (q < 0))
  else
    isFinite r = true
      ∧ ∀ x : Sample, isFinite x = true → |valQ r - q| ≤ |valQ x - q|
        ∧ (|valQ x - q| = |valQ r - q| → valQ x = valQ r ∨ r.getLsbD 0 = false)

/-! Frames. -/

/-- Of the X registers only X[rd], of the phase registers only PH[k], and nothing else differs. -/
def OnlyOscillator (rd : XReg) (k : Fin Config.nosc) (s t : State) : Prop :=
  t = { s with x := t.x, ph := t.ph } ∧ (∀ r : XReg, r ≠ rd → t.x[r] = s.x[r])
    ∧ ∀ j : Fin Config.nosc, j ≠ k → t.ph[j] = s.ph[j]

/-- Nothing but the delay line `u` differs. -/
def OnlyDl (u : Fin Config.ndl) (s t : State) : Prop :=
  t = { s with dl := t.dl } ∧ ∀ v : Fin Config.ndl, v ≠ u → t.dl[v] = s.dl[v]

/-- Every key outside lanes 0 to n - 1 of a slot reads as before. -/
def OnlySlot (n : Nat) (slot : Word) (old new : Memory 32) : Prop :=
  ∀ a : Nat, (∀ i : Lane, i.val < n → a ≠ cell slot i) → Memory.read new a = Memory.read old a

end Sys2Proof.Machine
end

