-- ==== Sys2Proof/Certificates/Slice0/Obligations.lean ====
section
/-! DEFINITION. The statements about the machine, for the provers. Each docstring names the rule of spec/ it
formalises. `s.at i k` is only the place of a free NaN value: a statement holds whatever the value is. -/

open Sys2Proof Sys2Proof.Machine

/-! Encoding (30_encoding.md). -/

/-- R91 to R96: decoding the word of a well-formed command gives the command, with every operand. -/
def Obligations.DecodeOfEncode : Prop :=
  ∀ (n : Nat) (i : Instr), i.wf n = true → decode n (encode i) = .ok i

/-- R90 to R98: a word has no bit the decoder ignores, so a decoded word is the word of its command. -/
def Obligations.EncodeOfDecode : Prop :=
  ∀ (n : Nat) (w : Word) (i : Instr), n ≤ 8 → decode n w = .ok i → encode i = w ∧ i.wf n = true

/-- R102: the worked encodings, in both directions. -/
def Obligations.WorkedEncodings : Prop :=
  (decode 8 0x00000000#32 = .ok .nop ∧ encode .nop = 0x00000000#32)
    ∧ (decode 8 0x01000000#32 = .ok .init ∧ encode .init = 0x01000000#32)
    ∧ (decode 8 0x10100400#32 = .ok (.xli 1 0x0400#16) ∧ encode (.xli 1 0x0400#16) = 0x10100400#32)
    ∧ (decode 8 0x18210000#32 = .ok (.plfo 2 1 0) ∧ encode (.plfo 2 1 0) = 0x18210000#32)
    ∧ (decode 8 0x19310001#32 = .ok (.tlfo 3 1 1) ∧ encode (.tlfo 3 1 1) = 0x19310001#32)
    ∧ (decode 8 0x17423000#32 = .ok (.vcmp 4 2 3) ∧ encode (.vcmp 4 2 3) = 0x17423000#32)
    ∧ (decode 8 0x21003F80#32 = .ok (.lli 0 0x3F80#16) ∧ encode (.lli 0 0x3F80#16) = 0x21003F80#32)
    ∧ (decode 8 0x30100002#32 = .ok (.sos 1 2) ∧ encode (.sos 1 2) = 0x30100002#32)
    ∧ (decode 8 0x42000000#32 = .ok (.dlwr 0 0) ∧ encode (.dlwr 0 0) = 0x42000000#32)
    ∧ (decode 8 0x61040000#32 = .ok (.twr 0 4) ∧ encode (.twr 0 4) = 0x61040000#32)
    ∧ (decode 8 0x02320010#32 = .ok (.cfgw 3 2 0x010#12) ∧ encode (.cfgw 3 2 0x010#12) = 0x02320010#32)

/-- R97, R98: an opcode outside the table is cause 1; for one in it, the fields that must be zero (cause 2), the L
fields (cause 3) and the index (cause 4) are checked in this order, and a word that passes decodes. -/
def Obligations.DecoderChecksInOrder : Prop :=
  ((causeOf .illop).code = 1#4 ∧ (causeOf .resvd).code = 2#4 ∧ (causeOf .lreg).code = 3#4 ∧ (causeOf .index).code = 4#4)
    ∧ ∀ (n : Nat) (w : Word),
      ((∀ r ∈ opcodeTable n, r.op ≠ (fieldOp w).toNat) → decode n w = .error .illop)
        ∧ ∀ r ∈ opcodeTable n, r.op = (fieldOp w).toNat →
          if w &&& r.zeroMask ≠ 0#32 then decode n w = .error .resvd
          else if w &&& r.lregMask ≠ 0#32 then decode n w = .error .lreg
          else if r.bound.any (fun b => decide (b ≤ (fieldImm12 w).toNat)) = true then decode n w = .error .index
          else ∃ i, decode n w = .ok i ∧ fieldOp (encode i) = fieldOp w

/-! The machine's step (00_scope.md R12, 60_exceptions.md). -/

/-- R12 a: a step at which the host issues a word that decodes is `exec` of its command, in the state whose inbox has
lost the word, whose command index is one higher (R27) and whose stamp for free NaN values is fresh. -/
def Obligations.StepRunsTheDecodedInstruction : Prop :=
  ∀ (s : State) (w : Word) (rest : List HostTx) (i : Instr),
    s.status.fault = none → decode s.par.n w = .ok i →
      (s.inbox = .issue w :: rest →
        step s = exec i { s with inbox := rest, index := s.index + 1, draw := s.draw + 1 })
        ∧ step (s.withFetchWord 32 w.toNat) = exec i { s with index := s.index + 1, draw := s.draw + 1 }

/-- R303: a command that takes a fault changes FAULT, CAUSE and FAULTINFO and nothing else; the word recorded is the
word issued; the core is halted; the command index advances by 1. -/
def Obligations.FaultEntryChangesNothingElse : Prop :=
  ∀ (s t : State) (w : Word) (rest : List HostTx) (c : Cause),
    s.inbox = .issue w :: rest → s.status.fault = none → step s = .next t → t.status.fault = some c →
      t = { s with
            inbox := rest, index := s.index + 1, draw := t.draw
            status := { s.status with fault := some c }, faultinfo := w }
        ∧ t.halted = true

/-- R302, R304: which fault a command word takes in a core that is not halted, for every word and every state, with
its code in STATUS and the word recorded; a word that takes none runs. In each case the machine answers a next state. -/
def Obligations.FaultTakenByAWord : Prop :=
  (Cause.illop.code = 1#4 ∧ Cause.resvd.code = 2#4 ∧ Cause.lreg.code = 3#4 ∧ Cause.index.code = 4#4
      ∧ Cause.cfgaddr.code = 5#4 ∧ Cause.noinit.code = 6#4)
    ∧ ∀ (s : State) (w : Word) (rest : List HostTx), s.inbox = .issue w :: rest → s.status.fault = none →
      ∃ t, step s = .next t ∧ t.status.fault = s.dueFault w
        ∧ ∀ c, s.dueFault w = some c → t.faultinfo = w ∧ (t.word .status).extractLsb' 4 4 = c.code

/-- R305: a halted core discards Issue and HostWrite without any state change, serves HostRead, and leaves the halt
by Reset only. The command index, which is the stream's and no state of the core, counts the discarded word too (R27,
95_test_vectors.md program 5; log entry 9). That a halted core steps at all is the model's choice (log entry 8). -/
def Obligations.HaltedCoreDiscards : Prop :=
  ∀ (s : State) (rest : List HostTx), s.halted = true →
    (∀ w, s.inbox = .issue w :: rest → step s = .next { s with inbox := rest, index := s.index + 1 })
      ∧ (∀ a v, s.inbox = .hostWrite a v :: rest → step s = .next { s with inbox := rest })
      ∧ (∀ a, s.inbox = .hostRead a :: rest → step s = .next { s with inbox := rest, lastRead := some (s.cfgRead a) })
      ∧ (s.inbox = .reset :: rest → ∃ t, step s = .next t ∧ t.halted = false)
      ∧ ∀ t, step s = .next t → t.halted = false → s.inbox.head? = some .reset

/-- R12 b, R12 c, R72, R73, R321: HostRead gives the word at a mapped address and 0 elsewhere and changes nothing else;
HostWrite stores to a mapped RW word and nothing elsewhere; a core with nothing pending keeps its state. -/
def Obligations.HostAccess : Prop :=
  ∀ (s : State) (rest : List HostTx) (a : BitVec 16) (v : Word),
    (s.inbox = [] → step s = .next s)
      ∧ (s.inbox = .hostRead a :: rest →
          step s = .next { s with
            inbox := rest
            lastRead := some (match cfgWord s.par a with | some wd => s.word wd | none => 0#32) })
      ∧ (s.inbox = .hostWrite a v :: rest → s.halted = false →
          match cfgWord s.par a with
          | some wd =>
            if wd.writable = true then step s = .next ({ s with inbox := rest }.storeWord wd v)
            else step s = .next { s with inbox := rest }
          | none => step s = .next { s with inbox := rest })

/-! The CFG space (20_memory.md, 10_state.md). -/

/-- R75: an address is mapped exactly when it is the address of a word that exists, and then it names that word; and
CfgRead at every address of the table gives the state that the commands use, lane words for the lanes below N, tap
history for the channels below NCH. -/
def Obligations.CfgMapAgreesWithTheTable : Prop :=
  (∀ (p : Params) (a : BitVec 16) (wd : CfgWord), cfgWord p a = some wd ↔ wd.present p = true ∧ wd.addr = a.toNat)
    ∧ ∀ s : State, s.MapsScalars ∧ s.MapsTaps ∧ s.MapsRegisters ∧ ∀ i : Lane, i.val < s.par.n → s.MapsLane i

/-- R28: the bits of the word STATUS, read at CFG 0x0002; R29: the fields of HWCFG, read at CFG 0x0001, with none for
the logs of the rings (log entry 17). -/
def Obligations.StatusWordBits : Prop :=
  ∀ s : State,
    (s.cfgRead 0x0002#16).getLsbD 0 = s.status.initd
      ∧ ((s.cfgRead 0x0002#16).getLsbD 1 = true ↔ s.status.fault ≠ none)
      ∧ (s.cfgRead 0x0002#16).extractLsb' 2 2 = 0#2
      ∧ (s.status.fault = none → (s.cfgRead 0x0002#16).extractLsb' 4 4 = 0#4)
      ∧ (∀ c, s.status.fault = some c → (s.cfgRead 0x0002#16).extractLsb' 4 4 = c.code)
      ∧ (s.cfgRead 0x0002#16).getLsbD 8 = s.status.fading
      ∧ (s.cfgRead 0x0002#16).getLsbD 9 = s.status.fast
      ∧ (s.cfgRead 0x0002#16).getLsbD 10 = s.status.revstop
      ∧ (s.cfgRead 0x0002#16).getLsbD 11 = s.status.tapUnder
      ∧ (s.cfgRead 0x0002#16).getLsbD 12 = s.status.tapOver
      ∧ (s.cfgRead 0x0002#16).getLsbD 13 = s.status.revdrop
      ∧ (s.cfgRead 0x0002#16).extractLsb' 14 18 = 0#18
      ∧ (s.cfgRead 0x0001#16).extractLsb' 0 4 = BitVec.ofNat 4 s.par.n
      ∧ (s.cfgRead 0x0001#16).extractLsb' 4 2 = BitVec.ofNat 2 s.par.nch
      ∧ (s.cfgRead 0x0001#16).extractLsb' 6 6 = 30#6
      ∧ (s.cfgRead 0x0001#16).extractLsb' 12 4 = 4#4
      ∧ (s.cfgRead 0x0001#16).extractLsb' 16 16 = 0#16

/-- R30 and the access columns of R29, R35, R41, R43: which words are RO; every other word is RW. R73 and the rows of
10_state.md R29 to R43: an RW word reads what was written after the legalisation of its row. Log entries 15 (NSECT,
NSTAGE) and 16 (the high word of a phase register). -/
def Obligations.CfgWriteReadsBack : Prop :=
  (∀ wd : CfgWord, wd.writable = false ↔ wd.IsReadOnly)
    ∧ ∀ (s : State) (wd : CfgWord) (v : Word), wd.writable = true → (s.storeWord wd v).word wd = s.legalised wd v

/-- R73: a write changes only the word addressed, but for DECCNT after a write to DECM; R31: the high word of a phase
register follows the low one. The private memories are not reached (R71). -/
def Obligations.CfgWriteChangesOneWord : Prop :=
  ∀ (s : State) (wd other : CfgWord) (v : Word), other ≠ wd →
    ((wd.mayAlsoChange other = false → (s.storeWord wd v).word other = s.word other)
      ∧ (wd = .decm → other = .deccnt →
          (s.storeWord wd v).deccnt = if s.deccnt < (s.storeWord wd v).decm then s.deccnt else 0#32)
      ∧ (∀ k, wd = .ph k false → other = .ph k true →
          (s.storeWord wd v).word other = if v.msb then 0xFFFFFFFF#32 else 0#32)
      ∧ SamePrivate s (s.storeWord wd v))

/-! Reset, invariants, parameters. -/

/-- R320: every piece of state has its reset value at `State.reset` and after a Reset transaction in any state; the
constants do not change. -/
def Obligations.ResetValues : Prop :=
  (State.reset.Cleared ∧ State.reset.SettingsAtReset)
    ∧ ∀ (s : State) (rest : List HostTx), s.inbox = .reset :: rest →
      ∃ t, step s = .next t ∧ t.Cleared ∧ t.SettingsAtReset ∧ t.par = s.par
        ∧ t.word .hwid = 0x41455448#32 ∧ t.word .hwcfg = s.word .hwcfg

/-- The invariant of the machine holds at reset. -/
def Obligations.InvariantAtReset : Prop := State.reset.Inv

/-- The invariant of the machine is kept by every step: the private memories stay canonical, the phases in range
(R31), DECCNT below DECM (R29), every cursor inside its ring (R35, R38, R39, R41, R43), FCNT below 256 (R266). -/
def Obligations.StepKeepsTheInvariant : Prop :=
  ∀ s t : State, s.Inv → step s = .next t → t.Inv

/-- R184, R46: no step changes a parameter, so neither the capacity of a ring nor the window ROM. -/
def Obligations.ParametersNeverChange : Prop :=
  ∀ s t : State, step s = .next t →
    t.par = s.par ∧ t.word .hwcfg = s.word .hwcfg ∧ ∀ u, t.word (.dlLogsize u) = BitVec.ofNat 32 s.par.dllog[u]

/-! System commands (47_system.md). -/

/-- R280: NOP changes nothing but the command index (and the model's stamp), and the only NOP is
the word 0; any other word of opcode 0 has a reserved field set. -/
def Obligations.NopDoesNothing : Prop :=
  (∀ s : State, exec .nop s = .next s)
    ∧ (∀ (s : State) (rest : List HostTx), s.inbox = .issue 0#32 :: rest → s.halted = false →
        step s = .next { s with inbox := rest, index := s.index + 1, draw := s.draw + 1 })
    ∧ ∀ (n : Nat) (w : Word), (decode n w = .ok .nop ↔ w = 0#32)
      ∧ (fieldOp w = 0#8 → w ≠ 0#32 → decode n w = .error .resvd)

/-- R282: INIT clears list (a), keeps list (b), sets INITD; a second INIT does the same. A word of its opcode with
any of bits 23:0 set is cause 2. -/
def Obligations.InitClearsAndKeeps : Prop :=
  (∀ s : State, ∃ t, exec .init s = .next t ∧ t.Cleared ∧ State.Kept s t ∧ t.status.initd = true
      ∧ exec .init t = .next t)
    ∧ ∀ (n : Nat) (w : Word), (decode n w = .ok .init ↔ w = 0x01000000#32)
      ∧ (fieldOp w = 1#8 → w ≠ 0x01000000#32 → decode n w = .error .resvd)

/-- R283: before the first INIT exactly PLFO, TLFO, PRAMP, PEND, DECIM and the commands of opcode 0x30 or more take
cause 6. -/
def Obligations.NoInitFaults : Prop :=
  ∀ (i : Instr) (s : State), s.status.initd = false →
    (((fieldOp (encode i)).toNat ∈ [0x18, 0x19, 0x2A, 0x2B, 0x2D] ∨ 0x30 ≤ (fieldOp (encode i)).toNat) →
      TakesFault i s .noinit (encode i))
    ∧ (¬((fieldOp (encode i)).toNat ∈ [0x18, 0x19, 0x2A, 0x2B, 0x2D] ∨ 0x30 ≤ (fieldOp (encode i)).toNat) →
      ∀ t, exec i s = .next t → s.status.fault = none → t.status.fault ≠ some .noinit)

/-- R284: CFGR puts the addressed word, zero-extended, in X[rd]; an unmapped address takes cause 5. The address is
(X[rb][15:0] + off) mod 2^16. -/
def Obligations.CfgrReads : Prop :=
  ∀ (s : State) (rd rb : XReg) (off : BitVec 12),
    match cfgWord s.par (BitVec.ofNat 16 (s.x[rb].toNat % 2 ^ 16 + off.toNat)) with
    | none => TakesFault (.cfgr rd rb off) s .cfgaddr (encode (.cfgr rd rb off))
    | some wd => AnswersX (.cfgr rd rb off) s rd ((s.word wd).setWidth 64)

/-- R286: CFGW stores X[rs][31:0] in the addressed RW word; an unmapped or RO address takes cause 5. -/
def Obligations.CfgwWrites : Prop :=
  ∀ (s : State) (rs rb : XReg) (off : BitVec 12),
    match cfgWord s.par (BitVec.ofNat 16 (s.x[rb].toNat % 2 ^ 16 + off.toNat)) with
    | none => TakesFault (.cfgw rs rb off) s .cfgaddr (encode (.cfgw rs rb off))
    | some wd =>
      if wd.writable = true then exec (.cfgw rs rb off) s = .next (s.storeWord wd (s.x[rs].setWidth 32))
      else TakesFault (.cfgw rs rb off) s .cfgaddr (encode (.cfgw rs rb off))

/-! Scalar commands and oscillators (41_timebase.md). -/

/-- R114, R115, R116: XLI, XSLI, XMOV. -/
def Obligations.ScalarMoves : Prop :=
  ∀ (s : State) (rd rs : XReg) (imm : BitVec 16),
    AnswersX (.xli rd imm) s rd (imm.signExtend 64)
      ∧ AnswersX (.xsli rd imm) s rd ((s.x[rd] <<< 16) ||| imm.setWidth 64)
      ∧ AnswersX (.xmov rd rs) s rd s.x[rs]

/-- R117 to R120: XADD and XSUB modulo 2^64; XSRAI is the floor of the signed value over 2^sh; XSLLI loses the bits
shifted out. -/
def Obligations.ScalarArithmetic : Prop :=
  ∀ (s : State) (rd ra rb : XReg) (sh : BitVec 6),
    (∃ v, AnswersX (.xadd rd ra rb) s rd v ∧ v.toNat = (s.x[ra].toNat + s.x[rb].toNat) % 2 ^ 64)
      ∧ (∃ v, AnswersX (.xsub rd ra rb) s rd v ∧ v.toNat = (s.x[ra].toNat + (2 ^ 64 - s.x[rb].toNat)) % 2 ^ 64)
      ∧ (∃ v, AnswersX (.xsrai rd ra sh) s rd v ∧ v.toInt = s.x[ra].toInt / 2 ^ sh.toNat)
      ∧ ∃ v, AnswersX (.xslli rd ra sh) s rd v ∧ v.toNat = s.x[ra].toNat * 2 ^ sh.toNat % 2 ^ 64

/-- R121: VCMP writes 1 when the signed 64-bit difference is positive, else 0. -/
def Obligations.VcmpResult : Prop :=
  ∀ (s : State) (rd ra rb : XReg),
    AnswersX (.vcmp rd ra rb) s rd (if 0 < (s.x[ra] - s.x[rb]).toInt then 1#64 else 0#64)

/-- R112: `compare` is the sign of the wrapped difference: irreflexive, right for true distances below 2^63 whatever
wrap lies between, and false both ways at a difference of 2^63. -/
def Obligations.CompareOrdersWrappingTimes : Prop :=
  (∀ x y : XWord, compare64 x y = true ↔ 0 < (x - y).toInt)
    ∧ (∀ x : XWord, compare64 x x = false)
    ∧ (∀ a b : Int, |a - b| < 2 ^ 63 → (compare64 (BitVec.ofInt 64 a) (BitVec.ofInt 64 b) = true ↔ b < a))
    ∧ ∀ x y : XWord, x - y = 0x8000000000000000#64 → compare64 x y = false ∧ compare64 y x = false

/-- R113: `wrap(s)` is the number of [-2U, 2U) congruent to s modulo 4U, for every s. -/
def Obligations.PhaseWrap : Prop :=
  ∀ v : XWord, -2 ^ 31 ≤ (wrapPhase v).toInt ∧ (wrapPhase v).toInt < 2 ^ 31 ∧ (2 ^ 32 : Int) ∣ (wrapPhase v).toInt - v.toInt

/-- R122 to R126: PLFO and TLFO move PH[k] first and give the waveform at the new phase. -/
def Obligations.OscillatorStep : Prop :=
  ∀ (s : State) (rd rs : XReg) (k : Fin Config.nosc),
    NeedsInit (.plfo rd rs k) s ∧ NeedsInit (.tlfo rd rs k) s ∧ (s.status.initd = true →
    let p := wrapPhase (s.ph[k] + s.x[rs])
    (∃ t, exec (.plfo rd rs k) s = .next t ∧ t.ph[k] = p
        ∧ t.x[rd].toInt = p.toInt * (2 ^ 31 - |p.toInt|) / 2 ^ 30 ∧ OnlyOscillator rd k s t)
      ∧ ∃ t, exec (.tlfo rd rs k) s = .next t ∧ t.ph[k] = p
        ∧ t.x[rd].toInt = (if 2 ^ 30 < p.toInt then 2 ^ 31 - p.toInt
            else if p.toInt < -2 ^ 30 then -2 ^ 31 - p.toInt else p.toInt)
        ∧ OnlyOscillator rd k s t)

/-- R127: whatever the phase and the frequency, an oscillator's output lies in [-U, U]. -/
def Obligations.OscillatorBound : Prop :=
  ∀ (s t : State) (rd rs : XReg) (k : Fin Config.nosc), s.status.initd = true →
    exec (.plfo rd rs k) s = .next t ∨ exec (.tlfo rd rs k) s = .next t →
      -2 ^ 30 ≤ t.x[rd].toInt ∧ t.x[rd].toInt ≤ 2 ^ 30

/-! Lanes, ramps, sum, decimator (45_lane_ramp_sum_decim.md). -/

/-- R210, R211, R216: LMOV bit for bit, LLI, LSPLAT. -/
def Obligations.LaneMoves : Prop :=
  ∀ (s : State) (ld ls : LReg) (rs : XReg) (imm : BitVec 16),
    AnswersL (.lmov ld ls) s ld (fun i => s.l[ls][i])
      ∧ AnswersL (.lli ld imm) s ld (fun _ => imm ++ 0#16)
      ∧ AnswersL (.lsplat ld rs) s ld (fun _ => s.x[rs].setWidth 32)

/-- R212 to R215, R217: LADD, LSUB, LMUL, LMAC (two roundings) and LXCVT (2^-sh is the Sample of that value). -/
def Obligations.LaneArithmetic : Prop :=
  ∀ (s : State) (ld la lb : LReg) (rs : XReg) (sh : BitVec 6),
    AnswersL (.ladd ld la lb) s ld (fun i => fadd (s.at i 0) s.l[la][i] s.l[lb][i])
      ∧ AnswersL (.lsub ld la lb) s ld (fun i => fsub (s.at i 0) s.l[la][i] s.l[lb][i])
      ∧ AnswersL (.lmul ld la lb) s ld (fun i => fmul (s.at i 0) s.l[la][i] s.l[lb][i])
      ∧ AnswersL (.lmac ld la lb) s ld
          (fun i => fadd (s.at i 1) s.l[ld][i] (fmul (s.at i 0) s.l[la][i] s.l[lb][i]))
      ∧ ∃ scale, AnswersL (.lxcvt ld rs sh) s ld (fun i => fmul (s.at i 0) (i2f s.x[rs].toInt) scale)
          ∧ isFinite scale = true ∧ valQ scale = (2 : ℚ) ^ (-(sh.toNat : Int))

/-- R218, R219: LINS writes one lane, LEXT reads one, zero-extended; a lane that does not exist is cause 4. -/
def Obligations.LaneInsertExtract : Prop :=
  ∀ (s : State) (r : XReg) (q : LReg) (k : Lane),
    (k.val < s.par.n →
      (∃ t, exec (.lins q r k) s = .next t ∧ t = { s with l := t.l } ∧ t.l[q][k] = s.x[r].setWidth 32
          ∧ (∀ i : Lane, i ≠ k → t.l[q][i] = s.l[q][i]) ∧ ∀ p : LReg, p ≠ q → t.l[p] = s.l[p])
        ∧ AnswersX (.lext r q k) s r (s.l[q][k].setWidth 64))
      ∧ (s.par.n ≤ k.val →
          TakesFault (.lins q r k) s .index (encode (.lins q r k))
            ∧ TakesFault (.lext r q k) s .index (encode (.lext r q k)))

/-- R224, R226: PRAMP adds INC to VAL and returns the new value; PEND zeroes INC and leaves VAL. -/
def Obligations.RampStep : Prop :=
  ∀ (s : State) (ld : LReg) (k : Fin Config.nprm),
    NeedsInit (.pramp ld k) s ∧ NeedsInit (.pend k) s ∧ (s.status.initd = true →
    (∃ t, exec (.pramp ld k) s = .next t ∧ t = { s with l := t.l, prm := t.prm } ∧ OnlyLanesOf ld s t
        ∧ (∀ i : Lane, i.val < s.par.n →
            t.prm[k].val[i] = fadd (s.at i 0) s.prm[k].val[i] s.prm[k].inc[i] ∧ t.l[ld][i] = t.prm[k].val[i])
        ∧ t.prm[k].inc = s.prm[k].inc
        ∧ ∀ p : Fin Config.nprm, p ≠ k → t.prm[p] = s.prm[p])
      ∧ ∃ t, exec (.pend k) s = .next t ∧ t = { s with prm := t.prm }
        ∧ (∀ i : Lane, i.val < s.par.n → t.prm[k].inc[i] = 0#32)
        ∧ t.prm[k].val = s.prm[k].val
        ∧ ∀ p : Fin Config.nprm, p ≠ k → t.prm[p] = s.prm[p])

/-- R228: LSUMT leaves in the first lane of each channel the tree sum of the channel's lanes, in the order of the
loop, and in the others the partial sums; G = N / NCH is 1, 2, 4 or 8. -/
def Obligations.TreeSum : Prop :=
  ∀ (s : State) (ld : LReg), Params.legal s.par = true →
    ∃ t, exec (.lsumt ld) s = .next t ∧ OnlyL ld s t ∧
      ∀ ch : Nat, ch < s.par.nch →
        let g := s.par.n / s.par.nch
        let v : Nat → Sample := fun j => s.l[ld][Fin.ofNat 8 (ch * g + j)]
        let r : Nat → Sample := fun j => t.l[ld][Fin.ofNat 8 (ch * g + j)]
        -- the sum of two lanes at a stride
        let add : Nat → Nat → Sample → Sample → Sample := fun j stride a b => fadd (s.at (ch * g + j) stride) a b
        (g = 1 → r 0 = v 0)
          ∧ (g = 2 → r 0 = add 0 1 (v 0) (v 1) ∧ r 1 = v 1)
          ∧ (g = 4 → r 0 = add 0 1 (add 0 2 (v 0) (v 2)) (add 1 2 (v 1) (v 3)) ∧ r 1 = add 1 2 (v 1) (v 3)
              ∧ r 2 = v 2 ∧ r 3 = v 3)
          ∧ (g = 8 →
              r 0 = add 0 1 (add 0 2 (add 0 4 (v 0) (v 4)) (add 2 4 (v 2) (v 6)))
                  (add 1 2 (add 1 4 (v 1) (v 5)) (add 3 4 (v 3) (v 7)))
                ∧ r 1 = add 1 2 (add 1 4 (v 1) (v 5)) (add 3 4 (v 3) (v 7))
                ∧ r 2 = add 2 4 (v 2) (v 6) ∧ r 3 = add 3 4 (v 3) (v 7)
                ∧ r 4 = v 4 ∧ r 5 = v 5 ∧ r 6 = v 6 ∧ r 7 = v 7)

/-- R231: DECIM scales the first sample of each period by M, zero-fills the others, and counts. That M is converted as
an unsigned number is the model's choice (log entry 22). -/
def Obligations.DecimatorStep : Prop :=
  ∀ (s : State) (ld : LReg),
    NeedsInit (.decim ld) s ∧ (s.status.initd = true →
    ∃ t, exec (.decim ld) s = .next t ∧ t = { s with l := t.l, deccnt := t.deccnt } ∧ OnlyLanesOf ld s t
      ∧ (s.deccnt = 0#32 →
          ∀ i : Lane, i.val < s.par.n → t.l[ld][i] = fmul (s.at i 0) s.l[ld][i] (i2f s.decm.toNat))
      ∧ (s.deccnt ≠ 0#32 → ∀ i : Lane, i.val < s.par.n → t.l[ld][i] = 0#32)
      ∧ t.deccnt = (if s.deccnt + 1#32 = s.decm then 0#32 else s.deccnt + 1#32))

/-! Filters (42_sos_filters.md). -/

/-- R141, R142: in every lane, section j < NSECT maps its input y j to y (j + 1) and moves its cells; sections from
NSECT on, the coefficients and every other bank keep their words; NSECT = 0 leaves L[ld] as it is. -/
def Obligations.SosCascade : Prop :=
  ∀ (s : State) (ld : LReg) (k : Fin Config.nbank),
    NeedsInit (.sos ld k) s ∧ (s.status.initd = true →
    ∃ t, exec (.sos ld k) s = .next t ∧ t = { s with l := t.l, sos := t.sos } ∧ OnlyLanesOf ld s t
      ∧ (∀ b : Fin Config.nbank, b ≠ k → t.sos[b] = s.sos[b]) ∧ t.sos[k].nsect = s.sos[k].nsect
      ∧ (∀ j : Fin Config.nsecmax, t.sos[k].sec[j] =
          { s.sos[k].sec[j] with s0 := t.sos[k].sec[j].s0, s1 := t.sos[k].sec[j].s1 })
      ∧ (∀ j : Fin Config.nsecmax, s.sos[k].nsect.val ≤ j.val → t.sos[k].sec[j] = s.sos[k].sec[j])
      ∧ ∀ i : Lane, i.val < s.par.n →
        ∃ y : Nat → Sample, y 0 = s.l[ld][i] ∧ t.l[ld][i] = y s.sos[k].nsect.val
          ∧ ∀ j : Fin Config.nsecmax, j.val < s.sos[k].nsect.val →
            let c := s.sos[k].sec[j]
            let d := fun op : Nat => s.at i (16 * j + op)
            let w := fsub (d 3) (fsub (d 1) (y j) (fmul (d 0) c.a1[i] c.s0[i])) (fmul (d 2) c.a2[i] c.s1[i])
            t.sos[k].sec[j].s0[i] = w ∧ t.sos[k].sec[j].s1[i] = c.s0[i]
              ∧ y (j + 1) = fadd (d 8) (fadd (d 6) (fmul (d 4) c.b0[i] w) (fmul (d 5) c.b1[i] c.s0[i]))
                  (fmul (d 7) c.b2[i] c.s1[i]))

/-- R146, R148: LP1 and DCB, their new states and outputs. The pseudocode is followed where the corners A = 0 and R = 0
differ from it for zeros and infinities: the model's choice (log entry 30). -/
def Obligations.OnePoleAndDcBlocker : Prop :=
  ∀ (s : State) (ld : LReg) (k : Fin Config.nlp) (q : Fin Config.ndc),
    NeedsInit (.lp1 ld k) s ∧ NeedsInit (.dcb ld q) s ∧ (s.status.initd = true →
    (∃ t, exec (.lp1 ld k) s = .next t ∧ t = { s with l := t.l, lp1 := t.lp1 } ∧ OnlyLanesOf ld s t
        ∧ (∀ j : Fin Config.nlp, j ≠ k → t.lp1[j] = s.lp1[j]) ∧ t.lp1[k].a = s.lp1[k].a
        ∧ ∀ i : Lane, i.val < s.par.n →
          t.lp1[k].s[i] = fadd (s.at i 2) s.lp1[k].s[i]
              (fmul (s.at i 1) s.lp1[k].a[i] (fsub (s.at i 0) s.l[ld][i] s.lp1[k].s[i]))
            ∧ t.l[ld][i] = t.lp1[k].s[i])
      ∧ ∃ t, exec (.dcb ld q) s = .next t ∧ t = { s with l := t.l, dcb := t.dcb } ∧ OnlyLanesOf ld s t
        ∧ (∀ j : Fin Config.ndc, j ≠ q → t.dcb[j] = s.dcb[j]) ∧ t.dcb[q].r = s.dcb[q].r
        ∧ ∀ i : Lane, i.val < s.par.n →
          t.dcb[q].y1[i] = fadd (s.at i 2) (fsub (s.at i 0) s.l[ld][i] s.dcb[q].x1[i])
              (fmul (s.at i 1) s.dcb[q].r[i] s.dcb[q].y1[i])
            ∧ t.l[ld][i] = t.dcb[q].y1[i] ∧ t.dcb[q].x1[i] = s.l[ld][i])

/-- R149: in SOS, LP1 and DCB a lane's output and state depend on that lane's input, coefficients and state alone:
two states that agree there, and may differ in everything of every other lane, give the same in that lane. -/
def Obligations.FilterLanesAreIndependent : Prop :=
  ∀ (s s' t t' : State) (ld : LReg) (i : Lane), s'.par = s.par → s'.draw = s.draw →
    s.status.initd = true → s'.status.initd = true → s'.l[ld][i] = s.l[ld][i] →
      (∀ k : Fin Config.nbank, s'.sos[k].nsect = s.sos[k].nsect →
          (∀ (j : Fin Config.nsecmax) (q : Fin 7), (s'.sos[k].sec[j].arr q)[i] = (s.sos[k].sec[j].arr q)[i]) →
          exec (.sos ld k) s = .next t → exec (.sos ld k) s' = .next t' →
          t'.l[ld][i] = t.l[ld][i]
            ∧ ∀ (j : Fin Config.nsecmax) (q : Fin 7), (t'.sos[k].sec[j].arr q)[i] = (t.sos[k].sec[j].arr q)[i])
        ∧ (∀ k : Fin Config.nlp, s'.lp1[k].a[i] = s.lp1[k].a[i] → s'.lp1[k].s[i] = s.lp1[k].s[i] →
          exec (.lp1 ld k) s = .next t → exec (.lp1 ld k) s' = .next t' →
          t'.l[ld][i] = t.l[ld][i] ∧ t'.lp1[k].s[i] = t.lp1[k].s[i])
        ∧ ∀ k : Fin Config.ndc, s'.dcb[k].r[i] = s.dcb[k].r[i] → s'.dcb[k].x1[i] = s.dcb[k].x1[i] →
          s'.dcb[k].y1[i] = s.dcb[k].y1[i] → exec (.dcb ld k) s = .next t → exec (.dcb ld k) s' = .next t' →
          t'.l[ld][i] = t.l[ld][i] ∧ t'.dcb[k].x1[i] = t.dcb[k].x1[i] ∧ t'.dcb[k].y1[i] = t.dcb[k].y1[i]

/-! Delay lines (43_delayline.md). -/

/-- R161, R162: DLMOD steps the generator of every lane modulo 2^32 and gives the new state, read as signed, times
2^-31. -/
def Obligations.ModulationStep : Prop :=
  ∀ (s : State) (ld : LReg),
    NeedsInit (.dlmod ld) s ∧ (s.status.initd = true →
    ∃ t scale, exec (.dlmod ld) s = .next t ∧ t = { s with l := t.l, lcg := t.lcg } ∧ OnlyLanesOf ld s t
      ∧ t.lcg.seed = s.lcg.seed
      ∧ isFinite scale = true ∧ valQ scale = (2 : ℚ) ^ (-31 : Int)
      ∧ ∀ i : Lane, i.val < s.par.n →
        t.lcg.state[i].toNat = (s.lcg.seed[i].toNat + s.lcg.state[i].toNat * 1103515245) % 2 ^ 32
          ∧ t.l[ld][i] = fmul (s.at i 0) (i2f t.lcg.state[i].toInt) scale)

/-- R165: `split` clamps a NaN and a negative to 0, saturates from 2^32 on, and otherwise gives the floor and an exact
fraction of [0, 1) that is never a negative zero. -/
def Obligations.SplitDelayIsFloorAndFraction : Prop :=
  ∀ (d : Draw) (v : Sample),
    (isNaN v = true ∨ (signBit v = true ∧ isZero v = false) → splitDelay d v = (0#32, 0#32))
      ∧ (signBit v = false → isInf v = true ∨ (isFinite v = true ∧ 2 ^ 32 ≤ valQ v) →
          splitDelay d v = (0xFFFFFFFF#32, 0#32))
      ∧ (isFinite v = true → signBit v = false ∨ isZero v = true → valQ v < 2 ^ 32 →
          ((splitDelay d v).1.toNat : Int) = ⌊valQ v⌋
            ∧ isFinite (splitDelay d v).2 = true ∧ signBit (splitDelay d v).2 = false
            ∧ valQ (splitDelay d v).2 = valQ v - ⌊valQ v⌋
            ∧ 0 ≤ valQ (splitDelay d v).2 ∧ valQ (splitDelay d v).2 < 1)

/-- R166: DLSET stores the split of every lane's delay, and nothing else. -/
def Obligations.DelaySet : Prop :=
  ∀ (s : State) (ls : LReg) (u : Fin Config.ndl),
    NeedsInit (.dlset ls u) s ∧ (s.status.initd = true →
    ∃ t, exec (.dlset ls u) s = .next t ∧ OnlyDl u s t
      ∧ t.dl[u] = { s.dl[u] with idelay := t.dl[u].idelay, fdelay := t.dl[u].fdelay }
      ∧ ∀ i : Lane, i.val < s.par.n → (t.dl[u].idelay[i], t.dl[u].fdelay[i]) = splitDelay (s.at i 0) s.l[ls][i])

/-- R170: DLWR writes the lanes of L[ls] in the slot at the cursor; every other slot, and the cursor, is as before.
Premise: the buffer is canonical, as the invariant says. -/
def Obligations.DelayWrite : Prop :=
  ∀ (s : State) (ls : LReg) (u : Fin Config.ndl),
    NeedsInit (.dlwr ls u) s ∧ (s.status.initd = true →
    ∃ t, exec (.dlwr ls u) s = .next t ∧ OnlyDl u s t ∧ t.dl[u] = { s.dl[u] with buf := t.dl[u].buf }
      ∧ OnlySlot s.par.n s.dl[u].id s.dl[u].buf t.dl[u].buf
      ∧ (Memory.wf s.dl[u].buf = true →
          ∀ i : Lane, i.val < s.par.n → Memory.read t.dl[u].buf (cell s.dl[u].id i) = s.l[ls][i]))

/-- R168, R171 to R174: DLRDL and DLRDH interpolate the samples at the slots (ID - (IDELAY + e)) & MASK, in the order
of operations of the rules, and change nothing but L[ld]. The patterns are 0.5, 2.5, 2.0 and 1.5. For a tap of -0.0 the
pseudocode of R172 is followed and not its corner: the model's choice (log entry 29; for R173, log entry 30). -/
def Obligations.DelayTaps : Prop :=
  ∀ (s : State) (ld : LReg) (u : Fin Config.ndl),
    NeedsInit (.dlrdl ld u) s ∧ NeedsInit (.dlrdh ld u) s ∧ (s.status.initd = true →
    let tap : Lane → Int → Sample := fun i e =>
      Memory.read s.dl[u].buf
        (((s.dl[u].id - (s.dl[u].idelay[i] + BitVec.ofInt 32 e)) &&& ringMask s.par.dllog[u]).toNat * 8 + i.val)
    AnswersL (.dlrdl ld u) s ld (fun i =>
        fadd (s.at i 2) (tap i 0) (fmul (s.at i 1) s.dl[u].fdelay[i] (fsub (s.at i 0) (tap i 1) (tap i 0))))
      ∧ AnswersL (.dlrdh ld u) s ld (fun i =>
          let d := fun k : Nat => s.at i k
          let f := s.dl[u].fdelay[i]
          let c1 := fmul (d 1) 0x3F000000#32 (fsub (d 0) (tap i 1) (tap i (-1)))
          let c2 := fsub (d 7)
            (fadd (d 5) (fsub (d 3) (tap i (-1)) (fmul (d 2) 0x40200000#32 (tap i 0)))
              (fmul (d 4) 0x40000000#32 (tap i 1)))
            (fmul (d 6) 0x3F000000#32 (tap i 2))
          let c3 := fadd (d 12) (fmul (d 9) 0x3F000000#32 (fsub (d 8) (tap i 2) (tap i (-1))))
            (fmul (d 11) 0x3FC00000#32 (fsub (d 10) (tap i 0) (tap i 1)))
          fadd (d 18) (fmul (d 17) (fadd (d 16) (fmul (d 15) (fadd (d 14) (fmul (d 13) c3 f) c2) f) c1) f) (tap i 0)))

/-- R178 to R181: DLADV, DLADVX, DLSAV, DLRST. -/
def Obligations.CursorCommands : Prop :=
  ∀ (s : State) (rs : XReg) (u : Fin Config.ndl),
    NeedsInit (.dladv u) s ∧ NeedsInit (.dladvx rs u) s ∧ NeedsInit (.dlsav u) s
      ∧ NeedsInit (.dlrst u) s ∧ (s.status.initd = true →
    (∃ t, exec (.dladv u) s = .next t ∧ OnlyDl u s t
        ∧ t.dl[u] = { s.dl[u] with id := (s.dl[u].id + 1#32) &&& ringMask s.par.dllog[u] })
      ∧ (∃ t, exec (.dladvx rs u) s = .next t ∧ OnlyDl u s t
        ∧ t.dl[u] = { s.dl[u] with id := (s.dl[u].id + s.x[rs].setWidth 32) &&& ringMask s.par.dllog[u] })
      ∧ (∃ t, exec (.dlsav u) s = .next t ∧ OnlyDl u s t ∧ t.dl[u] = { s.dl[u] with saved := s.dl[u].id })
      ∧ ∃ t, exec (.dlrst u) s = .next t ∧ OnlyDl u s t ∧ t.dl[u] = { s.dl[u] with id := s.dl[u].saved })

/-- R183: with IDELAY = 2^DLLOG and FDELAY = +0.0, DLRDL issued after DLWR returns the sample just written, bit for
bit, if it is not -0.0 and its difference from its older neighbour is finite. -/
def Obligations.RingIdempotence : Prop :=
  ∀ (s : State) (ls ld : LReg) (u : Fin Config.ndl) (i : Lane), s.status.initd = true → s.Inv → i.val < s.par.n →
    s.dl[u].idelay[i] = BitVec.ofNat 32 (2 ^ s.par.dllog[u]) → s.dl[u].fdelay[i] = 0#32 →
    s.l[ls][i] ≠ 0x80000000#32 →
    ∃ t1 t2, exec (.dlwr ls u) s = .next t1 ∧ exec (.dlrdl ld u) t1 = .next t2
      ∧ ((∀ d, isFinite (fsub d (t1.tapv u i 1) s.l[ls][i]) = true) → t2.l[ld][i] = s.l[ls][i])

/-! Allpass cascades and EQ (44_allpass_eq.md). -/

/-- R191, R192: in every lane, stage j < NSTAGE maps y j to y (j + 1), writes v at the cursor of its memory and moves
its cells; stages from NSTAGE on and the coefficients keep their words; the cursor moves once. Premise: the memories
are canonical, as the invariant says. The pseudocode is followed where the corner a1 = a2 = 0 differs from it for zeros
and infinities: the model's choice (log entry 30). -/
def Obligations.AllpassCascade : Prop :=
  ∀ (s : State) (ld : LReg) (u : Fin Config.nap),
    NeedsInit (.apc ld u) s ∧ (s.status.initd = true → s.memoriesWf →
    ∃ t, exec (.apc ld u) s = .next t ∧ t = { s with l := t.l, ap := t.ap } ∧ OnlyLanesOf ld s t
      ∧ (∀ o : Fin Config.nap, o ≠ u → t.ap[o] = s.ap[o])
      ∧ t.ap[u] = { s.ap[u] with
          apid := (s.ap[u].apid + 1#32) &&& ringMask s.par.aplog, stages := t.ap[u].stages }
      ∧ (∀ j : Fin Config.nstagemax, s.ap[u].nstage.val ≤ j.val → t.ap[u].stages[j] = s.ap[u].stages[j])
      ∧ (∀ j : Fin Config.nstagemax, OnlySlot s.par.n s.ap[u].apid s.ap[u].stages[j].m t.ap[u].stages[j].m)
      ∧ ∀ i : Lane, i.val < s.par.n →
        ∃ y : Nat → Sample, y 0 = s.l[ld][i] ∧ t.l[ld][i] = y s.ap[u].nstage.val
          ∧ ∀ j : Fin Config.nstagemax, j.val < s.ap[u].nstage.val →
            let c := s.ap[u]
            let g := s.ap[u].stages[j]
            let d := fun op : Nat => s.at i (8 * j + op)
            let old := Memory.read g.m (((c.apid - c.ik[i]) &&& ringMask s.par.aplog).toNat * 8 + i.val)
            let v := fsub (d 1) (y j) (fmul (d 0) c.a1[i] old)
            let x := fadd (d 3) (fmul (d 2) c.a1[i] v) old
            let w := fsub (d 5) x (fmul (d 4) c.a2[i] g.s2[i])
            Memory.read t.ap[u].stages[j].m (cell c.apid i) = v
              ∧ t.ap[u].stages[j].s2[i] = g.s1[i] ∧ t.ap[u].stages[j].s1[i] = w
              ∧ y (j + 1) = fadd (d 7) (fmul (d 6) c.a2[i] w) g.s2[i])

/-- R197, R198: EQN filters every lane through its memory at KEQ and 2 KEQ slots back (2 KEQ modulo 2^32), writes w at
the cursor, and moves the cursor. Premise: the memory is canonical, as the invariant says. The pseudocode is followed
where the corners of R198 differ from it for zeros and infinities: the model's choice (log entry 30). -/
def Obligations.EqSection : Prop :=
  ∀ (s : State) (ld : LReg),
    NeedsInit (.eqn ld) s ∧ (s.status.initd = true → Memory.wf s.eq.eqm = true →
    ∃ t, exec (.eqn ld) s = .next t ∧ t = { s with l := t.l, eq := t.eq } ∧ OnlyLanesOf ld s t
      ∧ t.eq = { s.eq with eqid := (s.eq.eqid + 1#32) &&& ringMask s.par.eqlog, eqm := t.eq.eqm }
      ∧ OnlySlot s.par.n s.eq.eqid s.eq.eqm t.eq.eqm
      ∧ ∀ i : Lane, i.val < s.par.n →
        let d := fun op : Nat => s.at i op
        let w1 := Memory.read s.eq.eqm (((s.eq.eqid - s.eq.keq[i]) &&& ringMask s.par.eqlog).toNat * 8 + i.val)
        let w2 := Memory.read s.eq.eqm (((s.eq.eqid - 2#32 * s.eq.keq[i]) &&& ringMask s.par.eqlog).toNat * 8 + i.val)
        let w := fsub (d 3) (fsub (d 1) s.l[ld][i] (fmul (d 0) s.eq.a1[i] w1)) (fmul (d 2) s.eq.a2[i] w2)
        Memory.read t.eq.eqm (cell s.eq.eqid i) = w
          ∧ t.l[ld][i] = fadd (d 8) (fadd (d 6) (fmul (d 4) s.eq.b0[i] w) (fmul (d 5) s.eq.b1[i] w1))
              (fmul (d 7) s.eq.b2[i] w2))

/-! The tape (46_tape.md). -/

/-- R244: TSPD moves SPEED by floor((TSPEED - SPEED) / 2^SPDSH), the difference taken modulo 2^64 as signed, and gives
the new SPEED. -/
def Obligations.SpeedStep : Prop :=
  ∀ (s : State) (rd : XReg),
    NeedsInit (.tspd rd) s ∧ (s.status.initd = true →
    ∃ t, exec (.tspd rd) s = .next t
      ∧ t = { s with x := t.x, tape := { s.tape with speed := t.tape.speed } }
      ∧ (∀ r : XReg, r ≠ rd → t.x[r] = s.x[r]) ∧ t.x[rd] = t.tape.speed
      ∧ t.tape.speed =
          s.tape.speed + BitVec.ofInt 64 ((s.tape.tspeed - s.tape.speed).toInt / 2 ^ s.tape.spdsh.toNat))

/-- R246: TWR advances XWRITE by X[rs], writes that time and the frame of L[ls] in the slot at the cursor of buffer
WBUF, and advances that cursor; every other slot and the other buffer are as before. Premise: the memories are
canonical, as the invariant says. -/
def Obligations.TapeWrite : Prop :=
  ∀ (s : State) (ls : LReg) (rs : XReg),
    NeedsInit (.twr ls rs) s ∧ (s.status.initd = true → s.memoriesWf →
    let b := s.tape.bufs[s.tape.wbuf]
    ∃ t, exec (.twr ls rs) s = .next t
      ∧ t = { s with tape := { s.tape with xwrite := s.tape.xwrite + s.x[rs], bufs := t.tape.bufs } }
      ∧ (∀ o : Fin 2, o ≠ s.tape.wbuf → t.tape.bufs[o] = s.tape.bufs[o])
      ∧ t.tape.bufs[s.tape.wbuf].nw = (b.nw + 1#32) &&& ringMask s.par.tlog
      ∧ Memory.read t.tape.bufs[s.tape.wbuf].tv b.nw.toNat = s.tape.xwrite + s.x[rs]
      ∧ (∀ a : Nat, a ≠ b.nw.toNat → Memory.read t.tape.bufs[s.tape.wbuf].tv a = Memory.read b.tv a)
      ∧ ∀ c : Fin 2, c.val < s.par.nch →
          Memory.read t.tape.bufs[s.tape.wbuf].ts[c] b.nw.toNat = s.l[ls][c.val]
            ∧ ∀ a : Nat, a ≠ b.nw.toNat → Memory.read t.tape.bufs[s.tape.wbuf].ts[c] a = Memory.read b.ts[c] a)

/-- R250, R254, R256, R257: TSEEK moves tap k to its target, to the slot the search finds, with FRAC, PBS, the history
in write order and the four flags; nothing else changes. -/
def Obligations.TapeSeek : Prop :=
  ∀ (s : State) (rs : XReg) (k : Fin 2),
    NeedsInit (.tseek rs k) s ∧ (s.status.initd = true →
    let p := s.tape.taps[k]
    let b := s.tape.bufs[p.buf]
    let m := ringMask s.par.tlog
    let time : Word → XWord := fun n => Memory.read b.tv n.toNat
    let target := if p.dir = .forwards then s.tape.xwrite - 0x2000000000000000#64 else p.xread - s.x[rs]
    let hit := searchFrom (fun q => time ((b.nw + BitVec.ofNat 32 q) &&& m)) target (2 ^ s.par.tlog - 1)
      ((p.nread - b.nw) &&& m).toNat
    let n := (b.nw + BitVec.ofNat 32 hit.pos) &&& m
    -- the slots moved, read as a two's complement number of TLOG bits below
    let moved := ((n - p.nread) &&& m).toNat
    let hist : Fin 2 → Int → Sample := fun c e => Memory.read b.ts[c] ((n + BitVec.ofInt 32 e) &&& m).toNat
    ∃ t, exec (.tseek rs k) s = .next t
      ∧ t = { s with status := t.status, tape := { s.tape with taps := t.tape.taps } }
      ∧ (∀ o : Fin 2, o ≠ k → t.tape.taps[o] = s.tape.taps[o])
      ∧ (let q := t.tape.taps[k]
         q.prevn = p.nread ∧ q.prevf = p.frac ∧ q.xread = target ∧ q.nread = n
          ∧ q.dir = p.dir ∧ q.buf = p.buf ∧ q.xrevstop = p.xrevstop ∧ q.aas = p.aas
          ∧ q.frac = (if hit.isUnder = true ∨ hit.isOver = true then 0#32
              else fdiv (s.at 0 0) (i2f (target - time n).toInt) (i2f (time ((n + 1#32) &&& m) - time n).toInt))
          ∧ q.pbs = (fadd (s.at 0 2) (i2f (if 2 * moved < 2 ^ s.par.tlog then moved else (moved : Int) - 2 ^ s.par.tlog))
              (fsub (s.at 0 1) q.frac p.frac)) &&& 0x7FFFFFFF#32
          ∧ (∀ c : Fin 2, c.val < s.par.nch →
              q.ym1[c] = hist c (-1) ∧ q.y0[c] = hist c 0 ∧ q.y1[c] = hist c 1 ∧ q.y2[c] = hist c 2)
          ∧ t.status = { s.status with
              tapUnder := s.status.tapUnder || hit.isUnder
              tapOver := s.status.tapOver || hit.isOver
              revstop := s.status.revstop || (p.dir == .backwards && decide (0 < (p.xrevstop - target).toInt))
              fast := if k = s.tape.cur then fgt q.pbs s.tape.fastth else s.status.fast }))

/-- R252 and 93_implementation_defined.md U2: in every state, and from every starting position, the search ends on a
position of the buffer; unless it parks, the target lies between that entry and the next, whose times differ; it parks
under on the oldest entry, which is later than the target, or over on the newest, which is not. -/
def Obligations.SearchBracketsTheTarget : Prop :=
  ∀ (times : Nat → XWord) (target : XWord) (top p0 : Nat), p0 ≤ top →
    let h := searchFrom times target top p0
    h.pos ≤ top ∧ (h.isUnder = true → h.isOver = false)
      ∧ (h.isUnder = false → h.isOver = false →
          h.pos < top ∧ ¬(0 < (times h.pos - target).toInt) ∧ 0 < (times (h.pos + 1) - target).toInt
            ∧ times (h.pos + 1) ≠ times h.pos)
      ∧ (h.isUnder = true → h.pos = 0 ∧ 0 < (times 0 - target).toInt)
      ∧ (h.isOver = true → h.pos = top ∧ ¬(0 < (times top - target).toInt))

/-- R252: where the entries not later than the target come before those later (the invariant of 10_state.md R42), the
search returns the largest position whose time is not later, under when there is none, over when it is the newest;
so the result does not depend on the starting position. -/
def Obligations.SearchFindsTheFloorSlot : Prop :=
  ∀ (times : Nat → XWord) (target : XWord) (top p0 : Nat), p0 ≤ top →
    (∀ p q : Nat, p ≤ q → q ≤ top → ¬(0 < (times q - target).toInt) → ¬(0 < (times p - target).toInt)) →
    let h := searchFrom times target top p0
    (h.isUnder = true ↔ ∀ p, p ≤ top → 0 < (times p - target).toInt)
      ∧ (h.isOver = true ↔ ¬(0 < (times top - target).toInt))
      ∧ (h.isUnder = false → h.pos ≤ top ∧ ¬(0 < (times h.pos - target).toInt)
          ∧ ∀ p, p ≤ top → ¬(0 < (times p - target).toInt) → p ≤ h.pos)
      ∧ ∀ p1, p1 ≤ top → searchFrom times target top p1 = h

/-- R260: TRD gives the Hermite value of the tap's history, smoothed through AAS while the tap is fast; the lanes from
NCH to N - 1 get +0.0; the tap does not move. -/
def Obligations.TapeRead : Prop :=
  ∀ (s : State) (ld : LReg) (k : Fin 2),
    NeedsInit (.trd ld k) s ∧ (s.status.initd = true → Params.legal s.par = true →
    let p := s.tape.taps[k]
    ∃ t, exec (.trd ld k) s = .next t ∧ t = { s with l := t.l, tape := { s.tape with taps := t.tape.taps } }
      ∧ OnlyLanesOf ld s t ∧ (∀ o : Fin 2, o ≠ k → t.tape.taps[o] = s.tape.taps[o])
      ∧ t.tape.taps[k] = { p with aas := t.tape.taps[k].aas }
      ∧ (∀ c : Fin 2, c.val < s.par.nch →
          let h := herm (s.at c) p.ym1[c] p.y0[c] p.y1[c] p.y2[c] p.frac
          t.tape.taps[k].aas[c] = (if fgt p.pbs s.tape.fastth = true then
              fadd (s.at c 21) p.aas[c] (fmul (s.at c 20) s.tape.aacoef (fsub (s.at c 19) h p.aas[c])) else h)
            ∧ t.l[ld][c.val] = t.tape.taps[k].aas[c])
      ∧ ∀ i : Lane, s.par.nch ≤ i.val → i.val < s.par.n → t.l[ld][i] = 0#32)

/-- R262, R263, R264: TREV sets up the other tap and starts a fade, or sets REVDROP while one runs; TMODE writes the
mode and reverses when it wants the other direction. -/
def Obligations.Reversal : Prop :=
  ∀ s : State,
    NeedsInit .trev s ∧ (∀ m, NeedsInit (.tmode m) s) ∧ (s.status.initd = true →
    let o := s.tape.taps[s.tape.cur]
    let n : Fin 2 := if s.tape.cur = 0 then 1 else 0
    let newest := (s.tape.bufs[s.tape.wbuf].nw - 1#32) &&& ringMask s.par.tlog
    let zero : Vector Sample 2 := Vector.replicate 2 0#32
    let tap : Tap :=
      { dir := if o.dir = .forwards then .backwards else .forwards, buf := s.tape.wbuf, nread := newest
        xread := s.tape.xwrite - 0x2000000000000000#64
        xrevstop := s.tape.xwrite - 0x2000000000000000#64 - 0x2000000000000000#64
        frac := 0#32, prevf := 0#32, pbs := 0#32, prevn := newest
        ym1 := zero, y0 := zero, y1 := zero, y2 := zero, aas := zero }
    let turned : Tape := { s.tape with taps := s.tape.taps.set n tap, cur := n, fcnt := 0#9 }
    (s.status.fading = false →
        exec .trev s = .next { s with status := { s.status with fading := true }, tape := turned })
      ∧ (s.status.fading = true → exec .trev s = .next { s with status := { s.status with revdrop := true } })
      ∧ ∀ m : Mode,
        let turns := (m = .normal ∧ o.dir = .backwards) ∨ (m = .reverse ∧ o.dir = .forwards)
        (¬turns → exec (.tmode m) s = .next { s with tape := { s.tape with mode := m } })
          ∧ (turns → s.status.fading = false →
              exec (.tmode m) s =
                .next { s with status := { s.status with fading := true }, tape := { turned with mode := m } })
          ∧ (turns → s.status.fading = true →
              exec (.tmode m) s =
                .next { s with status := { s.status with revdrop := true }, tape := { s.tape with mode := m } }))

/-- R266: TMIX copies the current tap's sample while no fade runs, and otherwise blends old + g (new - old) with
g = FADEWIN[FCNT] in the channels and counts the sample; the 256th ends the fade. The pseudocode is followed where the
corner g = 0 differs from it for zeros and infinities: the model's choice (log entry 30). -/
def Obligations.TapeMix : Prop :=
  ∀ (s : State) (ld lcur lold : LReg),
    NeedsInit (.tmix ld lcur lold) s ∧ (s.status.initd = true → Params.legal s.par = true →
    ∃ t, exec (.tmix ld lcur lold) s = .next t ∧ OnlyLanesOf ld s t
      ∧ t = { s with
          l := t.l, status := { s.status with fading := t.status.fading }
          tape := { s.tape with fcnt := t.tape.fcnt } }
      ∧ (s.status.fading = false → t.status.fading = false ∧ t.tape.fcnt = s.tape.fcnt
          ∧ ∀ i : Lane, i.val < s.par.n → t.l[ld][i] = s.l[lcur][i])
      ∧ (s.status.fading = true →
          (∀ c : Fin 2, c.val < s.par.nch →
              t.l[ld][c.val] = fadd (s.at c 2) s.l[lold][c.val]
                (fmul (s.at c 1) (fadeAt s.par.fadewin s.tape.fcnt.toNat)
                  (fsub (s.at c 0) s.l[lcur][c.val] s.l[lold][c.val])))
            ∧ (∀ i : Lane, s.par.nch ≤ i.val → i.val < s.par.n → t.l[ld][i] = s.l[lcur][i])
            ∧ (s.tape.fcnt.toNat + 1 = 256 → t.status.fading = false ∧ t.tape.fcnt = 0#9)
            ∧ (s.tape.fcnt.toNat + 1 ≠ 256 → t.status.fading = true ∧ t.tape.fcnt = s.tape.fcnt + 1#9)))

/-- R261, R266: a fade that has just started lasts exactly 256 TMIX commands. -/
def Obligations.FadeLasts256 : Prop :=
  ∀ (s : State) (ld lcur lold : LReg), s.status.initd = true → s.status.fading = true → s.tape.fcnt = 0#9 →
    (∀ k : Nat, k < 256 → ∃ t, execTimes (.tmix ld lcur lold) k s = .next t ∧ t.status.fading = true
        ∧ t.tape.fcnt.toNat = k)
      ∧ ∃ t, execTimes (.tmix ld lcur lold) 256 s = .next t ∧ t.status.fading = false ∧ t.tape.fcnt = 0#9

/-- R270: with a constant increment X[rs], a forward tap sought after K writes stands at XWRITE + K X[rs] - DELAYUNIT;
a reversal after the K writes and K backward seeks bring the new tap to XWRITE - DELAYUNIT, where the forward tap
stood at the start. -/
def Obligations.ForwardReverseSymmetry : Prop :=
  ∀ (s : State) (ls : LReg) (rs : XReg) (K : Nat), s.status.initd = true → s.status.fading = false →
    s.tape.taps[s.tape.cur].dir = .forwards →
    ∃ s1, execTimes (.twr ls rs) K s = .next s1
      ∧ (∃ f, exec (.tseek rs s1.tape.cur) s1 = .next f
          ∧ f.tape.taps[s1.tape.cur].xread
              = s.tape.xwrite + BitVec.ofNat 64 K * s.x[rs] - 0x2000000000000000#64)
      ∧ ∃ s2, exec .trev s1 = .next s2
        ∧ s2.tape.taps[s2.tape.cur].xread
            = s.tape.xwrite + BitVec.ofNat 64 K * s.x[rs] - 0x2000000000000000#64
        ∧ ∃ s3, execTimes (.tseek rs s2.tape.cur) K s2 = .next s3
          ∧ s3.tape.taps[s2.tape.cur].xread = s.tape.xwrite - 0x2000000000000000#64

/-! Sample arithmetic (00_scope.md R9). -/

/-- R9: sums and differences of finite Samples are the exact results rounded once; an exact zero is +0.0 unless both
terms are negative zeros, the second term of a difference being negated (so x - x is +0.0, R213). The sign of a zero
is that of IEEE 754 (log entry 21). -/
def Obligations.SampleSumsRoundOnce : Prop :=
  ∀ (d : Draw) (a b : Sample), isFinite a = true → isFinite b = true →
    RoundsTo (valQ a + valQ b) (fadd d a b) ∧ RoundsTo (valQ a - valQ b) (fsub d a b)
      ∧ (valQ a + valQ b = 0 →
          fadd d a b = if a = 0x80000000#32 ∧ b = 0x80000000#32 then 0x80000000#32 else 0#32)
      ∧ (valQ a - valQ b = 0 →
          fsub d a b = if a = 0x80000000#32 ∧ b = 0#32 then 0x80000000#32 else 0#32)

/-- R9: products and quotients of finite Samples, and conversions of integers, are the exact results rounded once;
the sign of a product or quotient is the exclusive or of the signs, also of a zero (U13: IEEE signs are kept). That
sign and the bound from which a result is an infinity are the model's reading of R9, from IEEE 754 (log entry 21). -/
def Obligations.SampleProductsRoundOnce : Prop :=
  (∀ (d : Draw) (a b : Sample), isFinite a = true → isFinite b = true →
      RoundsTo (valQ a * valQ b) (fmul d a b) ∧ signBit (fmul d a b) = (signBit a != signBit b)
        ∧ (isZero b = false →
            RoundsTo (valQ a / valQ b) (fdiv d a b) ∧ signBit (fdiv d a b) = (signBit a != signBit b)))
    ∧ ∀ z : Int, RoundsTo z (i2f z) ∧ i2f 0 = 0#32

/-- R9: an operation gives a NaN exactly when an operand is one or the operation is invalid, and the NaN is quiet;
infinities propagate with their signs; a finite number over an infinity is a zero; a finite number other than zero over
zero is an infinity. R256: the order of Samples is that of their values, infinities beyond every finite one, and false
when either is a NaN. What R9 does not spell out is IEEE 754's (log entries 21, 28). -/
def Obligations.SampleSpecialValues : Prop :=
  ∀ (d : Draw) (a b : Sample),
    (isNaN (fadd d a b) = (isNaN a || isNaN b || (isInf a && isInf b && signBit a != signBit b))
        ∧ isNaN (fsub d a b) = (isNaN a || isNaN b || (isInf a && isInf b && signBit a == signBit b))
        ∧ isNaN (fmul d a b) = (isNaN a || isNaN b || (isInf a && isZero b) || (isZero a && isInf b))
        ∧ isNaN (fdiv d a b) = (isNaN a || isNaN b || (isInf a && isInf b) || (isZero a && isZero b)))
      ∧ (∀ r, r = fadd d a b ∨ r = fsub d a b ∨ r = fmul d a b ∨ r = fdiv d a b → isNaN r = true →
          r.getLsbD 22 = true)
      ∧ (isInf a = true → isFinite b = true →
          fadd d a b = a ∧ fadd d b a = a ∧ fsub d a b = a ∧ fsub d b a = infOf (!signBit a)
            ∧ fdiv d a b = infOf (signBit a != signBit b) ∧ fdiv d b a = zeroOf (signBit a != signBit b))
      ∧ (isInf a = true → isInf b = true →
          (signBit a = signBit b → fadd d a b = a) ∧ (signBit a ≠ signBit b → fsub d a b = a))
      ∧ (isInf a = true → isNaN b = false → isZero b = false →
          fmul d a b = infOf (signBit a != signBit b) ∧ fmul d b a = infOf (signBit a != signBit b))
      ∧ (isFinite a = true → isZero a = false → isZero b = true → fdiv d a b = infOf (signBit a != signBit b))
      ∧ (isNaN a = true ∨ isNaN b = true → fgt a b = false)
      ∧ (isFinite a = true → isFinite b = true → (fgt a b = true ↔ valQ b < valQ a))
      ∧ (isInf a = true → isFinite b = true → fgt a b = !signBit a ∧ fgt b a = signBit a)
      ∧ (isInf a = true → isInf b = true → fgt a b = (!signBit a && signBit b))
end

