-- ==== Sys2Proof/Laws/Memory.lean ====
section
/-! SUPPORT. The laws of the private memories: read after write, frames, and that every write keeps the canonical
form (20_memory.md R71, R79 b). -/

namespace Sys2Proof.Machine

variable {w : Nat}

@[simp] theorem Memory.read_nil (a : Nat) : Memory.read ([] : Memory w) a = 0#w := rfl

theorem Memory.read_cons (k : Nat) (v : BitVec w) (t : Memory w) (a : Nat) :
    Memory.read ((k, v) :: t) a = if k = a then v else Memory.read t a := rfl

/-- A write leaves every other key as it was, whatever the list. -/
theorem Memory.read_write_ne (m : Memory w) (a b : Nat) (v : BitVec w) (h : b ≠ a) :
    Memory.read (Memory.write m a v) b = Memory.read m b := by
  induction m with
  | nil => by_cases hv : v = 0#w <;> simp [Memory.write, Memory.read, hv, Ne.symm h]
  | cons e t ih =>
    obtain ⟨k, u⟩ := e
    simp only [Memory.write]
    by_cases h1 : a < k
    · by_cases hv : v = 0#w <;> simp [h1, hv, Memory.read, Ne.symm h]
    · by_cases h2 : a = k
      · subst h2
        by_cases hv : v = 0#w <;> simp [hv, Memory.read, Ne.symm h]
      · simp only [h1, h2, if_false, Memory.read_cons, ih]

theorem Memory.wfFrom_mono {lo lo' : Nat} {m : Memory w} (hm : Memory.wfFrom lo m = true) (h : lo' ≤ lo) :
    Memory.wfFrom lo' m = true := by
  cases m with
  | nil => rfl
  | cons e t =>
    simp only [Memory.wfFrom, Bool.and_eq_true, decide_eq_true_eq] at hm ⊢
    exact ⟨⟨by omega, hm.1.2⟩, hm.2⟩

/-- A key below every listed key reads 0. -/
theorem Memory.read_below {lo : Nat} {m : Memory w} (hm : Memory.wfFrom lo m = true) {a : Nat} (h : a < lo) :
    Memory.read m a = 0#w := by
  induction m generalizing lo with
  | nil => rfl
  | cons e t ih =>
    simp only [Memory.wfFrom, Bool.and_eq_true, decide_eq_true_eq] at hm
    rw [Memory.read_cons, if_neg (by omega), ih hm.2 (by omega)]

theorem Memory.read_write_self_from {lo : Nat} (m : Memory w) (hm : Memory.wfFrom lo m = true) (a : Nat)
    (v : BitVec w) : Memory.read (Memory.write m a v) a = v := by
  induction m generalizing lo with
  | nil => by_cases hv : v = 0#w <;> simp [Memory.write, Memory.read, hv]
  | cons e t ih =>
    obtain ⟨k, u⟩ := e
    simp only [Memory.wfFrom, Bool.and_eq_true, decide_eq_true_eq] at hm
    simp only [Memory.write]
    by_cases h1 : a < k
    · by_cases hv : v = 0#w
      · simp [h1, hv, Memory.read_cons, Nat.ne_of_gt h1, Memory.read_below hm.2 (Nat.lt_succ_of_lt h1)]
      · simp [h1, hv, Memory.read_cons]
    · by_cases h2 : a = k
      · subst h2
        by_cases hv : v = 0#w
        · simp [hv, Memory.read_below hm.2 (Nat.lt_succ_self a)]
        · simp [hv, Memory.read_cons]
      · simp only [h1, h2, if_false, Memory.read_cons, Ne.symm h2]
        exact ih hm.2

/-- A read after a write to the same key gives the word written. -/
theorem Memory.read_write_self (m : Memory w) (hm : Memory.wf m = true) (a : Nat) (v : BitVec w) :
    Memory.read (Memory.write m a v) a = v := Memory.read_write_self_from m hm a v

theorem Memory.wfFrom_write {lo : Nat} {m : Memory w} (hm : Memory.wfFrom lo m = true) {a : Nat} (ha : lo ≤ a)
    (v : BitVec w) : Memory.wfFrom lo (Memory.write m a v) = true := by
  induction m generalizing lo with
  | nil => by_cases hv : v = 0#w <;> simp [Memory.write, Memory.wfFrom, hv, ha]
  | cons e t ih =>
    obtain ⟨k, u⟩ := e
    have hm' := hm
    simp only [Memory.wfFrom, Bool.and_eq_true, decide_eq_true_eq] at hm
    simp only [Memory.write]
    by_cases h1 : a < k
    · by_cases hv : v = 0#w
      · simpa [h1, hv] using hm'
      · simp only [h1, hv, if_true, if_false, Memory.wfFrom, Bool.and_eq_true, decide_eq_true_eq]
        exact ⟨⟨ha, by simpa using hv⟩, ⟨⟨by omega, hm.1.2⟩, hm.2⟩⟩
    · by_cases h2 : a = k
      · by_cases hv : v = 0#w
        · simpa [h2, hv] using Memory.wfFrom_mono hm.2 (by omega)
        · simp only [h2, hv, if_true, if_false, lt_irrefl, Memory.wfFrom, Bool.and_eq_true, decide_eq_true_eq]
          exact ⟨⟨hm.1.1, by simpa using hv⟩, hm.2⟩
      · simp only [h1, h2, if_false, Memory.wfFrom, Bool.and_eq_true, decide_eq_true_eq]
        exact ⟨hm.1, ih hm.2 (by omega)⟩

/-- A write keeps the canonical form. -/
theorem Memory.wf_write (m : Memory w) (hm : Memory.wf m = true) (a : Nat) (v : BitVec w) :
    Memory.wf (Memory.write m a v) = true := Memory.wfFrom_write hm (Nat.zero_le a) v

/-- Writing lanes keeps the canonical form. -/
theorem writeLanes_wf (m : Memory 32) (hm : Memory.wf m = true) (slot : Word) (v : Lanes) (k : Nat) :
    Memory.wf (writeLanes m slot v k) = true := by
  induction k with
  | zero => exact hm
  | succ k ih =>
    simp only [writeLanes]
    split
    · exact Memory.wf_write _ ih _ _
    · exact ih

/-- Two lanes of two slots share a key only if they are the same lane of the same slot. -/
theorem cell_inj {a b : Word} {i j : Lane} (h : cell a i = cell b j) : a = b ∧ i = j := by
  simp only [cell] at h
  have hi := i.isLt
  have hj := j.isLt
  exact ⟨BitVec.eq_of_toNat_eq (by omega), Fin.ext (by omega)⟩

/-- Writing lanes 0 to k - 1 of a slot leaves every other key as it was. -/
theorem read_writeLanes_ne (m : Memory 32) (slot : Word) (v : Lanes) (k a : Nat)
    (h : ∀ i : Lane, i.val < k → a ≠ cell slot i) : Memory.read (writeLanes m slot v k) a = Memory.read m a := by
  induction k with
  | zero => rfl
  | succ k ih =>
    simp only [writeLanes]
    split
    · next hk =>
      rw [Memory.read_write_ne _ _ _ _ (h ⟨k, hk⟩ (Nat.lt_succ_self k)),
        ih fun i hi => h i (Nat.lt_succ_of_lt hi)]
    · exact ih fun i hi => h i (Nat.lt_succ_of_lt hi)

/-- What a lane's key holds after lanes 0 to k - 1 of a slot were written. -/
theorem read_writeLanes_self (m : Memory 32) (hm : Memory.wf m = true) (slot : Word) (v : Lanes) (k : Nat) (i : Lane)
    (hi : i.val < k) : Memory.read (writeLanes m slot v k) (cell slot i) = v[i] := by
  induction k with
  | zero => omega
  | succ k ih =>
    simp only [writeLanes]
    by_cases hk : k < 8
    · rw [dif_pos hk]
      by_cases h : i.val = k
      · have hc : cell slot i = cell slot ⟨k, hk⟩ := by simp [cell, h]
        rw [hc, Memory.read_write_self _ (writeLanes_wf m hm slot v k)]
        simp [h]
      · rw [Memory.read_write_ne _ _ _ _ (fun hc => h (congrArg Fin.val (cell_inj hc).2)), ih (by omega)]
    · rw [dif_neg hk]
      exact ih (by have := i.isLt; omega)

/-- A slot masked once is masked. -/
@[simp] theorem ringMask_and_and (log : Nat) (c : Word) : c &&& ringMask log &&& ringMask log = c &&& ringMask log := by
  rw [BitVec.and_assoc, BitVec.and_self]

end Sys2Proof.Machine
end

