-- ==== Sys2Proof/Laws/State.lean ====
section
/-! SUPPORT. One lemma per field per update of the state, true by rfl, so that no proof unfolds a record update; and
what is read from a register after an update. -/

namespace Sys2Proof.Machine

/-! `setX` -/

@[simp] theorem setX_par (s : State) (r : XReg) (v : XWord) : (s.setX r v).par = s.par := rfl
@[simp] theorem setX_inbox (s : State) (r : XReg) (v : XWord) : (s.setX r v).inbox = s.inbox := rfl
@[simp] theorem setX_index (s : State) (r : XReg) (v : XWord) : (s.setX r v).index = s.index := rfl
@[simp] theorem setX_draw (s : State) (r : XReg) (v : XWord) : (s.setX r v).draw = s.draw := rfl
@[simp] theorem setX_lastRead (s : State) (r : XReg) (v : XWord) : (s.setX r v).lastRead = s.lastRead := rfl
@[simp] theorem setX_x (s : State) (r : XReg) (v : XWord) : (s.setX r v).x = s.x.set r v := rfl
@[simp] theorem setX_l (s : State) (r : XReg) (v : XWord) : (s.setX r v).l = s.l := rfl
@[simp] theorem setX_status (s : State) (r : XReg) (v : XWord) : (s.setX r v).status = s.status := rfl
@[simp] theorem setX_faultinfo (s : State) (r : XReg) (v : XWord) : (s.setX r v).faultinfo = s.faultinfo := rfl
@[simp] theorem setX_decm (s : State) (r : XReg) (v : XWord) : (s.setX r v).decm = s.decm := rfl
@[simp] theorem setX_deccnt (s : State) (r : XReg) (v : XWord) : (s.setX r v).deccnt = s.deccnt := rfl
@[simp] theorem setX_ph (s : State) (r : XReg) (v : XWord) : (s.setX r v).ph = s.ph := rfl
@[simp] theorem setX_sos (s : State) (r : XReg) (v : XWord) : (s.setX r v).sos = s.sos := rfl
@[simp] theorem setX_lp1 (s : State) (r : XReg) (v : XWord) : (s.setX r v).lp1 = s.lp1 := rfl
@[simp] theorem setX_dcb (s : State) (r : XReg) (v : XWord) : (s.setX r v).dcb = s.dcb := rfl
@[simp] theorem setX_dl (s : State) (r : XReg) (v : XWord) : (s.setX r v).dl = s.dl := rfl
@[simp] theorem setX_lcg (s : State) (r : XReg) (v : XWord) : (s.setX r v).lcg = s.lcg := rfl
@[simp] theorem setX_ap (s : State) (r : XReg) (v : XWord) : (s.setX r v).ap = s.ap := rfl
@[simp] theorem setX_eq (s : State) (r : XReg) (v : XWord) : (s.setX r v).eq = s.eq := rfl
@[simp] theorem setX_prm (s : State) (r : XReg) (v : XWord) : (s.setX r v).prm = s.prm := rfl
@[simp] theorem setX_tape (s : State) (r : XReg) (v : XWord) : (s.setX r v).tape = s.tape := rfl

/-! `setL` -/

@[simp] theorem setL_par (s : State) (r : LReg) (v : Lanes) : (s.setL r v).par = s.par := rfl
@[simp] theorem setL_inbox (s : State) (r : LReg) (v : Lanes) : (s.setL r v).inbox = s.inbox := rfl
@[simp] theorem setL_index (s : State) (r : LReg) (v : Lanes) : (s.setL r v).index = s.index := rfl
@[simp] theorem setL_draw (s : State) (r : LReg) (v : Lanes) : (s.setL r v).draw = s.draw := rfl
@[simp] theorem setL_lastRead (s : State) (r : LReg) (v : Lanes) : (s.setL r v).lastRead = s.lastRead := rfl
@[simp] theorem setL_x (s : State) (r : LReg) (v : Lanes) : (s.setL r v).x = s.x := rfl
@[simp] theorem setL_l (s : State) (r : LReg) (v : Lanes) : (s.setL r v).l = s.l.set r v := rfl
@[simp] theorem setL_status (s : State) (r : LReg) (v : Lanes) : (s.setL r v).status = s.status := rfl
@[simp] theorem setL_faultinfo (s : State) (r : LReg) (v : Lanes) : (s.setL r v).faultinfo = s.faultinfo := rfl
@[simp] theorem setL_decm (s : State) (r : LReg) (v : Lanes) : (s.setL r v).decm = s.decm := rfl
@[simp] theorem setL_deccnt (s : State) (r : LReg) (v : Lanes) : (s.setL r v).deccnt = s.deccnt := rfl
@[simp] theorem setL_ph (s : State) (r : LReg) (v : Lanes) : (s.setL r v).ph = s.ph := rfl
@[simp] theorem setL_sos (s : State) (r : LReg) (v : Lanes) : (s.setL r v).sos = s.sos := rfl
@[simp] theorem setL_lp1 (s : State) (r : LReg) (v : Lanes) : (s.setL r v).lp1 = s.lp1 := rfl
@[simp] theorem setL_dcb (s : State) (r : LReg) (v : Lanes) : (s.setL r v).dcb = s.dcb := rfl
@[simp] theorem setL_dl (s : State) (r : LReg) (v : Lanes) : (s.setL r v).dl = s.dl := rfl
@[simp] theorem setL_lcg (s : State) (r : LReg) (v : Lanes) : (s.setL r v).lcg = s.lcg := rfl
@[simp] theorem setL_ap (s : State) (r : LReg) (v : Lanes) : (s.setL r v).ap = s.ap := rfl
@[simp] theorem setL_eq (s : State) (r : LReg) (v : Lanes) : (s.setL r v).eq = s.eq := rfl
@[simp] theorem setL_prm (s : State) (r : LReg) (v : Lanes) : (s.setL r v).prm = s.prm := rfl
@[simp] theorem setL_tape (s : State) (r : LReg) (v : Lanes) : (s.setL r v).tape = s.tape := rfl

/-! `mapL` -/

@[simp] theorem mapL_par (s : State) (r : LReg) (f : Lane → Sample) : (s.mapL r f).par = s.par := rfl
@[simp] theorem mapL_inbox (s : State) (r : LReg) (f : Lane → Sample) : (s.mapL r f).inbox = s.inbox := rfl
@[simp] theorem mapL_index (s : State) (r : LReg) (f : Lane → Sample) : (s.mapL r f).index = s.index := rfl
@[simp] theorem mapL_draw (s : State) (r : LReg) (f : Lane → Sample) : (s.mapL r f).draw = s.draw := rfl
@[simp] theorem mapL_lastRead (s : State) (r : LReg) (f : Lane → Sample) : (s.mapL r f).lastRead = s.lastRead := rfl
@[simp] theorem mapL_x (s : State) (r : LReg) (f : Lane → Sample) : (s.mapL r f).x = s.x := rfl
@[simp] theorem mapL_l (s : State) (r : LReg) (f : Lane → Sample) : (s.mapL r f).l = s.l.set r (onLanes s.par.n s.l[r] f) := rfl
@[simp] theorem mapL_status (s : State) (r : LReg) (f : Lane → Sample) : (s.mapL r f).status = s.status := rfl
@[simp] theorem mapL_faultinfo (s : State) (r : LReg) (f : Lane → Sample) : (s.mapL r f).faultinfo = s.faultinfo := rfl
@[simp] theorem mapL_decm (s : State) (r : LReg) (f : Lane → Sample) : (s.mapL r f).decm = s.decm := rfl
@[simp] theorem mapL_deccnt (s : State) (r : LReg) (f : Lane → Sample) : (s.mapL r f).deccnt = s.deccnt := rfl
@[simp] theorem mapL_ph (s : State) (r : LReg) (f : Lane → Sample) : (s.mapL r f).ph = s.ph := rfl
@[simp] theorem mapL_sos (s : State) (r : LReg) (f : Lane → Sample) : (s.mapL r f).sos = s.sos := rfl
@[simp] theorem mapL_lp1 (s : State) (r : LReg) (f : Lane → Sample) : (s.mapL r f).lp1 = s.lp1 := rfl
@[simp] theorem mapL_dcb (s : State) (r : LReg) (f : Lane → Sample) : (s.mapL r f).dcb = s.dcb := rfl
@[simp] theorem mapL_dl (s : State) (r : LReg) (f : Lane → Sample) : (s.mapL r f).dl = s.dl := rfl
@[simp] theorem mapL_lcg (s : State) (r : LReg) (f : Lane → Sample) : (s.mapL r f).lcg = s.lcg := rfl
@[simp] theorem mapL_ap (s : State) (r : LReg) (f : Lane → Sample) : (s.mapL r f).ap = s.ap := rfl
@[simp] theorem mapL_eq (s : State) (r : LReg) (f : Lane → Sample) : (s.mapL r f).eq = s.eq := rfl
@[simp] theorem mapL_prm (s : State) (r : LReg) (f : Lane → Sample) : (s.mapL r f).prm = s.prm := rfl
@[simp] theorem mapL_tape (s : State) (r : LReg) (f : Lane → Sample) : (s.mapL r f).tape = s.tape := rfl

/-! `raise` -/

@[simp] theorem raise_par (s : State) (c : Cause) (w : Word) : (s.raise c w).par = s.par := rfl
@[simp] theorem raise_inbox (s : State) (c : Cause) (w : Word) : (s.raise c w).inbox = s.inbox := rfl
@[simp] theorem raise_index (s : State) (c : Cause) (w : Word) : (s.raise c w).index = s.index := rfl
@[simp] theorem raise_draw (s : State) (c : Cause) (w : Word) : (s.raise c w).draw = s.draw := rfl
@[simp] theorem raise_lastRead (s : State) (c : Cause) (w : Word) : (s.raise c w).lastRead = s.lastRead := rfl
@[simp] theorem raise_x (s : State) (c : Cause) (w : Word) : (s.raise c w).x = s.x := rfl
@[simp] theorem raise_l (s : State) (c : Cause) (w : Word) : (s.raise c w).l = s.l := rfl
@[simp] theorem raise_status (s : State) (c : Cause) (w : Word) : (s.raise c w).status = { s.status with fault := some c } := rfl
@[simp] theorem raise_faultinfo (s : State) (c : Cause) (w : Word) : (s.raise c w).faultinfo = w := rfl
@[simp] theorem raise_decm (s : State) (c : Cause) (w : Word) : (s.raise c w).decm = s.decm := rfl
@[simp] theorem raise_deccnt (s : State) (c : Cause) (w : Word) : (s.raise c w).deccnt = s.deccnt := rfl
@[simp] theorem raise_ph (s : State) (c : Cause) (w : Word) : (s.raise c w).ph = s.ph := rfl
@[simp] theorem raise_sos (s : State) (c : Cause) (w : Word) : (s.raise c w).sos = s.sos := rfl
@[simp] theorem raise_lp1 (s : State) (c : Cause) (w : Word) : (s.raise c w).lp1 = s.lp1 := rfl
@[simp] theorem raise_dcb (s : State) (c : Cause) (w : Word) : (s.raise c w).dcb = s.dcb := rfl
@[simp] theorem raise_dl (s : State) (c : Cause) (w : Word) : (s.raise c w).dl = s.dl := rfl
@[simp] theorem raise_lcg (s : State) (c : Cause) (w : Word) : (s.raise c w).lcg = s.lcg := rfl
@[simp] theorem raise_ap (s : State) (c : Cause) (w : Word) : (s.raise c w).ap = s.ap := rfl
@[simp] theorem raise_eq (s : State) (c : Cause) (w : Word) : (s.raise c w).eq = s.eq := rfl
@[simp] theorem raise_prm (s : State) (c : Cause) (w : Word) : (s.raise c w).prm = s.prm := rfl
@[simp] theorem raise_tape (s : State) (c : Cause) (w : Word) : (s.raise c w).tape = s.tape := rfl

/-! `setDl` -/

@[simp] theorem setDl_par (s : State) (u : Fin Config.ndl) (p : DelayLine) : (s.setDl u p).par = s.par := rfl
@[simp] theorem setDl_inbox (s : State) (u : Fin Config.ndl) (p : DelayLine) : (s.setDl u p).inbox = s.inbox := rfl
@[simp] theorem setDl_index (s : State) (u : Fin Config.ndl) (p : DelayLine) : (s.setDl u p).index = s.index := rfl
@[simp] theorem setDl_draw (s : State) (u : Fin Config.ndl) (p : DelayLine) : (s.setDl u p).draw = s.draw := rfl
@[simp] theorem setDl_lastRead (s : State) (u : Fin Config.ndl) (p : DelayLine) : (s.setDl u p).lastRead = s.lastRead := rfl
@[simp] theorem setDl_x (s : State) (u : Fin Config.ndl) (p : DelayLine) : (s.setDl u p).x = s.x := rfl
@[simp] theorem setDl_l (s : State) (u : Fin Config.ndl) (p : DelayLine) : (s.setDl u p).l = s.l := rfl
@[simp] theorem setDl_status (s : State) (u : Fin Config.ndl) (p : DelayLine) : (s.setDl u p).status = s.status := rfl
@[simp] theorem setDl_faultinfo (s : State) (u : Fin Config.ndl) (p : DelayLine) : (s.setDl u p).faultinfo = s.faultinfo := rfl
@[simp] theorem setDl_decm (s : State) (u : Fin Config.ndl) (p : DelayLine) : (s.setDl u p).decm = s.decm := rfl
@[simp] theorem setDl_deccnt (s : State) (u : Fin Config.ndl) (p : DelayLine) : (s.setDl u p).deccnt = s.deccnt := rfl
@[simp] theorem setDl_ph (s : State) (u : Fin Config.ndl) (p : DelayLine) : (s.setDl u p).ph = s.ph := rfl
@[simp] theorem setDl_sos (s : State) (u : Fin Config.ndl) (p : DelayLine) : (s.setDl u p).sos = s.sos := rfl
@[simp] theorem setDl_lp1 (s : State) (u : Fin Config.ndl) (p : DelayLine) : (s.setDl u p).lp1 = s.lp1 := rfl
@[simp] theorem setDl_dcb (s : State) (u : Fin Config.ndl) (p : DelayLine) : (s.setDl u p).dcb = s.dcb := rfl
@[simp] theorem setDl_dl (s : State) (u : Fin Config.ndl) (p : DelayLine) : (s.setDl u p).dl = s.dl.set u p := rfl
@[simp] theorem setDl_lcg (s : State) (u : Fin Config.ndl) (p : DelayLine) : (s.setDl u p).lcg = s.lcg := rfl
@[simp] theorem setDl_ap (s : State) (u : Fin Config.ndl) (p : DelayLine) : (s.setDl u p).ap = s.ap := rfl
@[simp] theorem setDl_eq (s : State) (u : Fin Config.ndl) (p : DelayLine) : (s.setDl u p).eq = s.eq := rfl
@[simp] theorem setDl_prm (s : State) (u : Fin Config.ndl) (p : DelayLine) : (s.setDl u p).prm = s.prm := rfl
@[simp] theorem setDl_tape (s : State) (u : Fin Config.ndl) (p : DelayLine) : (s.setDl u p).tape = s.tape := rfl

/-! `setTap` -/

@[simp] theorem setTap_par (s : State) (t : Fin 2) (p : Tap) : (s.setTap t p).par = s.par := rfl
@[simp] theorem setTap_inbox (s : State) (t : Fin 2) (p : Tap) : (s.setTap t p).inbox = s.inbox := rfl
@[simp] theorem setTap_index (s : State) (t : Fin 2) (p : Tap) : (s.setTap t p).index = s.index := rfl
@[simp] theorem setTap_draw (s : State) (t : Fin 2) (p : Tap) : (s.setTap t p).draw = s.draw := rfl
@[simp] theorem setTap_lastRead (s : State) (t : Fin 2) (p : Tap) : (s.setTap t p).lastRead = s.lastRead := rfl
@[simp] theorem setTap_x (s : State) (t : Fin 2) (p : Tap) : (s.setTap t p).x = s.x := rfl
@[simp] theorem setTap_l (s : State) (t : Fin 2) (p : Tap) : (s.setTap t p).l = s.l := rfl
@[simp] theorem setTap_status (s : State) (t : Fin 2) (p : Tap) : (s.setTap t p).status = s.status := rfl
@[simp] theorem setTap_faultinfo (s : State) (t : Fin 2) (p : Tap) : (s.setTap t p).faultinfo = s.faultinfo := rfl
@[simp] theorem setTap_decm (s : State) (t : Fin 2) (p : Tap) : (s.setTap t p).decm = s.decm := rfl
@[simp] theorem setTap_deccnt (s : State) (t : Fin 2) (p : Tap) : (s.setTap t p).deccnt = s.deccnt := rfl
@[simp] theorem setTap_ph (s : State) (t : Fin 2) (p : Tap) : (s.setTap t p).ph = s.ph := rfl
@[simp] theorem setTap_sos (s : State) (t : Fin 2) (p : Tap) : (s.setTap t p).sos = s.sos := rfl
@[simp] theorem setTap_lp1 (s : State) (t : Fin 2) (p : Tap) : (s.setTap t p).lp1 = s.lp1 := rfl
@[simp] theorem setTap_dcb (s : State) (t : Fin 2) (p : Tap) : (s.setTap t p).dcb = s.dcb := rfl
@[simp] theorem setTap_dl (s : State) (t : Fin 2) (p : Tap) : (s.setTap t p).dl = s.dl := rfl
@[simp] theorem setTap_lcg (s : State) (t : Fin 2) (p : Tap) : (s.setTap t p).lcg = s.lcg := rfl
@[simp] theorem setTap_ap (s : State) (t : Fin 2) (p : Tap) : (s.setTap t p).ap = s.ap := rfl
@[simp] theorem setTap_eq (s : State) (t : Fin 2) (p : Tap) : (s.setTap t p).eq = s.eq := rfl
@[simp] theorem setTap_prm (s : State) (t : Fin 2) (p : Tap) : (s.setTap t p).prm = s.prm := rfl
@[simp] theorem setTap_tape (s : State) (t : Fin 2) (p : Tap) : (s.setTap t p).tape = { s.tape with taps := s.tape.taps.set t p } := rfl

/-! `afterReset` -/

@[simp] theorem afterReset_par (s : State) : (s.afterReset).par = s.par := rfl
@[simp] theorem afterReset_inbox (s : State) : (s.afterReset).inbox = s.inbox := rfl
@[simp] theorem afterReset_index (s : State) : (s.afterReset).index = s.index := rfl
@[simp] theorem afterReset_draw (s : State) : (s.afterReset).draw = s.draw := rfl
@[simp] theorem afterReset_lastRead (s : State) : (s.afterReset).lastRead = s.lastRead := rfl
@[simp] theorem afterReset_x (s : State) : (s.afterReset).x = State.reset.x := rfl
@[simp] theorem afterReset_l (s : State) : (s.afterReset).l = State.reset.l := rfl
@[simp] theorem afterReset_status (s : State) : (s.afterReset).status = State.reset.status := rfl
@[simp] theorem afterReset_faultinfo (s : State) : (s.afterReset).faultinfo = State.reset.faultinfo := rfl
@[simp] theorem afterReset_decm (s : State) : (s.afterReset).decm = State.reset.decm := rfl
@[simp] theorem afterReset_deccnt (s : State) : (s.afterReset).deccnt = State.reset.deccnt := rfl
@[simp] theorem afterReset_ph (s : State) : (s.afterReset).ph = State.reset.ph := rfl
@[simp] theorem afterReset_sos (s : State) : (s.afterReset).sos = State.reset.sos := rfl
@[simp] theorem afterReset_lp1 (s : State) : (s.afterReset).lp1 = State.reset.lp1 := rfl
@[simp] theorem afterReset_dcb (s : State) : (s.afterReset).dcb = State.reset.dcb := rfl
@[simp] theorem afterReset_dl (s : State) : (s.afterReset).dl = State.reset.dl := rfl
@[simp] theorem afterReset_lcg (s : State) : (s.afterReset).lcg = State.reset.lcg := rfl
@[simp] theorem afterReset_ap (s : State) : (s.afterReset).ap = State.reset.ap := rfl
@[simp] theorem afterReset_eq (s : State) : (s.afterReset).eq = State.reset.eq := rfl
@[simp] theorem afterReset_prm (s : State) : (s.afterReset).prm = State.reset.prm := rfl
@[simp] theorem afterReset_tape (s : State) : (s.afterReset).tape = State.reset.tape := rfl

/-! `hostRead` -/

@[simp] theorem hostRead_par (s : State) (a : BitVec 16) : (s.hostRead a).par = s.par := rfl
@[simp] theorem hostRead_inbox (s : State) (a : BitVec 16) : (s.hostRead a).inbox = s.inbox := rfl
@[simp] theorem hostRead_index (s : State) (a : BitVec 16) : (s.hostRead a).index = s.index := rfl
@[simp] theorem hostRead_draw (s : State) (a : BitVec 16) : (s.hostRead a).draw = s.draw := rfl
@[simp] theorem hostRead_lastRead (s : State) (a : BitVec 16) : (s.hostRead a).lastRead = some (s.cfgRead a) := rfl
@[simp] theorem hostRead_x (s : State) (a : BitVec 16) : (s.hostRead a).x = s.x := rfl
@[simp] theorem hostRead_l (s : State) (a : BitVec 16) : (s.hostRead a).l = s.l := rfl
@[simp] theorem hostRead_status (s : State) (a : BitVec 16) : (s.hostRead a).status = s.status := rfl
@[simp] theorem hostRead_faultinfo (s : State) (a : BitVec 16) : (s.hostRead a).faultinfo = s.faultinfo := rfl
@[simp] theorem hostRead_decm (s : State) (a : BitVec 16) : (s.hostRead a).decm = s.decm := rfl
@[simp] theorem hostRead_deccnt (s : State) (a : BitVec 16) : (s.hostRead a).deccnt = s.deccnt := rfl
@[simp] theorem hostRead_ph (s : State) (a : BitVec 16) : (s.hostRead a).ph = s.ph := rfl
@[simp] theorem hostRead_sos (s : State) (a : BitVec 16) : (s.hostRead a).sos = s.sos := rfl
@[simp] theorem hostRead_lp1 (s : State) (a : BitVec 16) : (s.hostRead a).lp1 = s.lp1 := rfl
@[simp] theorem hostRead_dcb (s : State) (a : BitVec 16) : (s.hostRead a).dcb = s.dcb := rfl
@[simp] theorem hostRead_dl (s : State) (a : BitVec 16) : (s.hostRead a).dl = s.dl := rfl
@[simp] theorem hostRead_lcg (s : State) (a : BitVec 16) : (s.hostRead a).lcg = s.lcg := rfl
@[simp] theorem hostRead_ap (s : State) (a : BitVec 16) : (s.hostRead a).ap = s.ap := rfl
@[simp] theorem hostRead_eq (s : State) (a : BitVec 16) : (s.hostRead a).eq = s.eq := rfl
@[simp] theorem hostRead_prm (s : State) (a : BitVec 16) : (s.hostRead a).prm = s.prm := rfl
@[simp] theorem hostRead_tape (s : State) (a : BitVec 16) : (s.hostRead a).tape = s.tape := rfl

/-! Registers after an update. -/

@[simp] theorem setX_x_self (s : State) (r : XReg) (v : XWord) : (s.setX r v).x[r] = v := by
  simp

theorem setX_x_ne (s : State) (r q : XReg) (v : XWord) (h : q ≠ r) : (s.setX r v).x[q] = s.x[q] := by
  simp [Fin.val_inj, Ne.symm h]

@[simp] theorem setL_l_self (s : State) (r : LReg) (v : Lanes) : (s.setL r v).l[r] = v := by
  simp

theorem setL_l_ne (s : State) (r q : LReg) (v : Lanes) (h : q ≠ r) : (s.setL r v).l[q] = s.l[q] := by
  simp [Fin.val_inj, Ne.symm h]

/-- What `onLanes` holds in lane i. -/
theorem onLanes_get (n : Nat) (old : Lanes) (f : Lane → Word) (i : Lane) :
    (onLanes n old f)[i] = if i.val < n then f i else old[i] := by
  simp [onLanes]

/-- A lane of the machine holds the new value. -/
theorem onLanes_of_lt (n : Nat) (old : Lanes) (f : Lane → Word) (i : Lane) (h : i.val < n) :
    (onLanes n old f)[i.val] = f i := by
  simp [onLanes, h]

/-- What `onChannels` holds in channel c. -/
theorem onChannels_get (nch : Nat) (old : Vector Sample 2) (f : Fin 2 → Sample) (c : Fin 2) :
    (onChannels nch old f)[c] = if c.val < nch then f c else old[c] := by
  simp [onChannels]

/-- What L[q][i] is after lanes of L[r] are written. -/
theorem mapL_get (s : State) (r q : LReg) (f : Lane → Sample) (i : Lane) :
    (s.mapL r f).l[q][i] = if q = r ∧ i.val < s.par.n then f i else s.l[q][i] := by
  by_cases h : q = r
  · subst h; simp [onLanes]
  · simp [Fin.val_inj, Ne.symm h, h]

/-- Writing X[r] changes nothing else. -/
theorem setX_only (s : State) (r : XReg) (v : XWord) : OnlyX r s (s.setX r v) :=
  ⟨rfl, fun q h => setX_x_ne s r q v h⟩

/-- Writing lanes of L[r] changes nothing else. -/
theorem mapL_only (s : State) (r : LReg) (f : Lane → Sample) : OnlyL r s (s.mapL r f) :=
  ⟨rfl, fun q h => setL_l_ne s r q _ h⟩

end Sys2Proof.Machine
end

