-- ==== Sys2Proof/Laws/Exec.lean ====
section
/-! SUPPORT. One lemma per shared operation of the meanings and of the step, saying once everything it can do. -/

namespace Sys2Proof.Machine

/-! The check of R283. -/

@[simp] theorem whenInit_of_initd (s t : State) (i : Instr) (h : s.status.initd = true) : s.whenInit i t = .next t := by
  simp [State.whenInit, h]

@[simp] theorem whenInit_of_not (s t : State) (i : Instr) (h : s.status.initd = false) :
    s.whenInit i t = .next (s.raise .noinit (encode i)) := by
  simp [State.whenInit, h]

/-- Everything the check can do. -/
theorem whenInit_cases {s t u : State} {i : Instr} (h : s.whenInit i t = .next u) :
    (s.status.initd = true ∧ u = t) ∨ (s.status.initd = false ∧ u = s.raise .noinit (encode i)) := by
  cases hi : s.status.initd
  · rw [whenInit_of_not s t i hi] at h
    exact .inr ⟨rfl, (Host.Outcome.next.inj h).symm⟩
  · rw [whenInit_of_initd s t i hi] at h
    exact .inl ⟨rfl, (Host.Outcome.next.inj h).symm⟩

/-! The CFG commands. -/

theorem execCfgr_cases {rd rb : XReg} {off : BitVec 12} {s t : State} (h : execCfgr rd rb off s = .next t) :
    (cfgWord s.par (cfgAddress s.x[rb] off) = none ∧ t = s.raise .cfgaddr (encode (.cfgr rd rb off)))
      ∨ ∃ wd, cfgWord s.par (cfgAddress s.x[rb] off) = some wd ∧ t = s.setX rd (zextWord (s.word wd)) := by
  simp only [execCfgr] at h
  split at h <;> cases h
  · next hn => exact .inl ⟨hn, rfl⟩
  · next wd hw => exact .inr ⟨wd, hw, rfl⟩

theorem execCfgw_cases {rs rb : XReg} {off : BitVec 12} {s t : State} (h : execCfgw rs rb off s = .next t) :
    t = s.raise .cfgaddr (encode (.cfgw rs rb off))
      ∨ ∃ wd, cfgWord s.par (cfgAddress s.x[rb] off) = some wd ∧ wd.writable = true
        ∧ t = s.storeWord wd (lowWord s.x[rs]) := by
  simp only [execCfgw] at h
  split at h
  · cases h; exact .inl rfl
  · next wd hw =>
    split at h <;> cases h
    · next hwr => exact .inr ⟨wd, hw, hwr, rfl⟩
    · exact .inl rfl

/-- Everything HostWrite can do to a core that is not halted. -/
theorem cfgWrite_cases (s : State) (a : BitVec 16) (v : Word) :
    s.cfgWrite a v = s ∨ ∃ wd, cfgWord s.par a = some wd ∧ wd.writable = true ∧ s.cfgWrite a v = s.storeWord wd v := by
  cases hw : cfgWord s.par a with
  | none => exact .inl (by simp [State.cfgWrite, hw])
  | some wd =>
    cases hr : wd.writable with
    | false => exact .inl (by simp [State.cfgWrite, hw, hr])
    | true => exact .inr ⟨wd, rfl, hr, by simp [State.cfgWrite, hw, hr]⟩

/-! The step. -/

/-- Everything Issue can do. -/
theorem issue_cases {s t : State} {w : Word} (h : s.issue w = .next t) :
    (s.halted = true ∧ t = { s with index := s.index + 1 })
      ∨ (s.halted = false ∧ ∃ i, decode s.par.n w = .ok i
          ∧ exec i { s with index := s.index + 1, draw := s.draw + 1 } = .next t)
      ∨ (s.halted = false ∧ ∃ e, decode s.par.n w = .error e
          ∧ t = { s with index := s.index + 1 }.raise (causeOf e) w) := by
  simp only [State.issue] at h
  split at h
  · next hh => cases h; exact .inl ⟨hh, rfl⟩
  · next hh =>
    have hf : s.halted = false := by simpa using hh
    split at h
    · next i hd => exact .inr (.inl ⟨hf, i, hd, h⟩)
    · next e hd => cases h; exact .inr (.inr ⟨hf, e, hd, rfl⟩)

/-- Everything a step can do. -/
theorem step_cases {s t : State} (h : step s = .next t) :
    (s.inbox = [] ∧ t = s)
      ∨ (∃ w rest, s.inbox = .issue w :: rest ∧ { s with inbox := rest }.issue w = .next t)
      ∨ (∃ a rest, s.inbox = .hostRead a :: rest ∧ t = { s with inbox := rest }.hostRead a)
      ∨ (∃ a v rest, s.inbox = .hostWrite a v :: rest ∧ t = { s with inbox := rest }.hostWrite a v)
      ∨ ∃ rest, s.inbox = .reset :: rest ∧ t = { s with inbox := rest }.afterReset := by
  simp only [step, State.serveNext] at h
  split at h
  · next hi => cases h; exact .inl ⟨hi, rfl⟩
  · next tx rest hi =>
    cases tx with
    | issue w => exact .inr (.inl ⟨w, rest, hi, h⟩)
    | hostRead a => cases h; exact .inr (.inr (.inl ⟨a, rest, hi, rfl⟩))
    | hostWrite a v => cases h; exact .inr (.inr (.inr (.inl ⟨a, v, rest, hi, rfl⟩)))
    | reset => cases h; exact .inr (.inr (.inr (.inr ⟨rest, hi, rfl⟩)))

theorem step_issue {s : State} {w : Word} {rest : List HostTx} (h : s.inbox = .issue w :: rest) :
    step s = { s with inbox := rest }.issue w := by
  simp only [step, State.serveNext, h, State.serve]

/-! Cursors. -/

/-- A cursor that was moved has no bit outside its ring. -/
@[simp] theorem fitsRing_advance (log : Nat) (c k : Word) : fitsRing log (ringAdvance log c k) := by
  simp [fitsRing, ringAdvance]

/-- A slot has no bit outside its ring. -/
@[simp] theorem fitsRing_slot (log : Nat) (c d : Word) : fitsRing log (ringSlot log c d) := by
  simp [fitsRing, ringSlot]

/-- A masked word has no bit outside its ring. -/
@[simp] theorem fitsRing_and (log : Nat) (c : Word) : fitsRing log (c &&& ringMask log) := by
  simp [fitsRing]

@[simp] theorem fitsRing_zero (log : Nat) : fitsRing log 0#32 := by
  simp [fitsRing]

/-! Phases. -/

/-- The wrapped phase lies in [-2U, 2U). -/
theorem wrapPhase_range (v : XWord) : -2 ^ 31 ≤ (wrapPhase v).toInt ∧ (wrapPhase v).toInt < 2 ^ 31 := by
  have h := (v.setWidth 32).toInt_lt
  have h' := (v.setWidth 32).le_toInt
  simp only [wrapPhase, BitVec.toInt_signExtend_of_le (show 32 ≤ 64 by omega)]
  omega

end Sys2Proof.Machine
end

