-- ==== Sys2Proof/Laws/Cfg.lean ====
section
/-! SUPPORT. The halves of a 64-bit pair, the arrays of a unit, and the narrow fields of the CFG space. -/

namespace Sys2Proof.Machine

/-! 64-bit pairs (10_state.md R45). -/

theorem setHalf_toNat (v : XWord) (hi : Bool) (w : Word) :
    (setHalf v hi w).toNat
      = if hi then w.toNat * 2 ^ 32 + v.toNat % 2 ^ 32 else v.toNat / 2 ^ 32 * 2 ^ 32 + w.toNat := by
  have hv := v.isLt
  cases hi
  · simp only [setHalf, Bool.false_eq_true, if_false]
    change (v.extractLsb' 32 32 ++ w : BitVec (32 + 32)).toNat = _
    simp only [BitVec.toNat_append, Nat.shiftLeft_eq, BitVec.extractLsb'_toNat, Nat.shiftRight_eq_div_pow]
    rw [Nat.mul_comm _ (2 ^ 32), ← Nat.two_pow_add_eq_or_of_lt w.isLt]
    omega
  · simp only [setHalf, if_true]
    change (w ++ v.extractLsb' 0 32 : BitVec (32 + 32)).toNat = _
    simp only [BitVec.toNat_append, Nat.shiftLeft_eq]
    rw [Nat.mul_comm _ (2 ^ 32), ← Nat.two_pow_add_eq_or_of_lt (BitVec.isLt _)]
    simp [BitVec.extractLsb'_toNat]

theorem getHalf_toNat (v : XWord) (hi : Bool) :
    (getHalf v hi).toNat = if hi then v.toNat / 2 ^ 32 else v.toNat % 2 ^ 32 := by
  have hv := v.isLt
  cases hi <;> simp [getHalf, BitVec.extractLsb'_toNat, Nat.shiftRight_eq_div_pow]
  omega

/-- A half written reads back, and the other half is as before. -/
@[simp] theorem getHalf_setHalf (v : XWord) (hi hi' : Bool) (w : Word) :
    getHalf (setHalf v hi w) hi' = if hi' = hi then w else getHalf v hi' := by
  have hv := v.isLt
  have hw := w.isLt
  apply BitVec.eq_of_toNat_eq
  cases hi <;> cases hi' <;> simp [getHalf_toNat, setHalf_toNat] <;> omega

/-- The two halves together are the value. -/
theorem getHalf_append (v : XWord) : (getHalf v true ++ getHalf v false : XWord) = v := by
  have hv := v.isLt
  have hm : v.toNat % 2 ^ 32 < 2 ^ 32 := Nat.mod_lt _ (by decide)
  apply BitVec.eq_of_toNat_eq
  simp only [BitVec.toNat_append, Nat.shiftLeft_eq, getHalf_toNat, if_true, Bool.false_eq_true, if_false]
  rw [Nat.mul_comm, ← Nat.two_pow_add_eq_or_of_lt hm]
  omega

/-! Arrays of a unit: the array written holds the new value, the others are as before. -/

@[simp] theorem SosSection.arr_setArr (c : SosSection) (q r : Fin 7) (v : Lanes) :
    (c.setArr q v).arr r = if r = q then v else c.arr r := by
  fin_cases q <;> fin_cases r <;> rfl

@[simp] theorem Cascade.arr_setArr (c : Cascade) (q r : Fin 3) (v : Lanes) :
    (c.setArr q v).arr r = if r = q then v else c.arr r := by
  fin_cases q <;> fin_cases r <;> rfl

@[simp] theorem EqUnit.arr_setArr (c : EqUnit) (q r : Fin 6) (v : Lanes) :
    (c.setArr q v).arr r = if r = q then v else c.arr r := by
  fin_cases q <;> fin_cases r <;> rfl

@[simp] theorem Cascade.setArr_stages (c : Cascade) (q : Fin 3) (v : Lanes) : (c.setArr q v).stages = c.stages := by
  fin_cases q <;> rfl

@[simp] theorem Cascade.setArr_apid (c : Cascade) (q : Fin 3) (v : Lanes) : (c.setArr q v).apid = c.apid := by
  fin_cases q <;> rfl

@[simp] theorem Cascade.setArr_nstage (c : Cascade) (q : Fin 3) (v : Lanes) : (c.setArr q v).nstage = c.nstage := by
  fin_cases q <;> rfl

@[simp] theorem EqUnit.setArr_eqm (c : EqUnit) (q : Fin 6) (v : Lanes) : (c.setArr q v).eqm = c.eqm := by
  fin_cases q <;> rfl

@[simp] theorem EqUnit.setArr_eqid (c : EqUnit) (q : Fin 6) (v : Lanes) : (c.setArr q v).eqid = c.eqid := by
  fin_cases q <;> rfl

/-! Narrow fields. -/

theorem word_and_one (v : Word) : v &&& 1#32 = if v.getLsbD 0 then 1#32 else 0#32 := by
  apply BitVec.eq_of_getLsbD_eq
  intro i hi
  cases h : v.getLsbD 0 <;> by_cases hz : i = 0 <;> simp_all

/-- Bit 0 of a written word as a buffer number reads back. -/
@[simp] theorem bufOfWord_word (v : Word) : BitVec.ofNat 32 (bufOfWord v).val = v &&& 1#32 := by
  rw [word_and_one, bufOfWord]
  split <;> rfl

/-- Bit 0 of a written word as a direction reads back. -/
@[simp] theorem dirOfWord_word (v : Word) : (Dir.ofWord v).bit.setWidth 32 = v &&& 1#32 := by
  rw [word_and_one, Dir.ofWord]
  split <;> rfl

/-- A written word limited to n - 1 reads back limited. -/
theorem clampTo_val (n : Nat) [NeZero n] (v : Word) : (clampTo n v).val = min v.toNat (n - 1) := by
  have := NeZero.pos n
  simp only [clampTo, Fin.val_ofNat]
  exact Nat.mod_eq_of_lt (by omega)

end Sys2Proof.Machine
end

