-- ==== Sys2Proof/Laws/Encode.lean ====
section
/-! SUPPORT. The fields of an encoded word (30_encoding.md R91, R92), and operands through their fields. -/

namespace Sys2Proof

/-! The fields of a format R word. -/

theorem packR_toNat (op : BitVec 8) (a b c : BitVec 4) (imm : BitVec 12) :
    (packR op a b c imm).toNat
      = op.toNat * 2 ^ 24 + a.toNat * 2 ^ 20 + b.toNat * 2 ^ 16 + c.toNat * 2 ^ 12 + imm.toNat := by
  have ha := a.isLt
  have hb := b.isLt
  have hc := c.isLt
  have hi := imm.isLt
  change ((op ++ a ++ b ++ c ++ imm : BitVec (8 + 4 + 4 + 4 + 12))).toNat = _
  simp only [BitVec.toNat_append, Nat.shiftLeft_eq]
  rw [Nat.mul_comm _ (2 ^ 12), ← Nat.two_pow_add_eq_or_of_lt hi]
  rw [Nat.mul_comm _ (2 ^ 4), ← Nat.two_pow_add_eq_or_of_lt hc]
  rw [Nat.mul_comm _ (2 ^ 4), ← Nat.two_pow_add_eq_or_of_lt hb]
  rw [Nat.mul_comm _ (2 ^ 4), ← Nat.two_pow_add_eq_or_of_lt ha]
  omega

theorem packI_toNat (op : BitVec 8) (a : BitVec 4) (imm : BitVec 16) :
    (packI op a imm).toNat = op.toNat * 2 ^ 24 + a.toNat * 2 ^ 20 + imm.toNat := by
  have ha := a.isLt
  have hi := imm.isLt
  change ((op ++ a ++ 0#4 ++ imm : BitVec (8 + 4 + 4 + 16))).toNat = _
  simp only [BitVec.toNat_append, Nat.shiftLeft_eq]
  rw [Nat.mul_comm _ (2 ^ 16), ← Nat.two_pow_add_eq_or_of_lt hi]
  rw [Nat.mul_comm _ (2 ^ 4), ← Nat.two_pow_add_eq_or_of_lt (by decide : (0#4).toNat < 2 ^ 4)]
  rw [Nat.mul_comm _ (2 ^ 4), ← Nat.two_pow_add_eq_or_of_lt ha]
  simp
  omega

@[simp] theorem fieldOp_packR (op : BitVec 8) (a b c : BitVec 4) (imm : BitVec 12) :
    fieldOp (packR op a b c imm) = op := by
  have := op.isLt; have := a.isLt; have := b.isLt; have := c.isLt; have := imm.isLt
  apply BitVec.eq_of_toNat_eq
  simp only [fieldOp, BitVec.extractLsb'_toNat, packR_toNat, Nat.shiftRight_eq_div_pow]
  omega

@[simp] theorem fieldA_packR (op : BitVec 8) (a b c : BitVec 4) (imm : BitVec 12) :
    fieldA (packR op a b c imm) = a := by
  have := op.isLt; have := a.isLt; have := b.isLt; have := c.isLt; have := imm.isLt
  apply BitVec.eq_of_toNat_eq
  simp only [fieldA, BitVec.extractLsb'_toNat, packR_toNat, Nat.shiftRight_eq_div_pow]
  omega

@[simp] theorem fieldB_packR (op : BitVec 8) (a b c : BitVec 4) (imm : BitVec 12) :
    fieldB (packR op a b c imm) = b := by
  have := op.isLt; have := a.isLt; have := b.isLt; have := c.isLt; have := imm.isLt
  apply BitVec.eq_of_toNat_eq
  simp only [fieldB, BitVec.extractLsb'_toNat, packR_toNat, Nat.shiftRight_eq_div_pow]
  omega

@[simp] theorem fieldC_packR (op : BitVec 8) (a b c : BitVec 4) (imm : BitVec 12) :
    fieldC (packR op a b c imm) = c := by
  have := op.isLt; have := a.isLt; have := b.isLt; have := c.isLt; have := imm.isLt
  apply BitVec.eq_of_toNat_eq
  simp only [fieldC, BitVec.extractLsb'_toNat, packR_toNat, Nat.shiftRight_eq_div_pow]
  omega

@[simp] theorem fieldImm12_packR (op : BitVec 8) (a b c : BitVec 4) (imm : BitVec 12) :
    fieldImm12 (packR op a b c imm) = imm := by
  have := op.isLt; have := a.isLt; have := b.isLt; have := c.isLt; have := imm.isLt
  apply BitVec.eq_of_toNat_eq
  simp only [fieldImm12, BitVec.extractLsb'_toNat, packR_toNat, Nat.shiftRight_eq_div_pow]
  omega

@[simp] theorem fieldShift_packR (op : BitVec 8) (a b c : BitVec 4) (imm : BitVec 12) :
    fieldShift (packR op a b c imm) = imm.setWidth 6 := by
  have := op.isLt; have := a.isLt; have := b.isLt; have := c.isLt; have := imm.isLt
  apply BitVec.eq_of_toNat_eq
  simp only [fieldShift, BitVec.extractLsb'_toNat, BitVec.toNat_setWidth, packR_toNat, Nat.shiftRight_eq_div_pow]
  omega

/-! The fields of a format I word. -/

@[simp] theorem fieldOp_packI (op : BitVec 8) (a : BitVec 4) (imm : BitVec 16) : fieldOp (packI op a imm) = op := by
  have := op.isLt; have := a.isLt; have := imm.isLt
  apply BitVec.eq_of_toNat_eq
  simp only [fieldOp, BitVec.extractLsb'_toNat, packI_toNat, Nat.shiftRight_eq_div_pow]
  omega

@[simp] theorem fieldA_packI (op : BitVec 8) (a : BitVec 4) (imm : BitVec 16) : fieldA (packI op a imm) = a := by
  have := op.isLt; have := a.isLt; have := imm.isLt
  apply BitVec.eq_of_toNat_eq
  simp only [fieldA, BitVec.extractLsb'_toNat, packI_toNat, Nat.shiftRight_eq_div_pow]
  omega

@[simp] theorem fieldB_packI (op : BitVec 8) (a : BitVec 4) (imm : BitVec 16) : fieldB (packI op a imm) = 0#4 := by
  have := op.isLt; have := a.isLt; have := imm.isLt
  apply BitVec.eq_of_toNat_eq
  simp only [fieldB, BitVec.extractLsb'_toNat, packI_toNat, Nat.shiftRight_eq_div_pow, BitVec.toNat_ofNat]
  omega

@[simp] theorem fieldImm16_packI (op : BitVec 8) (a : BitVec 4) (imm : BitVec 16) : fieldImm16 (packI op a imm) = imm := by
  have := op.isLt; have := a.isLt; have := imm.isLt
  apply BitVec.eq_of_toNat_eq
  simp only [fieldImm16, BitVec.extractLsb'_toNat, packI_toNat, Nat.shiftRight_eq_div_pow]
  omega

/-! Operands through their fields. -/

@[simp] theorem toX_ofX (r : XReg) : toX (ofX r) = r := rfl

@[simp] theorem toL_ofL (r : LReg) : toL (ofL r) = r := by
  revert r; decide

@[simp] theorem ofL_lt (r : LReg) : (ofL r).toNat < 8 := by
  revert r; decide

@[simp] theorem ofIdx_toNat {m : Nat} (k : Fin m) (h : m ≤ 4096) : (ofIdx k).toNat = k.val := by
  have := k.isLt
  simp only [ofIdx, BitVec.toNat_ofNat]
  omega

@[simp] theorem toIdx_ofIdx {m : Nat} [NeZero m] (k : Fin m) (h : m ≤ 4096) : toIdx m (ofIdx k) = k := by
  simp only [toIdx, ofIdx_toNat k h]
  exact Fin.ext (Nat.mod_eq_of_lt k.isLt)

@[simp] theorem ofShift_setWidth (sh : BitVec 6) : (ofShift sh).setWidth 6 = sh := by
  revert sh; decide

@[simp] theorem ofShift_lt (sh : BitVec 6) : (ofShift sh).toNat < 64 := by
  revert sh; decide

@[simp] theorem toMode_code (m : Mode) : toMode m.code = m := by
  cases m <;> decide

@[simp] theorem mode_code_lt (m : Mode) : m.code.toNat < 3 := by
  cases m <;> decide

end Sys2Proof
end

