-- ==== Sys2Proof/Laws/PerInstr.lean ====
section
/-! SUPPORT. The statement made for every instruction, and its lemma for each constructor. -/

namespace Sys2Proof.Laws.OpcodeField

/-- The opcode field of the instruction's word selects a row of the decoder and a row of the table R96 as
spec/opcode_table.json lists it, and no other field takes part (30_encoding.md R94). -/
def Statement (i : Instr) : Prop :=
  (∃ r, rowOf 8 (fieldOp (encode i)) = some r)
    ∧ ∃ t ∈ Machine.opcodeTable 8, t.op = (fieldOp (encode i)).toNat

/-- What a lemma below has to show: the opcode, as a number, has both rows. -/
theorem of_op (i : Instr) (op : BitVec 8) (h : fieldOp (encode i) = op) (hr : (rowOf 8 op).isSome = true)
    (ht : (Machine.opcodeTable 8).any (fun t => t.op == op.toNat) = true) : Statement i := by
  subst h
  refine ⟨Option.isSome_iff_exists.mp hr, ?_⟩
  obtain ⟨t, hm, hop⟩ := List.any_eq_true.mp ht
  exact ⟨t, hm, by simpa using hop⟩

theorem nop : Statement (.nop) :=
  of_op _ 0x00#8 (by simp [encode]) rfl rfl

theorem init : Statement (.init) :=
  of_op _ 0x01#8 (by simp [encode]) rfl rfl

theorem cfgw (rs rb : XReg) (off : BitVec 12) : Statement (.cfgw rs rb off) :=
  of_op _ 0x02#8 (by simp [encode]) rfl rfl

theorem cfgr (rd rb : XReg) (off : BitVec 12) : Statement (.cfgr rd rb off) :=
  of_op _ 0x03#8 (by simp [encode]) rfl rfl

theorem xli (rd : XReg) (imm : BitVec 16) : Statement (.xli rd imm) :=
  of_op _ 0x10#8 (by simp [encode]) rfl rfl

theorem xsli (rd : XReg) (imm : BitVec 16) : Statement (.xsli rd imm) :=
  of_op _ 0x11#8 (by simp [encode]) rfl rfl

theorem xmov (rd rs : XReg) : Statement (.xmov rd rs) :=
  of_op _ 0x12#8 (by simp [encode]) rfl rfl

theorem xadd (rd ra rb : XReg) : Statement (.xadd rd ra rb) :=
  of_op _ 0x13#8 (by simp [encode]) rfl rfl

theorem xsub (rd ra rb : XReg) : Statement (.xsub rd ra rb) :=
  of_op _ 0x14#8 (by simp [encode]) rfl rfl

theorem xsrai (rd rs : XReg) (sh : BitVec 6) : Statement (.xsrai rd rs sh) :=
  of_op _ 0x15#8 (by simp [encode]) rfl rfl

theorem xslli (rd rs : XReg) (sh : BitVec 6) : Statement (.xslli rd rs sh) :=
  of_op _ 0x16#8 (by simp [encode]) rfl rfl

theorem vcmp (rd ra rb : XReg) : Statement (.vcmp rd ra rb) :=
  of_op _ 0x17#8 (by simp [encode]) rfl rfl

theorem plfo (rd rs : XReg) (k : Fin Config.nosc) : Statement (.plfo rd rs k) :=
  of_op _ 0x18#8 (by simp [encode]) rfl rfl

theorem tlfo (rd rs : XReg) (k : Fin Config.nosc) : Statement (.tlfo rd rs k) :=
  of_op _ 0x19#8 (by simp [encode]) rfl rfl

theorem lmov (ld ls : LReg) : Statement (.lmov ld ls) :=
  of_op _ 0x20#8 (by simp [encode]) rfl rfl

theorem lli (ld : LReg) (imm : BitVec 16) : Statement (.lli ld imm) :=
  of_op _ 0x21#8 (by simp [encode]) rfl rfl

theorem ladd (ld la lb : LReg) : Statement (.ladd ld la lb) :=
  of_op _ 0x22#8 (by simp [encode]) rfl rfl

theorem lsub (ld la lb : LReg) : Statement (.lsub ld la lb) :=
  of_op _ 0x23#8 (by simp [encode]) rfl rfl

theorem lmul (ld la lb : LReg) : Statement (.lmul ld la lb) :=
  of_op _ 0x24#8 (by simp [encode]) rfl rfl

theorem lmac (ld la lb : LReg) : Statement (.lmac ld la lb) :=
  of_op _ 0x25#8 (by simp [encode]) rfl rfl

theorem lsplat (ld : LReg) (rs : XReg) : Statement (.lsplat ld rs) :=
  of_op _ 0x26#8 (by simp [encode]) rfl rfl

theorem lxcvt (ld : LReg) (rs : XReg) (sh : BitVec 6) : Statement (.lxcvt ld rs sh) :=
  of_op _ 0x27#8 (by simp [encode]) rfl rfl

theorem lins (ld : LReg) (rs : XReg) (k : Lane) : Statement (.lins ld rs k) :=
  of_op _ 0x28#8 (by simp [encode]) rfl rfl

theorem lext (rd : XReg) (ls : LReg) (k : Lane) : Statement (.lext rd ls k) :=
  of_op _ 0x29#8 (by simp [encode]) rfl rfl

theorem pramp (ld : LReg) (k : Fin Config.nprm) : Statement (.pramp ld k) :=
  of_op _ 0x2A#8 (by simp [encode]) rfl rfl

theorem pend (k : Fin Config.nprm) : Statement (.pend k) :=
  of_op _ 0x2B#8 (by simp [encode]) rfl rfl

theorem lsumt (ld : LReg) : Statement (.lsumt ld) :=
  of_op _ 0x2C#8 (by simp [encode]) rfl rfl

theorem decim (ld : LReg) : Statement (.decim ld) :=
  of_op _ 0x2D#8 (by simp [encode]) rfl rfl

theorem sos (ld : LReg) (k : Fin Config.nbank) : Statement (.sos ld k) :=
  of_op _ 0x30#8 (by simp [encode]) rfl rfl

theorem lp1 (ld : LReg) (k : Fin Config.nlp) : Statement (.lp1 ld k) :=
  of_op _ 0x31#8 (by simp [encode]) rfl rfl

theorem dcb (ld : LReg) (k : Fin Config.ndc) : Statement (.dcb ld k) :=
  of_op _ 0x32#8 (by simp [encode]) rfl rfl

theorem dlmod (ld : LReg) : Statement (.dlmod ld) :=
  of_op _ 0x40#8 (by simp [encode]) rfl rfl

theorem dlset (ls : LReg) (u : Fin Config.ndl) : Statement (.dlset ls u) :=
  of_op _ 0x41#8 (by simp [encode]) rfl rfl

theorem dlwr (ls : LReg) (u : Fin Config.ndl) : Statement (.dlwr ls u) :=
  of_op _ 0x42#8 (by simp [encode]) rfl rfl

theorem dlrdh (ld : LReg) (u : Fin Config.ndl) : Statement (.dlrdh ld u) :=
  of_op _ 0x43#8 (by simp [encode]) rfl rfl

theorem dlrdl (ld : LReg) (u : Fin Config.ndl) : Statement (.dlrdl ld u) :=
  of_op _ 0x44#8 (by simp [encode]) rfl rfl

theorem dladv (u : Fin Config.ndl) : Statement (.dladv u) :=
  of_op _ 0x45#8 (by simp [encode]) rfl rfl

theorem dladvx (rs : XReg) (u : Fin Config.ndl) : Statement (.dladvx rs u) :=
  of_op _ 0x46#8 (by simp [encode]) rfl rfl

theorem dlsav (u : Fin Config.ndl) : Statement (.dlsav u) :=
  of_op _ 0x47#8 (by simp [encode]) rfl rfl

theorem dlrst (u : Fin Config.ndl) : Statement (.dlrst u) :=
  of_op _ 0x48#8 (by simp [encode]) rfl rfl

theorem apc (ld : LReg) (u : Fin Config.nap) : Statement (.apc ld u) :=
  of_op _ 0x50#8 (by simp [encode]) rfl rfl

theorem eqn (ld : LReg) : Statement (.eqn ld) :=
  of_op _ 0x51#8 (by simp [encode]) rfl rfl

theorem tspd (rd : XReg) : Statement (.tspd rd) :=
  of_op _ 0x60#8 (by simp [encode]) rfl rfl

theorem twr (ls : LReg) (rs : XReg) : Statement (.twr ls rs) :=
  of_op _ 0x61#8 (by simp [encode]) rfl rfl

theorem tseek (rs : XReg) (t : Fin 2) : Statement (.tseek rs t) :=
  of_op _ 0x62#8 (by simp [encode]) rfl rfl

theorem trd (ld : LReg) (t : Fin 2) : Statement (.trd ld t) :=
  of_op _ 0x63#8 (by simp [encode]) rfl rfl

theorem trev : Statement (.trev) :=
  of_op _ 0x64#8 (by simp [encode]) rfl rfl

theorem tmode (m : Mode) : Statement (.tmode m) :=
  of_op _ 0x65#8 (by simp [encode]) rfl rfl

theorem tmix (ld lcur lold : LReg) : Statement (.tmix ld lcur lold) :=
  of_op _ 0x66#8 (by simp [encode]) rfl rfl

end Sys2Proof.Laws.OpcodeField
end

