-- ==== Sys2Proof/Tests/Slice0.lean ====
section
/-! SUPPORT. The model's own tests: the well-formedness smoke test, words written out from 30_encoding.md, the worked
examples of the rules (expected values from the spec's text), and for each statement with hypotheses a state or
operands that meet them. -/

namespace Sys2Proof.Tests

open Sys2Proof.Machine

/-! Well-formedness: the one check is `k < N` of LINS and LEXT. -/

theorem test_wf_accepts_last_lane : (Instr.lins 0 1 7).wf 8 = true ∧ (Instr.lext 1 0 3).wf 4 = true := by decide
theorem test_wf_refuses_lins : (Instr.lins 0 1 4).wf 4 = false := by decide
theorem test_wf_refuses_lext : (Instr.lext 1 0 1).wf 1 = false := by decide

/-! Words from the formats R91, R92 and the rows of R96: op, a, b, c, imm12 or op, a, 0, imm16. -/

theorem test_words_system :
    decodeTableWord 32 0x00000000 = some .nop                        -- 00 0 0 0 000
      ∧ decodeTableWord 32 0x01000000 = some .init                   -- 01 0 0 0 000
      ∧ decodeTableWord 32 0x02320010 = some (.cfgw 3 2 0x010)       -- 02 3 2 0 010
      ∧ decodeTableWord 32 0x03F10FFF = some (.cfgr 15 1 0xFFF) :=   -- 03 F 1 0 FFF
  by decide

theorem test_words_scalar :
    decodeTableWord 32 0x10108000 = some (.xli 1 0x8000)             -- 10 1 0 8000
      ∧ decodeTableWord 32 0x11F01234 = some (.xsli 15 0x1234)       -- 11 F 0 1234
      ∧ decodeTableWord 32 0x12320000 = some (.xmov 3 2)             -- 12 3 2 0 000
      ∧ decodeTableWord 32 0x13123000 = some (.xadd 1 2 3)           -- 13 1 2 3 000
      ∧ decodeTableWord 32 0x144EF000 = some (.xsub 4 14 15)         -- 14 4 E F 000
      ∧ decodeTableWord 32 0x1512003F = some (.xsrai 1 2 63)         -- 15 1 2 0 03F
      ∧ decodeTableWord 32 0x1612001E = some (.xslli 1 2 30)         -- 16 1 2 0 01E
      ∧ decodeTableWord 32 0x17423000 = some (.vcmp 4 2 3)           -- 17 4 2 3 000
      ∧ decodeTableWord 32 0x18210003 = some (.plfo 2 1 3)           -- 18 2 1 0 003
      ∧ decodeTableWord 32 0x19310001 = some (.tlfo 3 1 1) :=        -- 19 3 1 0 001
  by decide

theorem test_words_lane :
    decodeTableWord 32 0x20170000 = some (.lmov 1 7)                 -- 20 1 7 0 000
      ∧ decodeTableWord 32 0x21003F80 = some (.lli 0 0x3F80)         -- 21 0 0 3F80
      ∧ decodeTableWord 32 0x22123000 = some (.ladd 1 2 3)           -- 22 1 2 3 000
      ∧ decodeTableWord 32 0x23456000 = some (.lsub 4 5 6)           -- 23 4 5 6 000
      ∧ decodeTableWord 32 0x24701000 = some (.lmul 7 0 1)           -- 24 7 0 1 000
      ∧ decodeTableWord 32 0x25321000 = some (.lmac 3 2 1)           -- 25 3 2 1 000
      ∧ decodeTableWord 32 0x264F0000 = some (.lsplat 4 15)          -- 26 4 F 0 000
      ∧ decodeTableWord 32 0x2732001E = some (.lxcvt 3 2 30)         -- 27 3 2 0 01E
      ∧ decodeTableWord 32 0x28010007 = some (.lins 0 1 7)           -- 28 0 1 0 007
      ∧ decodeTableWord 32 0x29F20003 = some (.lext 15 2 3)          -- 29 F 2 0 003
      ∧ decodeTableWord 32 0x2A500007 = some (.pramp 5 7)            -- 2A 5 0 0 007
      ∧ decodeTableWord 32 0x2B000006 = some (.pend 6)               -- 2B 0 0 0 006
      ∧ decodeTableWord 32 0x2C600000 = some (.lsumt 6)              -- 2C 6 0 0 000
      ∧ decodeTableWord 32 0x2D700000 = some (.decim 7) :=           -- 2D 7 0 0 000
  by decide

theorem test_words_filters_and_delay :
    decodeTableWord 32 0x30100002 = some (.sos 1 2)                  -- 30 1 0 0 002
      ∧ decodeTableWord 32 0x31200003 = some (.lp1 2 3)              -- 31 2 0 0 003
      ∧ decodeTableWord 32 0x32300001 = some (.dcb 3 1)              -- 32 3 0 0 001
      ∧ decodeTableWord 32 0x40400000 = some (.dlmod 4)              -- 40 4 0 0 000
      ∧ decodeTableWord 32 0x41500003 = some (.dlset 5 3)            -- 41 5 0 0 003
      ∧ decodeTableWord 32 0x42000000 = some (.dlwr 0 0)             -- 42 0 0 0 000
      ∧ decodeTableWord 32 0x43600001 = some (.dlrdh 6 1)            -- 43 6 0 0 001
      ∧ decodeTableWord 32 0x44700002 = some (.dlrdl 7 2)            -- 44 7 0 0 002
      ∧ decodeTableWord 32 0x45000003 = some (.dladv 3)              -- 45 0 0 0 003
      ∧ decodeTableWord 32 0x46E00002 = some (.dladvx 14 2)          -- 46 E 0 0 002
      ∧ decodeTableWord 32 0x47000001 = some (.dlsav 1)              -- 47 0 0 0 001
      ∧ decodeTableWord 32 0x48000002 = some (.dlrst 2) :=           -- 48 0 0 0 002
  by decide

theorem test_words_allpass_and_tape :
    decodeTableWord 32 0x50100001 = some (.apc 1 1)                  -- 50 1 0 0 001
      ∧ decodeTableWord 32 0x51200000 = some (.eqn 2)                -- 51 2 0 0 000
      ∧ decodeTableWord 32 0x60400000 = some (.tspd 4)               -- 60 4 0 0 000
      ∧ decodeTableWord 32 0x61040000 = some (.twr 0 4)              -- 61 0 4 0 000
      ∧ decodeTableWord 32 0x62050001 = some (.tseek 5 1)            -- 62 0 5 0 001
      ∧ decodeTableWord 32 0x63300001 = some (.trd 3 1)              -- 63 3 0 0 001
      ∧ decodeTableWord 32 0x64000000 = some .trev                   -- 64 0 0 0 000
      ∧ decodeTableWord 32 0x65000002 = some (.tmode .reverse)       -- 65 0 0 0 002
      ∧ decodeTableWord 32 0x65000001 = some (.tmode .backForth)     -- 65 0 0 0 001
      ∧ decodeTableWord 32 0x66201000 = some (.tmix 2 0 1) :=        -- 66 2 0 1 000
  by decide

/-- R97, R98: the refusals, and that an earlier check wins. -/
theorem test_words_refused :
    decode 8 0xFF000000#32 = .error .illop ∧ decode 8 0x04000000#32 = .error .illop
      ∧ decode 8 0x12120001#32 = .error .resvd ∧ decode 8 0x10110000#32 = .error .resvd
      ∧ decode 8 0x15120040#32 = .error .resvd ∧ decode 8 0x20800001#32 = .error .resvd
      ∧ decode 8 0x20800000#32 = .error .lreg ∧ decode 8 0x30800004#32 = .error .lreg
      ∧ decode 8 0x30100004#32 = .error .index ∧ decode 2 0x28010002#32 = .error .index
      ∧ decode 8 0x65000003#32 = .error .index := by
  refine ⟨?_, ?_, ?_, ?_, ?_, ?_, ?_, ?_, ?_, ?_, ?_⟩ <;> rfl

/-! Small states. -/

/-- After Reset and INIT. -/
def ini : State := { State.reset with status := { Status.reset with initd := true } }

/-- Every lane of L[r] holds `v`. -/
def splat (s : State) (r : LReg) (v : Sample) : State := s.setL r (Vector.replicate 8 v)

/-- The state a command answers. -/
def out (i : Instr) (s : State) : State :=
  match exec i s with
  | .next t => t
  | .fault _ => s
  | .refused _ => s

/-- The state after the host has issued a word. -/
def issued (s : State) (w : Nat) : State :=
  match step (s.withFetchWord 32 w) with
  | .next t => t
  | .fault _ => s
  | .refused _ => s

/-! Faults: the worked examples R312. -/

theorem test_fault_illop : (issued State.reset 0xFF000000).status.word = 0x00000012#32
    ∧ (issued State.reset 0xFF000000).faultinfo = 0xFF000000#32 := by decide
theorem test_fault_noinit : (issued State.reset 0x18210000).status.word = 0x00000062#32
    ∧ (issued State.reset 0x18210000).faultinfo = 0x18210000#32 := by decide
theorem test_fault_lreg : (issued ini 0x20800000).status.word = 0x00000033#32 := by decide
theorem test_fault_index : (issued ini 0x30100004).status.word = 0x00000043#32 := by decide
theorem test_fault_cfgaddr : (issued ini 0x02100002).status.word = 0x00000053#32
    ∧ (issued ini 0x02100002).faultinfo = 0x02100002#32 := by decide
theorem test_fault_resvd : (issued State.reset 0x12120001).status.word = 0x00000022#32 := by decide
theorem test_halted_discards : (issued (State.reset.raise .illop 0xFF000000#32) 0x01000000).status.word = 0x00000012#32 := by
  decide

/-- 95_test_vectors.md program 5: the index counts every Issue, the faulting and the discarded one among them. -/
theorem test_index_counts_discarded :
    (issued (issued State.reset 0x18210000) 0x01000000).index = 2
      ∧ (issued (issued State.reset 0x18210000) 0x01000000).status.word = 0x00000062#32 := by decide

/-! System commands. -/

/-- R282's example. -/
theorem test_init : (issued { State.reset with
      status := { Status.reset with initd := true, fading := true }, ph := Vector.replicate 4 0x12345678#64 }
      0x01000000).status.word = 0x00000001#32
    ∧ (out .init { State.reset with ph := Vector.replicate 4 0x12345678#64 }).ph[0] = 0#64 := by decide
/-- R284's example: STATUS with INITD. -/
theorem test_cfgr : (issued ini 0x03100002).x[1] = 1#64 := by decide
/-- R286's example: PRAM 1, lane 0 becomes 0.5. -/
theorem test_cfgw : (issued ((ini.setX 2 0x0200#64).setX 3 0x3F000000#64) 0x02320010).prm[1].val[0] = 0x3F000000#32 := by
  decide
theorem test_nop : (out .nop ini).x[0] = 0#64 ∧ (issued ini 0).status.word = 1#32 := by decide

/-! Scalar commands: the examples of R114 to R126. -/

theorem test_xli : (out (.xli 1 0x8000) ini).x[1] = 0xFFFFFFFFFFFF8000#64 := by decide
theorem test_xsli : (out (.xsli 1 0) (ini.setX 1 0x400#64)).x[1] = 0x4000000#64 := by decide
theorem test_xmov : (out (.xmov 3 2) (ini.setX 2 7#64)).x[3] = 7#64 := by decide
theorem test_xadd : (out (.xadd 1 1 2) ((ini.setX 1 0x7FFFFFFFFFFFFFFF#64).setX 2 1#64)).x[1] = 0x8000000000000000#64 := by
  decide
theorem test_xsub : (out (.xsub 1 0 2) (ini.setX 2 1#64)).x[1] = 0xFFFFFFFFFFFFFFFF#64 := by decide
theorem test_xsrai : (out (.xsrai 1 2 1) (ini.setX 2 (-3))).x[1] = (-2 : BitVec 64) := by decide
theorem test_xslli : (out (.xslli 1 2 61) (ini.setX 2 1#64)).x[1] = 0x2000000000000000#64 := by decide
theorem test_vcmp : (out (.vcmp 1 2 3) ((ini.setX 2 2#64).setX 3 0xFFFFFFFFFFFFFFFF#64)).x[1] = 1#64 := by decide
theorem test_vcmp_half : (out (.vcmp 1 2 0) (ini.setX 2 0x8000000000000000#64)).x[1] = 0#64 := by decide
theorem test_plfo : (out (.plfo 2 1 0) (ini.setX 1 0x04000000#64)).x[2] = 0x07C00000#64
    ∧ (out (.plfo 2 1 0) (ini.setX 1 0x04000000#64)).ph[0] = 0x04000000#64 := by decide
/-- R123: para(-1) = -2. -/
theorem test_plfo_floor : (out (.plfo 2 1 0) (ini.setX 1 (-1))).x[2] = (-2 : BitVec 64) := by decide
theorem test_tlfo : (out (.tlfo 3 1 1) { ini.setX 1 0x10000000#64 with ph := Vector.replicate 4 0x50000000#64 }).x[3]
    = 0x20000000#64 := by decide

/-! Lanes: the examples of R210 to R231. The patterns of 1.0, 2.0, ... are those of binary32. -/

theorem test_lmov : (out (.lmov 0 1) (splat ini 1 0xFFC12345#32)).l[0][7] = 0xFFC12345#32 := by decide
theorem test_lli : (out (.lli 0 0xBF80) ini).l[0][3] = 0xBF800000#32 := by decide
theorem test_ladd : (out (.ladd 0 1 2) (splat (splat ini 1 0x3FC00000#32) 2 0x3E800000#32)).l[0][0] = 0x3FE00000#32 := by
  decide
theorem test_lsub : (out (.lsub 0 1 2) (splat (splat ini 1 0x3FC00000#32) 2 0x3E800000#32)).l[0][0] = 0x3FA00000#32 := by
  decide
theorem test_lmul : (out (.lmul 0 1 1) (splat ini 1 0x3F000000#32)).l[0][0] = 0x3E800000#32 := by decide
theorem test_lmac : (out (.lmac 0 1 2) (splat (splat (splat ini 0 0x3F800000#32) 1 0x3F000000#32) 2 0x40800000#32)).l[0][0]
    = 0x40400000#32 := by decide
theorem test_lsplat : (out (.lsplat 0 1) (ini.setX 1 0xFFFFFFFF3FC00000#64)).l[0][5] = 0x3FC00000#32 := by decide
theorem test_lxcvt : (out (.lxcvt 0 2 30) (ini.setX 2 0x07C00000#64)).l[0][0] = 0x3DF80000#32 := by decide
/-- i2f rounds 2^24 + 1 to even. -/
theorem test_lxcvt_even : (out (.lxcvt 0 2 0) (ini.setX 2 0x1000001#64)).l[0][0] = 0x4B800000#32 := by decide
theorem test_lins : (out (.lins 0 1 3) (ini.setX 1 0x3F800000#64)).l[0][3] = 0x3F800000#32
    ∧ (out (.lins 0 1 3) (ini.setX 1 0x3F800000#64)).l[0][2] = 0#32 := by decide
theorem test_lext : (out (.lext 1 2 0) (splat ini 2 0xBF800000#32)).x[1] = 0x00000000BF800000#64 := by decide
theorem test_pramp : (out (.pramp 0 1) { ini with
      prm := Vector.replicate 8 ⟨Vector.replicate 8 0x3F800000#32, Vector.replicate 8 0x3E800000#32⟩ }).prm[1].val[0]
    = 0x3FA00000#32 := by decide
theorem test_pend : (out (.pend 1) { ini with
      prm := Vector.replicate 8 ⟨Vector.replicate 8 0x3F800000#32, Vector.replicate 8 0x3E800000#32⟩ }).prm[1].inc[0]
    = 0#32 := by decide
/-- R228's example: lanes 1 to 8 give 10 and 26, and the partial sums 6 and 14. -/
theorem test_lsumt :
    let t := out (.lsumt 0) (ini.setL 0 #v[0x3F800000#32, 0x40000000#32, 0x40400000#32, 0x40800000#32,
      0x40A00000#32, 0x40C00000#32, 0x40E00000#32, 0x41000000#32])
    t.l[0][0] = 0x41200000#32 ∧ t.l[0][4] = 0x41D00000#32 ∧ t.l[0][1] = 0x40C00000#32 ∧ t.l[0][5] = 0x41600000#32 := by
  decide
theorem test_decim : (out (.decim 0) { splat ini 0 0x40400000#32 with decm := 2#32 }).l[0][0] = 0x40C00000#32
    ∧ (out (.decim 0) { splat ini 0 0x40400000#32 with decm := 2#32, deccnt := 1#32 }).deccnt = 0#32 := by decide

/-! Filters: the first steps of the examples of R142, R146, R148. -/

theorem test_sos :
    let half : Lanes := Vector.replicate 8 0x3F000000#32
    let sec : SosSection := { SosSection.reset with b0 := half, b1 := half }
    let bank : SosBank := ⟨Vector.replicate 5 sec, 1⟩
    let s : State := { splat ini 0 0x3F800000#32 with sos := Vector.replicate 4 bank }
    (out (.sos 0 0) s).l[0][0] = 0x3F000000#32 ∧ (out (.sos 0 0) s).sos[0].sec[0].s0[0] = 0x3F800000#32 := by decide
theorem test_lp1 : (out (.lp1 0 2) { splat ini 0 0x3F800000#32 with
      lp1 := Vector.replicate 4 ⟨Vector.replicate 8 0x3F000000#32, Vector.replicate 8 0x3F000000#32⟩ }).l[0][0]
    = 0x3F400000#32 := by decide
theorem test_dcb :
    let one : Lanes := Vector.replicate 8 0x3F800000#32
    let s : State := { splat ini 0 0x3F800000#32 with dcb := Vector.replicate 2 ⟨Vector.replicate 8 0x3F000000#32, one, one⟩ }
    (out (.dcb 0 1) s).l[0][0] = 0x3F000000#32 := by decide

/-! Delay lines: the examples of R162 to R181. Line 2 has DLLOG = 8. -/

/-- A delay line with one entry in lane 0 per (slot, word). -/
def line (id : Word) (i : Word) (f : Sample) (m : List (Nat × Word)) : DelayLine :=
  ⟨m.map fun e => (e.1 * 8, e.2), id, 42#32, Vector.replicate 8 i, Vector.replicate 8 f⟩

theorem test_dlmod :
    let s := { ini with lcg := ⟨Vector.replicate 8 1#32, Vector.replicate 8 1#32⟩ }
    (out (.dlmod 0) { ini with lcg := ⟨Lanes.zero, Vector.replicate 8 1#32⟩ }).l[0][0] = 0x30000000#32
      ∧ (out (.dlmod 0) s).lcg.state[0] = 0x41C64E6E#32 ∧ (out (.dlmod 0) s).l[0][0] = 0x3F038C9D#32 := by decide
theorem test_dlset :
    let t := out (.dlset 0 1) (ini.setL 0 #v[0x40A80000#32, 0xC0400000#32, 0x447FE000#32, 0x80000000#32,
      0x7F800000#32, 0x7FC00000#32, 0#32, 0#32])
    t.dl[1].idelay[0] = 5#32 ∧ t.dl[1].fdelay[0] = 0x3E800000#32 ∧ t.dl[1].idelay[1] = 0#32
      ∧ t.dl[1].idelay[2] = 1023#32 ∧ t.dl[1].fdelay[2] = 0x3F000000#32 ∧ t.dl[1].fdelay[3] = 0#32
      ∧ t.dl[1].idelay[4] = 0xFFFFFFFF#32 ∧ t.dl[1].idelay[5] = 0#32 := by decide
theorem test_dlwr :
    let t := out (.dlwr 0 2) ((splat ini 0 0x3F800000#32).setDl 2 (line 7#32 0#32 0#32 []))
    Memory.read t.dl[2].buf 56 = 0x3F800000#32 ∧ t.dl[2].id = 7#32 := by decide
theorem test_dlrdl :
    (out (.dlrdl 0 2) (ini.setDl 2 (line 10#32 3#32 0x3E800000#32 [(6, 0x40800000#32), (7, 0x40000000#32)]))).l[0][0]
      = 0x40200000#32 := by decide
theorem test_dlrdh :
    (out (.dlrdh 0 2) (ini.setDl 2 (line 10#32 5#32 0x3F000000#32
      [(3, 0x40400000#32), (4, 0x40000000#32), (5, 0x3F800000#32)]))).l[0][0] = 0x3FC00000#32 := by decide +kernel
/-- Vector D11; and by the pseudocode of R171 the zero stays negative beside a negative neighbour (log entry 29). -/
theorem test_lin_negative_zero (d : Nat → Draw) : lin d 0x80000000#32 0x40A00000#32 0#32 = 0#32
    ∧ lin d 0x80000000#32 0xC0A00000#32 0#32 = 0x80000000#32 := by
  constructor
  · rw [lin, show fsub (d 0) 0x40A00000#32 0x80000000#32 = 0x40A00000#32 from rfl,
      show fmul (d 1) 0#32 0x40A00000#32 = 0#32 from rfl]
    rfl
  · rw [lin, show fsub (d 0) 0xC0A00000#32 0x80000000#32 = 0xC0A00000#32 from rfl,
      show fmul (d 1) 0#32 0xC0A00000#32 = 0x80000000#32 from rfl]
    rfl
theorem test_dladv : (out (.dladv 2) (ini.setDl 2 (line 255#32 0#32 0#32 []))).dl[2].id = 0#32 := by decide
theorem test_dladvx : (out (.dladvx 1 2) ((ini.setX 1 16#64).setDl 2 (line 250#32 0#32 0#32 []))).dl[2].id = 10#32 := by
  decide
theorem test_dlsav : (out (.dlsav 2) (ini.setDl 2 (line 9#32 0#32 0#32 []))).dl[2].saved = 9#32 := by decide
theorem test_dlrst : (out (.dlrst 2) (ini.setDl 2 (line 50#32 0#32 0#32 []))).dl[2].id = 42#32 := by decide

/-! Allpass and EQ: the first steps of the examples of R192 and R198. -/

theorem test_apc :
    let c : Cascade := { Cascade.reset with
      nstage := 1, a1 := Vector.replicate 8 0x3F000000#32, ik := Vector.replicate 8 1#32 }
    let t := out (.apc 0 0) { splat ini 0 0x3F800000#32 with ap := Vector.replicate 2 c }
    t.l[0][0] = 0#32 ∧ t.ap[0].apid = 1#32 ∧ t.ap[0].stages[0].s1[0] = 0x3F000000#32
      ∧ Memory.read t.ap[0].stages[0].m 0 = 0x3F800000#32 := by decide
/-- The third command of R198's example: the first input comes back halved after KEQ = 2 slots. -/
theorem test_eqn :
    let q : EqUnit := { EqUnit.reset with
      b0 := Vector.replicate 8 0x3F800000#32, b1 := Vector.replicate 8 0x3F000000#32, keq := Vector.replicate 8 2#32
      eqid := 2#32, eqm := [(0, 0x3F800000#32)] }
    (out (.eqn 0) { ini with eq := q }).l[0][0] = 0x3F000000#32 := by decide

/-- By the pseudocode of R191 and R197 a -0.0 comes out as +0.0: one stage with a1 = a2 = 0, and B0 = 1 with the rest 0
(log entry 30). -/
theorem test_apc_negative_zero :
    let g : ApStage := { ApStage.reset with s2 := Vector.replicate 8 0x80000000#32 }
    let c : Cascade := { Cascade.reset with nstage := 1, stages := Vector.replicate _ g }
    (out (.apc 0 0) { ini with ap := Vector.replicate 2 c }).l[0][0] = 0#32 := by decide +kernel
theorem test_eqn_negative_zero :
    let q : EqUnit := { EqUnit.reset with b0 := Vector.replicate 8 0x3F800000#32 }
    (out (.eqn 0) { splat ini 0 0x80000000#32 with eq := q }).l[0][0] = 0#32 := by decide +kernel

/-! The tape: the examples of R244 to R266, with TLOG = 3 and one channel. -/

/-- `ini` with eight tape slots and one channel. -/
def tapeIni : State := { ini with par := { defaultParams with nch := 1, tlog := 3 } }

/-- The buffer of R258: slot s holds the time (s + 1) 2^59 and the sample s + 1. -/
def ramp : TapeBuf :=
  ⟨[(0, 0x0800000000000000#64), (1, 0x1000000000000000#64), (2, 0x1800000000000000#64), (3, 0x2000000000000000#64),
    (4, 0x2800000000000000#64), (5, 0x3000000000000000#64), (6, 0x3800000000000000#64), (7, 0x4000000000000000#64)],
   Vector.replicate 2 [(0, 0x3F800000#32), (1, 0x40000000#32), (2, 0x40400000#32), (3, 0x40800000#32),
    (4, 0x40A00000#32), (5, 0x40C00000#32), (6, 0x40E00000#32), (7, 0x41000000#32)], 0#32⟩

/-- The state of R258 before the seek. -/
def tapeState : State := { tapeIni with
  tape := { Tape.reset with xwrite := 0x4000000000000000#64, bufs := Vector.replicate 2 ramp } }

/-- SPEED moves a quarter of the way to TSPEED, rounded toward minus infinity. -/
theorem test_tspd : (out (.tspd 4) { ini with tape := { Tape.reset with spdsh := 2#6, tspeed := 10#64, speed := 15#64 } }).x[4]
    = 13#64 := by decide
theorem test_twr :
    let t := out (.twr 0 4) (splat (tapeIni.setX 4 0x0400000000000000#64) 0 0x3F800000#32)
    Memory.read t.tape.bufs[0].tv 0 = 0x0400000000000000#64 ∧ Memory.read t.tape.bufs[0].ts[0] 0 = 0x3F800000#32
      ∧ t.tape.bufs[0].nw = 1#32 ∧ t.tape.bufs[1].nw = 0#32 := by decide
theorem test_tseek :
    let t := out (.tseek 0 0) tapeState
    t.tape.taps[0].nread = 3#32 ∧ t.tape.taps[0].frac = 0#32 ∧ t.tape.taps[0].ym1[0] = 0x40400000#32
      ∧ t.tape.taps[0].y2[0] = 0x40C00000#32 ∧ t.tape.taps[0].pbs = 0x40400000#32 ∧ t.status.fast = true := by decide
/-- A target before every entry parks on the oldest slot with UNDER. -/
theorem test_tseek_under :
    (out (.tseek 0 0) { tapeState with tape := { tapeState.tape with xwrite := 0x2400000000000000#64 } }).status.tapUnder
      = true := by decide
/-- R260's example: herm(3, 4, 5, 6, 0) = 4. -/
theorem test_trd :
    let p : Tap := { Tap.reset with
      ym1 := Vector.replicate 2 0x40400000#32, y0 := Vector.replicate 2 0x40800000#32
      y1 := Vector.replicate 2 0x40A00000#32, y2 := Vector.replicate 2 0x40C00000#32 }
    let t := out (.trd 0 0) (splat (tapeIni.setTap 0 p) 0 0x3F800000#32)
    t.l[0][0] = 0x40800000#32 ∧ t.l[0][1] = 0#32 := by decide
/-- R262's example. -/
theorem test_trev :
    let t := out .trev tapeState
    t.tape.taps[1].dir = .backwards ∧ t.tape.taps[1].nread = 7#32 ∧ t.tape.taps[1].xread = 0x2000000000000000#64
      ∧ t.tape.taps[1].xrevstop = 0#64 ∧ t.tape.cur = 1 ∧ t.status.fading = true := by decide
theorem test_trev_dropped : (out .trev { ini with status := { ini.status with fading := true } }).status.revdrop = true := by
  decide
/-- R264's example: `tmode 2` acts as TREV. -/
theorem test_tmode : (out (.tmode .reverse) tapeState).tape.cur = 1
    ∧ (out (.tmode .reverse) tapeState).tape.mode = .reverse ∧ (out (.tmode .backForth) tapeState).tape.cur = 0 := by decide
/-- R266's example: the first sample of a fade is the old tap's. -/
theorem test_tmix :
    let s := { splat (splat tapeIni 0 0x3F800000#32) 1 0x40400000#32 with status := { ini.status with fading := true } }
    (out (.tmix 2 0 1) s).l[2][0] = 0x40400000#32 ∧ (out (.tmix 2 0 1) s).tape.fcnt = 1#9 := by decide

/-! Parameters. -/

/-- The default parameters are legal, the default FADEWIN among them (R6, R268). -/
theorem test_default_parameters : Params.legal defaultParams = true := by decide +kernel

/-! Witnesses: for each statement of Certificates/Slice0/Obligations.lean with hypotheses, or with clauses over one
input, values that meet them, at the boundaries of the clauses. -/

/-- `ini` with one pending transaction. -/
def pending (t : HostTx) : State := { ini with inbox := [t] }

/-- A halted core with one pending transaction. -/
def halted (t : HostTx) : State := (pending t).raise .index 0x30100004#32

/-- A core with four lanes. -/
def four : State := { ini with par := { defaultParams with n := 4 } }

/-- Delay line 2 with its cursor on the last slot, one word stored, and a tap a whole ring away. -/
def ringState : State := splat (ini.setDl 2 (line 255#32 256#32 0#32 [(3, 0x3F800000#32)])) 0 0x40000000#32

theorem ringState_memories : ringState.memoriesWf := by unfold State.memoriesWf; decide +kernel

theorem ringState_inv : ringState.Inv := by
  refine ⟨ringState_memories, ?_, ?_, ?_, ?_⟩
  · unfold State.phasesInRange; decide
  · unfold State.decimOk; decide
  · unfold State.cursorsFit fitsRing; decide
  · unfold State.fadeOk; decide

theorem test_witness_DecodeOfEncode :
    (Instr.lins 7 15 7).wf 8 = true ∧ (Instr.lext 15 7 0).wf 1 = true ∧ (Instr.trev).wf 8 = true := by decide
theorem test_witness_EncodeOfDecode : 8 ≤ 8 ∧ decode 8 0x287F0007#32 = .ok (.lins 7 15 7) := ⟨le_refl 8, rfl⟩
/-- An opcode outside the table; then each check of a row, and a word that passes. -/
theorem test_witness_DecoderChecksInOrder :
    (∀ r ∈ opcodeTable 8, r.op ≠ (fieldOp 0x67000000#32).toNat)
      ∧ (⟨0x30, 0x000FF000, 0x00800000, some 4, true⟩ : TableRow) ∈ opcodeTable 8
      ∧ (fieldOp 0x30F01004#32).toNat = 0x30 ∧ decode 8 0x30F01004#32 = .error .resvd
      ∧ decode 8 0x30F00004#32 = .error .lreg ∧ decode 8 0x30700004#32 = .error .index
      ∧ decode 8 0x30700003#32 = .ok (.sos 7 3) := by
  refine ⟨by decide, by decide, ?_, ?_, ?_, ?_, ?_⟩ <;> rfl

theorem test_witness_StepRunsTheDecodedInstruction :
    (pending (.issue 0x10108000#32)).status.fault = none
      ∧ decode (pending (.issue 0x10108000#32)).par.n 0x10108000#32 = .ok (.xli 1 0x8000)
      ∧ (pending (.issue 0x10108000#32)).inbox = .issue 0x10108000#32 :: [] := ⟨rfl, rfl, rfl⟩
theorem test_witness_FaultEntryChangesNothingElse : ∃ t,
    (pending (.issue 0x20800000#32)).inbox = .issue 0x20800000#32 :: []
      ∧ (pending (.issue 0x20800000#32)).status.fault = none
      ∧ step (pending (.issue 0x20800000#32)) = .next t ∧ t.status.fault = some .lreg := ⟨_, rfl, rfl, rfl, rfl⟩
/-- Every outcome of the chain. -/
theorem test_witness_FaultTakenByAWord :
    (pending (.issue 0#32)).inbox = .issue 0#32 :: [] ∧ (pending (.issue 0#32)).status.fault = none
      ∧ ini.dueFault 0x67000000#32 = some .illop ∧ ini.dueFault 0x30F01004#32 = some .resvd
      ∧ ini.dueFault 0x30F00004#32 = some .lreg ∧ ini.dueFault 0x30700004#32 = some .index
      ∧ State.reset.dueFault 0x30700003#32 = some .noinit ∧ ini.dueFault 0x30700003#32 = none
      ∧ ini.dueFault 0x02100000#32 = some .cfgaddr ∧ ini.dueFault 0x02100004#32 = none
      ∧ ini.dueFault 0x03100000#32 = none ∧ ini.dueFault 0x03100FFF#32 = some .cfgaddr := by
  refine ⟨rfl, rfl, ?_, ?_, ?_, ?_, ?_, ?_, ?_, ?_, ?_, ?_⟩ <;> decide +kernel
theorem test_witness_HaltedCoreDiscards :
    (halted (.issue 0#32)).halted = true ∧ (halted (.issue 0#32)).inbox = .issue 0#32 :: []
      ∧ (halted (.hostWrite 4 1#32)).inbox = .hostWrite 4 1#32 :: []
      ∧ (halted (.hostRead 2)).inbox = .hostRead 2 :: []
      ∧ (halted .reset).inbox = .reset :: [] ∧ ∃ t, step (halted .reset) = .next t ∧ t.halted = false :=
  ⟨rfl, rfl, rfl, rfl, rfl, _, rfl, rfl⟩
/-- An empty inbox; a read; writes to an RW word, to an RO word, to no word. -/
theorem test_witness_HostAccess :
    ini.inbox = [] ∧ (pending (.hostRead 0xFFFF)).inbox = .hostRead 0xFFFF :: []
      ∧ (pending (.hostWrite 4 0#32)).inbox = .hostWrite 4 0#32 :: [] ∧ (pending (.hostWrite 4 0#32)).halted = false
      ∧ cfgWord ini.par 4 = some .decm ∧ CfgWord.decm.writable = true
      ∧ cfgWord ini.par 3 = some .faultinfo ∧ CfgWord.faultinfo.writable = false
      ∧ cfgWord ini.par 0xFFFF = none := by
  refine ⟨rfl, rfl, rfl, rfl, ?_, ?_, ?_, ?_, ?_⟩ <;> decide +kernel
theorem test_witness_CfgMapAgreesWithTheTable :
    CfgWord.hwid.present ini.par = true ∧ cfgWord ini.par 0 = some .hwid
      ∧ (CfgWord.ph 3 true).present ini.par = true ∧ cfgWord ini.par (BitVec.ofNat 16 (CfgWord.ph 3 true).addr) = some (.ph 3 true)
      ∧ (3 : Lane).val < four.par.n ∧ (1 : Fin 2).val < four.par.nch
      ∧ cfgWord four.par 0x0083 = some (.lreg 0 3) ∧ cfgWord four.par 0x0084 = none
      ∧ cfgWord tapeIni.par 0x0044 = some (.tapHist 0 0 4) ∧ cfgWord tapeIni.par 0x0048 = none := by
  decide +kernel
theorem test_witness_StatusWordBits :
    ini.status.fault = none ∧ (halted .reset).status.fault = some .index := ⟨rfl, rfl⟩
/-- An RO and an RW word of each kind of row. -/
theorem test_witness_CfgWriteReadsBack_access :
    (CfgWord.dlLogsize 3).writable = false ∧ (CfgWord.tapPbs 1).writable = false ∧ (CfgWord.tapHist 1 1 4).writable = false
      ∧ CfgWord.fcnt.writable = false ∧ (CfgWord.tapXread 0 true).writable = true ∧ (CfgWord.dlSaved 3).writable = true
      ∧ (CfgWord.lreg 7 7).writable = true := by decide
/-- The legalisations at their bounds. -/
theorem test_witness_CfgWriteReadsBack :
    CfgWord.decm.writable = true ∧ ini.legalised .decm 0#32 = 1#32 ∧ ini.legalised .decm 1#32 = 1#32
      ∧ CfgWord.deccnt.writable = true ∧ ini.legalised .deccnt 1#32 = 0#32
      ∧ ini.legalised (.apNstage 0) 128#32 = 128#32 ∧ ini.legalised (.apNstage 0) 129#32 = 128#32
      ∧ ini.legalised (.sosNsect 3) 5#32 = 5#32 ∧ ini.legalised (.sosNsect 3) 6#32 = 5#32
      ∧ ini.legalised (.dlId 2) 256#32 = 0#32 ∧ (CfgWord.ph 0 true).writable = true
      ∧ (ini.storeWord (.apNstage 0) 129#32).word (.apNstage 0) = 128#32
      ∧ (ini.storeWord (.sosNsect 3) 6#32).word (.sosNsect 3) = 5#32
      ∧ (ini.storeWord .deccnt 1#32).word .deccnt = 0#32 := by decide +kernel
theorem test_witness_CfgWriteChangesOneWord :
    CfgWord.deccnt ≠ .decm ∧ CfgWord.mayAlsoChange .decm .deccnt = true
      ∧ CfgWord.ph 0 true ≠ .ph 0 false ∧ CfgWord.mayAlsoChange .decm .faultinfo = false
      ∧ ({ ini with decm := 3#32, deccnt := 2#32 }.storeWord .decm 2#32).deccnt = 0#32
      ∧ ({ ini with decm := 3#32, deccnt := 1#32 }.storeWord .decm 2#32).deccnt = 1#32
      ∧ (ini.storeWord (.ph 0 false) 0x80000000#32).word (.ph 0 true) = 0xFFFFFFFF#32 := by decide +kernel
theorem test_witness_ResetValues : (halted .reset).inbox = .reset :: [] := rfl
theorem test_witness_StepKeepsTheInvariant : ringState.Inv ∧ ∃ t, step ringState = .next t := ⟨ringState_inv, _, rfl⟩
theorem test_witness_ParametersNeverChange : ∃ t, step (pending .reset) = .next t := ⟨_, rfl⟩

theorem test_witness_NopDoesNothing :
    decode 8 0#32 = .ok .nop ∧ fieldOp 0x00000001#32 = 0#8 ∧ (0x00000001#32 : Word) ≠ 0#32
      ∧ (pending (.issue 0#32)).inbox = .issue 0#32 :: [] ∧ (pending (.issue 0#32)).halted = false :=
  ⟨rfl, by decide, by decide, rfl, rfl⟩
theorem test_witness_InitClearsAndKeeps :
    decode 8 0x01000000#32 = .ok .init ∧ fieldOp 0x01800000#32 = 1#8 ∧ (0x01800000#32 : Word) ≠ 0x01000000#32 :=
  ⟨rfl, by decide, by decide⟩
/-- A command that needs INITD and one that does not, in a core before INIT. -/
theorem test_witness_NoInitFaults :
    State.reset.status.initd = false ∧ (fieldOp (encode (.pend 7))).toNat ∈ [0x18, 0x19, 0x2A, 0x2B, 0x2D]
      ∧ 0x30 ≤ (fieldOp (encode (.sos 0 0))).toNat
      ∧ ¬((fieldOp (encode (.lsumt 0))).toNat ∈ [0x18, 0x19, 0x2A, 0x2B, 0x2D]
          ∨ 0x30 ≤ (fieldOp (encode (.lsumt 0))).toNat)
      ∧ exec (.xmov 0 1) State.reset = .next (out (.xmov 0 1) State.reset) ∧ State.reset.status.fault = none := by
  refine ⟨rfl, by decide, by decide, by decide, rfl, rfl⟩
/-- A mapped and an unmapped address, the second by wrapping from 0xFFFF. -/
theorem test_witness_CfgrReads :
    cfgWord ini.par (BitVec.ofNat 16 ((ini.setX 1 0xFFFF#64).x[1].toNat % 2 ^ 16 + (3 : BitVec 12).toNat)) = some .status
      ∧ cfgWord ini.par (BitVec.ofNat 16 ((ini.setX 1 0xFFFF#64).x[1].toNat % 2 ^ 16 + (0 : BitVec 12).toNat)) = none := by
  decide +kernel
theorem test_witness_CfgwWrites :
    cfgWord ini.par (BitVec.ofNat 16 (ini.x[1].toNat % 2 ^ 16 + (4 : BitVec 12).toNat)) = some .decm
      ∧ CfgWord.decm.writable = true
      ∧ cfgWord ini.par (BitVec.ofNat 16 (ini.x[1].toNat % 2 ^ 16 + (2 : BitVec 12).toNat)) = some .status
      ∧ CfgWord.status.writable = false
      ∧ cfgWord ini.par (BitVec.ofNat 16 (ini.x[1].toNat % 2 ^ 16 + (0xFFF : BitVec 12).toNat)) = none := by
  decide +kernel

/-- The largest distance for which the order is right, and the difference that orders neither way. -/
theorem test_witness_CompareOrdersWrappingTimes :
    |(2 ^ 63 - 1 : Int) - 0| < 2 ^ 63 ∧ (0x8000000000000000#64 - 0#64 : XWord) = 0x8000000000000000#64 := by
  refine ⟨by norm_num, by decide⟩
theorem test_witness_OscillatorStep : ini.status.initd = true ∧ (out (.tlfo 3 1 1) (ini.setX 1 0x40000000#64)).x[3] = 0x40000000#64
    ∧ (out (.tlfo 3 1 1) (ini.setX 1 0x40000001#64)).x[3] = 0x3FFFFFFF#64
    ∧ (out (.tlfo 3 1 1) (ini.setX 1 (-0x40000001#64))).x[3] = -0x3FFFFFFF#64 := by decide
theorem test_witness_OscillatorBound : ini.status.initd = true
    ∧ exec (.plfo 2 1 0) ini = .next (out (.plfo 2 1 0) ini) ∧ exec (.tlfo 2 1 0) ini = .next (out (.tlfo 2 1 0) ini) :=
  ⟨rfl, rfl, rfl⟩

/-- The last lane of a core with four lanes, and the first position that is none. -/
theorem test_witness_LaneInsertExtract :
    (3 : Lane).val < four.par.n ∧ four.par.n ≤ (4 : Lane).val
      ∧ (out (.lext 1 0 4) four).status.fault = some .index ∧ (out (.lext 1 0 3) four).status.fault = none := by decide
theorem test_witness_RampStep : ini.status.initd = true := rfl
/-- Legal parameters with N / NCH = 8, 4, 2, 1. -/
theorem test_witness_TreeSum :
    Params.legal { defaultParams with nch := 1 } = true ∧ Params.legal defaultParams = true
      ∧ Params.legal { defaultParams with n := 4 } = true ∧ Params.legal { defaultParams with n := 2 } = true := by
  decide +kernel
/-- The first sample of a period, one inside it, and the last. -/
theorem test_witness_DecimatorStep : ini.status.initd = true ∧ ini.deccnt = 0#32
    ∧ ({ ini with decm := 2#32, deccnt := 1#32 } : State).deccnt ≠ 0#32 := by decide
/-- No section; all five: the first and the last section on each side. -/
theorem test_witness_SosCascade : ini.status.initd = true ∧ ini.sos[0].nsect.val ≤ (0 : Fin Config.nsecmax).val
    ∧ (4 : Fin Config.nsecmax).val < (ini.storeWord (.sosNsect 0) 5#32).sos[0].nsect.val := by decide
theorem test_witness_OnePoleAndDcBlocker : ini.status.initd = true := rfl
/-- Two states that differ in lane 1 of the input, the coefficients and the state, and agree in lane 0. -/
theorem test_witness_FilterLanesAreIndependent :
    let v : Lanes := #v[0#32, 0x3F800000#32, 0#32, 0#32, 0#32, 0#32, 0#32, 0#32]
    let s : State := { ini.setL 0 v with lp1 := Vector.replicate 4 ⟨v, v⟩ }
    ini.par = s.par ∧ ini.draw = s.draw ∧ s.status.initd = true ∧ ini.status.initd = true
      ∧ (ini.l[0][0] = s.l[0][0] ∧ ini.l[0][1] ≠ s.l[0][1])
      ∧ ini.sos[0].nsect = s.sos[0].nsect
      ∧ (∀ (j : Fin Config.nsecmax) (q : Fin 7), (ini.sos[0].sec[j].arr q)[0] = (s.sos[0].sec[j].arr q)[0])
      ∧ (ini.lp1[0].a[0] = s.lp1[0].a[0] ∧ ini.lp1[0].s[0] = s.lp1[0].s[0] ∧ ini.lp1[0].a[1] ≠ s.lp1[0].a[1])
      ∧ (ini.dcb[0].r[0] = s.dcb[0].r[0] ∧ ini.dcb[0].x1[0] = s.dcb[0].x1[0] ∧ ini.dcb[0].y1[0] = s.dcb[0].y1[0])
      ∧ exec (.sos 0 0) s = .next (out (.sos 0 0) s) ∧ exec (.sos 0 0) ini = .next (out (.sos 0 0) ini)
      ∧ exec (.lp1 0 0) s = .next (out (.lp1 0 0) s) ∧ exec (.lp1 0 0) ini = .next (out (.lp1 0 0) ini)
      ∧ exec (.dcb 0 0) s = .next (out (.dcb 0 0) s) ∧ exec (.dcb 0 0) ini = .next (out (.dcb 0 0) ini) := by
  refine ⟨rfl, rfl, rfl, rfl, by decide, rfl, by decide, by decide, by decide, rfl, rfl, rfl, rfl, rfl, rfl⟩

theorem test_witness_ModulationStep : ini.status.initd = true := rfl
/-- A NaN and -1.0; infinity and 2^32; the largest Sample below 2^32, and -0.0. -/
theorem test_witness_SplitDelayIsFloorAndFraction :
    isNaN 0x7FC00000#32 = true ∧ (signBit 0xBF800000#32 = true ∧ isZero 0xBF800000#32 = false)
      ∧ (signBit 0x7F800000#32 = false ∧ isInf 0x7F800000#32 = true)
      ∧ (signBit 0x4F800000#32 = false ∧ isFinite 0x4F800000#32 = true ∧ 2 ^ 32 ≤ valQ 0x4F800000#32)
      ∧ (signBit 0x4F7FFFFF#32 = false ∧ isFinite 0x4F7FFFFF#32 = true ∧ valQ 0x4F7FFFFF#32 < 2 ^ 32)
      ∧ (isZero 0x80000000#32 = true ∧ isFinite 0x80000000#32 = true ∧ valQ 0x80000000#32 < 2 ^ 32) := by
  refine ⟨rfl, by decide, by decide, ⟨by decide, by decide, ?_⟩, ⟨by decide, by decide, ?_⟩, by decide, by decide, ?_⟩ <;>
    unfold valQ
  · rw [show signedSignif 0x4F800000#32 = 2 ^ 23 by decide, show lsbExp 0x4F800000#32 = 9 by decide]; norm_num
  · rw [show signedSignif 0x4F7FFFFF#32 = 2 ^ 24 - 1 by decide, show lsbExp 0x4F7FFFFF#32 = 8 by decide]; norm_num
  · rw [show signedSignif 0x80000000#32 = 0 by decide]; norm_num
theorem test_witness_DelaySet : ini.status.initd = true := rfl
theorem test_witness_DelayWrite : ini.status.initd = true ∧ Memory.wf ringState.dl[2].buf = true := ⟨rfl, by decide⟩
theorem test_witness_DelayTaps : ini.status.initd = true := rfl
theorem test_witness_CursorCommands : ini.status.initd = true := rfl
/-- The statement's premises, and its result for this state: 2.0 comes back. -/
theorem test_witness_RingIdempotence :
    ringState.status.initd = true ∧ ringState.Inv ∧ (7 : Lane).val < ringState.par.n
      ∧ ringState.dl[2].idelay[7] = BitVec.ofNat 32 (2 ^ ringState.par.dllog[2]) ∧ ringState.dl[2].fdelay[7] = 0#32
      ∧ ringState.l[0][7] ≠ 0x80000000#32
      ∧ (∀ d, isFinite (fsub d ((out (.dlwr 0 2) ringState).tapv 2 7 1) ringState.l[0][7]) = true)
      ∧ (out (.dlrdl 1 2) (out (.dlwr 0 2) ringState)).l[1][7] = 0x40000000#32 := by
  refine ⟨rfl, ringState_inv, by decide, by decide, by decide, by decide, fun d => ?_, by decide +kernel⟩
  rw [show (out (.dlwr 0 2) ringState).tapv 2 7 1 = 0#32 by decide +kernel,
    show ringState.l[0][7] = 0x40000000#32 by decide, show fsub d 0#32 0x40000000#32 = 0xC0000000#32 from rfl]
  rfl
/-- No stage; all 128: the first and the last stage on each side. -/
theorem test_witness_AllpassCascade : ringState.status.initd = true ∧ ringState.memoriesWf
    ∧ ringState.ap[0].nstage.val ≤ (0 : Fin Config.nstagemax).val
    ∧ (127 : Fin Config.nstagemax).val < (ringState.storeWord (.apNstage 0) 128#32).ap[0].nstage.val :=
  ⟨rfl, ringState_memories, by decide, by decide +kernel⟩
theorem test_witness_EqSection : ini.status.initd = true ∧ Memory.wf ini.eq.eqm = true := ⟨rfl, rfl⟩

theorem test_witness_SpeedStep : ini.status.initd = true := rfl
theorem test_witness_TapeWrite : ringState.status.initd = true ∧ ringState.memoriesWf := ⟨rfl, ringState_memories⟩
/-- A seek between two entries; a target before the oldest; one at the newest. -/
theorem test_witness_TapeSeek :
    let low : State := { tapeState with tape := { tapeState.tape with xwrite := 0x2400000000000000#64 } }
    let high : State := { tapeState with tape := { tapeState.tape with xwrite := 0x6000000000000000#64 } }
    tapeState.status.initd = true ∧ low.status.initd = true ∧ high.status.initd = true
      ∧ (out (.tseek 0 0) tapeState).status.tapUnder = false ∧ (out (.tseek 0 0) tapeState).status.tapOver = false
      ∧ (out (.tseek 0 0) low).status.tapUnder = true ∧ (out (.tseek 0 0) high).status.tapOver = true := by decide
/-- Entries 0, 1, 2, 3 and a target found, too early, and too late. -/
theorem test_witness_SearchBracketsTheTarget :
    let times : Nat → XWord := fun p => BitVec.ofNat 64 p
    2 ≤ 3 ∧ ((searchFrom times 2#64 3 0).pos = 2 ∧ (searchFrom times 2#64 3 0).isUnder = false
        ∧ (searchFrom times 2#64 3 0).isOver = false)
      ∧ ((searchFrom times (-1) 3 2).pos = 0 ∧ (searchFrom times (-1) 3 2).isUnder = true)
      ∧ ((searchFrom times 3#64 3 2).pos = 3 ∧ (searchFrom times 3#64 3 2).isOver = true) := by decide
theorem test_witness_SearchFindsTheFloorSlot :
    let times : Nat → XWord := fun p => BitVec.ofNat 64 p
    2 ≤ 3 ∧ ∀ p q : Nat, p ≤ q → q ≤ 3 → ¬(0 < (times q - 2#64).toInt) → ¬(0 < (times p - 2#64).toInt) := by
  refine ⟨by decide, fun p q hp hq => ?_⟩
  interval_cases q <;> interval_cases p <;> decide
/-- A tap just faster than the threshold, one at it; a lane that is no channel. -/
theorem test_witness_TapeRead : ini.status.initd = true ∧ Params.legal ini.par = true
    ∧ fgt 0x3F8147AF#32 ini.tape.fastth = true ∧ fgt 0x3F8147AE#32 ini.tape.fastth = false
    ∧ (1 : Fin 2).val < ini.par.nch ∧ ini.par.nch ≤ (2 : Lane).val ∧ (2 : Lane).val < ini.par.n :=
  ⟨rfl, test_default_parameters, by decide, by decide, by decide, by decide, by decide⟩
/-- No fade and a fade; each way TMODE may go. -/
theorem test_witness_Reversal :
    let back : State := ini.setTap 0 { Tap.reset with dir := .backwards }
    ini.status.initd = true ∧ ini.status.fading = false
      ∧ ({ ini with status := { ini.status with fading := true } } : State).status.fading = true
      ∧ ini.tape.taps[ini.tape.cur].dir = .forwards ∧ back.tape.taps[back.tape.cur].dir = .backwards
      ∧ (out (.tmode .normal) ini).tape.cur = 0 ∧ (out (.tmode .normal) back).tape.cur = 1
      ∧ (out (.tmode .reverse) back).tape.cur = 0 ∧ (out (.tmode .backForth) back).tape.cur = 0 := by decide
/-- No fade; a fade before its last sample; its last sample. -/
theorem test_witness_TapeMix :
    let fade : State := { ini with status := { ini.status with fading := true }, tape := { ini.tape with fcnt := 255#9 } }
    ini.status.initd = true ∧ Params.legal ini.par = true ∧ ini.status.fading = false
      ∧ fade.status.fading = true ∧ fade.tape.fcnt.toNat + 1 = 256 := ⟨rfl, test_default_parameters, rfl, rfl, rfl⟩
theorem test_witness_FadeLasts256 :
    let s : State := { ini with status := { ini.status with fading := true } }
    s.status.initd = true ∧ s.status.fading = true ∧ s.tape.fcnt = 0#9 := ⟨rfl, rfl, rfl⟩
theorem test_witness_ForwardReverseSymmetry :
    ini.status.initd = true ∧ ini.status.fading = false ∧ ini.tape.taps[ini.tape.cur].dir = .forwards := ⟨rfl, rfl, rfl⟩

/-- Half a last bit past the largest finite Sample rounds to infinity, anything less does not (IEEE 754). -/
theorem test_witness_SampleSumsRoundOnce :
    isFinite 0x7F7FFFFF#32 = true ∧ isFinite 0x73000000#32 = true ∧ isFinite 0x72FFFFFF#32 = true
      ∧ (∀ d, fadd d 0x7F7FFFFF#32 0x73000000#32 = 0x7F800000#32)
      ∧ (∀ d, fadd d 0x7F7FFFFF#32 0x72FFFFFF#32 = 0x7F7FFFFF#32)
      ∧ (∀ d, fadd d 0x80000000#32 0x80000000#32 = 0x80000000#32)
      ∧ (∀ d, fsub d 0x3F800000#32 0x3F800000#32 = 0#32) ∧ (∀ d, fsub d 0x80000000#32 0#32 = 0x80000000#32)
      ∧ valQ 0x3F800000#32 - valQ 0x3F800000#32 = 0 ∧ valQ 0x80000000#32 + valQ 0x80000000#32 = 0 := by
  refine ⟨rfl, rfl, rfl, fun _ => rfl, fun _ => rfl, fun _ => rfl, fun _ => rfl, fun _ => rfl, sub_self _, ?_⟩
  unfold valQ
  rw [show signedSignif 0x80000000#32 = 0 by decide]
  norm_num
/-- Half the least subnormal rounds to even, a zero with the product's sign; 1 / 3 is 0x3EAAAAAB (IEEE 754). -/
theorem test_witness_SampleProductsRoundOnce :
    isFinite 0x80000001#32 = true ∧ isZero 0x40400000#32 = false
      ∧ (∀ d, fmul d 0x80000001#32 0x3F000000#32 = 0x80000000#32)
      ∧ ∀ d, fdiv d 0x3F800000#32 0x40400000#32 = 0x3EAAAAAB#32 :=
  ⟨rfl, rfl, fun _ => rfl, fun _ => rfl⟩
/-- The special operands of each clause. -/
theorem test_witness_SampleSpecialValues :
    isInf 0xFF800000#32 = true ∧ isFinite 0#32 = true ∧ isNaN 0x7F800001#32 = true ∧ isZero 0x80000000#32 = true
      ∧ isFinite 0x3F800000#32 = true ∧ isZero 0x3F800000#32 = false ∧ isNaN 0x7F800000#32 = false
      ∧ isInf 0x7F800000#32 = true ∧ signBit 0xFF800000#32 ≠ signBit 0x7F800000#32 := by decide

end Sys2Proof.Tests
end

/-! PROOFS. The step serving Issue, HostRead and HostWrite (00_scope.md R12). -/

namespace Sys2Proof.Machine

/-- Issue in a core that runs, of a word that decodes. -/
theorem issue_of_decode {s : State} {w : Word} {i : Instr} (hf : s.status.fault = none)
    (hd : decode s.par.n w = .ok i) :
    s.issue w = exec i { s with index := s.index + 1, draw := s.draw + 1 } := by
  simp [State.issue, State.halted, hf, hd]

theorem step_idle {s : State} (h : s.inbox = []) : step s = .next s := by
  simp only [step, State.serveNext, h]

theorem step_hostRead {s : State} {a : BitVec 16} {rest : List HostTx} (h : s.inbox = .hostRead a :: rest) :
    step s = .next ({ s with inbox := rest }.hostRead a) := by
  simp only [step, State.serveNext, h, State.serve]

theorem step_hostWrite {s : State} {a : BitVec 16} {v : Word} {rest : List HostTx}
    (h : s.inbox = .hostWrite a v :: rest) (hr : s.halted = false) :
    step s = .next ({ s with inbox := rest }.cfgWrite a v) := by
  have hr' : State.halted { s with inbox := rest } = false := hr
  simp [step, State.serveNext, h, State.serve, State.hostWrite, hr']

theorem withFetchWord_toNat (s : State) (w : Word) : s.withFetchWord 32 w.toNat = s.pushIssue w := by
  simp [State.withFetchWord, Nat.mod_eq_of_lt w.isLt]

/-- Settles O5: the step serves Issue, and `withFetchWord` puts that transaction first. -/
theorem stepRunsTheDecodedInstruction : Obligations.StepRunsTheDecodedInstruction := by
  intro s w rest i hf hd
  constructor
  · intro h
    rw [step_issue h]
    exact issue_of_decode hf hd
  · rw [withFetchWord_toNat, step_issue (s := s.pushIssue w) rfl]
    exact issue_of_decode hf hd

/-- Settles O9: an idle step, HostRead and HostWrite by the CFG map. -/
theorem hostAccess : Obligations.HostAccess := by
  intro s rest a v
  refine ⟨step_idle, fun h => ?_, fun h hr => ?_⟩
  · rw [step_hostRead h]
    simp only [State.hostRead, State.cfgRead]
    cases hw : cfgWord s.par a <;> rfl
  · rw [step_hostWrite h hr]
    cases hw : cfgWord s.par a with
    | none => simp [State.cfgWrite, hw]
    | some wd => cases hwr : wd.writable <;> simp [State.cfgWrite, hw, hwr]

end Sys2Proof.Machine

/-! SUPPORT. The pattern of a Sample: its sign and its 31 magnitude bits, which say what kind of number it is (R9). -/

namespace Sys2Proof.Machine

/-- The magnitude bits of a pattern, as the model's `orderKey` reads them. -/
def magBits (a : Sample) : Nat := a.toNat % 2 ^ 31

theorem magBits_lt (a : Sample) : magBits a < 2 ^ 31 := Nat.mod_lt _ (by decide)

theorem expField_eq (a : Sample) : expField a = magBits a / 2 ^ 23 := by
  simp only [expField, magBits, BitVec.extractLsb'_toNat, Nat.shiftRight_eq_div_pow]
  omega

theorem fracField_eq (a : Sample) : fracField a = magBits a % 2 ^ 23 := by
  simp only [fracField, magBits, BitVec.extractLsb'_toNat, Nat.shiftRight_eq_div_pow]
  omega

theorem signBit_eq (a : Sample) : signBit a = decide (2 ^ 31 ≤ a.toNat) := by
  simp [signBit, BitVec.msb_eq_decide]

/-- A pattern is its sign bit above its magnitude bits. -/
theorem toNat_eq_magBits_add (a : Sample) : a.toNat = magBits a + if signBit a then 2 ^ 31 else 0 := by
  have ha := a.isLt
  simp only [signBit_eq, magBits, decide_eq_true_eq]
  split <;> omega

theorem eq_of_sign_of_magBits {a b : Sample} (hs : signBit a = signBit b) (hm : magBits a = magBits b) : a = b := by
  apply BitVec.eq_of_toNat_eq
  rw [toNat_eq_magBits_add a, toNat_eq_magBits_add b, hs, hm]

theorem isNaN_iff (a : Sample) : isNaN a = true ↔ 0x7F800000 < magBits a := by
  have h := magBits_lt a
  simp only [isNaN, expField_eq, fracField_eq, Bool.and_eq_true, beq_iff_eq, bne_iff_ne]
  omega

theorem isInf_iff (a : Sample) : isInf a = true ↔ magBits a = 0x7F800000 := by
  have h := magBits_lt a
  simp only [isInf, expField_eq, fracField_eq, Bool.and_eq_true, beq_iff_eq]
  omega

theorem isFinite_iff (a : Sample) : isFinite a = true ↔ magBits a < 0x7F800000 := by
  have h := magBits_lt a
  simp only [isFinite, expField_eq, bne_iff_ne]
  omega

theorem isZero_iff (a : Sample) : isZero a = true ↔ magBits a = 0 := by
  have h := magBits_lt a
  simp only [isZero, expField_eq, fracField_eq, Bool.and_eq_true, beq_iff_eq]
  omega

theorem isNaN_of_isFinite {a : Sample} (h : isFinite a = true) : isNaN a = false := by
  rw [isFinite_iff] at h
  rw [← Bool.not_eq_true, isNaN_iff]
  omega

theorem isInf_of_isFinite {a : Sample} (h : isFinite a = true) : isInf a = false := by
  rw [isFinite_iff] at h
  rw [← Bool.not_eq_true, isInf_iff]
  omega

theorem isNaN_of_isInf {a : Sample} (h : isInf a = true) : isNaN a = false := by
  rw [isInf_iff] at h
  rw [← Bool.not_eq_true, isNaN_iff]
  omega

theorem isZero_of_isInf {a : Sample} (h : isInf a = true) : isZero a = false := by
  rw [isInf_iff] at h
  rw [← Bool.not_eq_true, isZero_iff]
  omega

theorem isFinite_of_isZero {a : Sample} (h : isZero a = true) : isFinite a = true := by
  rw [isZero_iff] at h
  rw [isFinite_iff]
  omega

/-- The last bit of a pattern is the last of its magnitude bits. -/
theorem getLsbD_zero_eq (a : Sample) : a.getLsbD 0 = decide (magBits a % 2 = 1) := by
  rw [BitVec.getLsbD, Nat.testBit_zero, magBits]
  congr 2
  omega

/-! Patterns made from a sign and magnitude bits. -/

/-- The pattern of a sign and magnitude bits. -/
def ofMag (neg : Bool) (n : Nat) : Sample := BitVec.ofNat 32 (n + if neg then 2 ^ 31 else 0)

theorem toNat_ofMag (neg : Bool) {n : Nat} (h : n < 2 ^ 31) : (ofMag neg n).toNat = n + if neg then 2 ^ 31 else 0 := by
  rw [ofMag, BitVec.toNat_ofNat]
  split <;> omega

theorem magBits_ofMag (neg : Bool) {n : Nat} (h : n < 2 ^ 31) : magBits (ofMag neg n) = n := by
  rw [magBits, toNat_ofMag neg h]
  split <;> omega

theorem signBit_ofMag (neg : Bool) {n : Nat} (h : n < 2 ^ 31) : signBit (ofMag neg n) = neg := by
  rw [signBit_eq, toNat_ofMag neg h]
  cases neg
  · simpa using h
  · simp

theorem ofMag_sign_magBits (a : Sample) : ofMag (signBit a) (magBits a) = a :=
  eq_of_sign_of_magBits (signBit_ofMag _ (magBits_lt a)) (magBits_ofMag _ (magBits_lt a))

theorem infOf_eq_ofMag (neg : Bool) : infOf neg = ofMag neg 0x7F800000 := by cases neg <;> rfl

theorem zeroOf_eq_ofMag (neg : Bool) : zeroOf neg = ofMag neg 0 := by cases neg <;> rfl

theorem roundMag_le (m : Nat) (e : Int) : roundMag m e ≤ 0x7F800000 := by
  rw [roundMag]
  split
  · exact Nat.zero_le _
  · exact Nat.min_le_right _ _

theorem roundTo_eq_ofMag (neg : Bool) (m : Nat) (e : Int) : roundTo neg m e = ofMag neg (roundMag m e) := rfl

theorem magBits_roundTo (neg : Bool) (m : Nat) (e : Int) : magBits (roundTo neg m e) = roundMag m e :=
  magBits_ofMag neg (by have := roundMag_le m e; omega)

theorem signBit_roundTo (neg : Bool) (m : Nat) (e : Int) : signBit (roundTo neg m e) = neg :=
  signBit_ofMag neg (by have := roundMag_le m e; omega)

@[simp] theorem roundTo_zero (neg : Bool) (e : Int) : roundTo neg 0 e = zeroOf neg := by
  rw [zeroOf_eq_ofMag, roundTo_eq_ofMag, roundMag, if_pos rfl]

/-- Rounding makes no NaN. -/
@[simp] theorem isNaN_roundTo (neg : Bool) (m : Nat) (e : Int) : isNaN (roundTo neg m e) = false := by
  have := roundMag_le m e
  rw [← Bool.not_eq_true, isNaN_iff, magBits_roundTo]
  omega

@[simp] theorem isNaN_infOf (neg : Bool) : isNaN (infOf neg) = false := by cases neg <;> rfl

@[simp] theorem isNaN_zeroOf (neg : Bool) : isNaN (zeroOf neg) = false := by cases neg <;> rfl

/-- An infinity is the one of its sign. -/
theorem eq_infOf {a : Sample} (h : isInf a = true) : a = infOf (signBit a) := by
  rw [infOf_eq_ofMag, ← (isInf_iff a).mp h, ofMag_sign_magBits]

theorem toNat_nanAt (d : Draw) :
    ∃ sign payload : Nat, payload < 2 ^ 22 ∧ (nanAt d).toNat = sign * 2 ^ 31 + 0x7FC00000 + payload := by
  refine ⟨((Config.nanDraw d).extractLsb' 22 1).toNat, ((Config.nanDraw d).extractLsb' 0 22).toNat,
    BitVec.isLt _, ?_⟩
  have hp := ((Config.nanDraw d).extractLsb' 0 22).isLt
  simp only [nanAt, BitVec.toNat_append, Nat.shiftLeft_eq]
  rw [Nat.mul_comm _ (2 ^ 22), ← Nat.two_pow_add_eq_or_of_lt hp, Nat.mul_comm _ (2 ^ 1),
    ← Nat.two_pow_add_eq_or_of_lt (BitVec.isLt 1#1), Nat.mul_comm _ (2 ^ 8),
    ← Nat.two_pow_add_eq_or_of_lt (BitVec.isLt 0xFF#8)]
  simp only [BitVec.toNat_ofNat]
  omega

theorem isNaN_nanAt (d : Draw) : isNaN (nanAt d) = true := by
  obtain ⟨sign, payload, hp, hn⟩ := toNat_nanAt d
  rw [isNaN_iff, magBits, hn]
  omega

/-- The NaN made at a place is quiet. -/
theorem getLsbD_nanAt (d : Draw) : (nanAt d).getLsbD 22 = true := by
  obtain ⟨sign, payload, hp, hn⟩ := toNat_nanAt d
  rw [BitVec.getLsbD, Nat.testBit_eq_decide_div_mod_eq, hn, decide_eq_true_eq]
  omega

/-! Negation. -/

@[simp] theorem signBit_fneg (a : Sample) : signBit (fneg a) = !signBit a := by
  simp [signBit, fneg, BitVec.msb_xor, show (0x80000000#32).msb = true from rfl]

@[simp] theorem magBits_fneg (a : Sample) : magBits (fneg a) = magBits a := by
  have h : (fneg a).setWidth 31 = a.setWidth 31 := by simp [fneg, BitVec.setWidth_xor]
  simpa [magBits] using congrArg BitVec.toNat h

@[simp] theorem isNaN_fneg (a : Sample) : isNaN (fneg a) = isNaN a := by
  rw [Bool.eq_iff_iff, isNaN_iff, isNaN_iff, magBits_fneg]

@[simp] theorem isInf_fneg (a : Sample) : isInf (fneg a) = isInf a := by
  rw [Bool.eq_iff_iff, isInf_iff, isInf_iff, magBits_fneg]

@[simp] theorem isFinite_fneg (a : Sample) : isFinite (fneg a) = isFinite a := by
  rw [Bool.eq_iff_iff, isFinite_iff, isFinite_iff, magBits_fneg]

theorem fneg_eq_iff (a b : Sample) : fneg a = b ↔ a = fneg b := by
  simp only [fneg]
  constructor <;> rintro rfl <;> simp

end Sys2Proof.Machine

/-! SUPPORT. The values of the magnitude bits, a strictly increasing function of them. -/

namespace Sys2Proof.Machine

/-- The value of the magnitude bits `n`, continued past the largest finite number as if the exponent field had no
end, so that the bits of an infinity stand for 2 ^ 128. -/
def magVal (n : Nat) : ℚ :=
  if n < 2 ^ 23 then n * 2 ^ (-149 : Int) else (2 ^ 23 + n % 2 ^ 23 : Nat) * 2 ^ ((n / 2 ^ 23 : Nat) - 150 : Int)

theorem signif_mul_lsbExp (a : Sample) : (signif a : ℚ) * 2 ^ lsbExp a = magVal (magBits a) := by
  have h0 : magBits a / 2 ^ 23 = 0 ↔ magBits a < 2 ^ 23 := by omega
  simp only [signif, lsbExp, magVal, expField_eq, fracField_eq, h0]
  split
  · next h => rw [Nat.mod_eq_of_lt h]
  · rfl

theorem valQ_eq (a : Sample) : valQ a = if signBit a then -magVal (magBits a) else magVal (magBits a) := by
  rw [← signif_mul_lsbExp, valQ, signedSignif]
  split <;> simp

/-- `j` binades up, significand `t`: the value of the bits `j * 2 ^ 23 + t`, also where a carry has made `t` reach
2 ^ 24. -/
theorem magVal_of_signif {j t : Nat} (hlo : j = 0 ∨ 2 ^ 23 ≤ t) (hhi : t ≤ 2 ^ 24) :
    magVal (j * 2 ^ 23 + t) = t * 2 ^ ((j : Int) - 149) := by
  by_cases hsub : j * 2 ^ 23 + t < 2 ^ 23
  · have hj : j = 0 := by omega
    subst hj
    simp only [magVal, if_pos hsub]
    simp
  rw [magVal, if_neg hsub]
  by_cases htop : t = 2 ^ 24
  · subst htop
    have h1 : (j * 2 ^ 23 + 2 ^ 24) % 2 ^ 23 = 0 := by omega
    have h2 : (j * 2 ^ 23 + 2 ^ 24) / 2 ^ 23 = j + 2 := by omega
    have h3 : ((j + 2 : Nat) : Int) - 150 = ((j : Int) - 149) + 1 := by omega
    rw [h1, h2, h3, zpow_add_one₀ (by norm_num)]
    norm_num
    ring
  · have h1 : 2 ^ 23 + (j * 2 ^ 23 + t) % 2 ^ 23 = t := by omega
    have h2 : (j * 2 ^ 23 + t) / 2 ^ 23 = j + 1 := by omega
    have h3 : ((j + 1 : Nat) : Int) - 150 = (j : Int) - 149 := by omega
    rw [h1, h2, h3]

theorem exists_binade (n : Nat) : ∃ j t : Nat, n = j * 2 ^ 23 + t ∧ (j = 0 ∨ 2 ^ 23 ≤ t) ∧ t < 2 ^ 24 := by
  by_cases h : n < 2 ^ 23
  · exact ⟨0, n, by omega, .inl rfl, by omega⟩
  · exact ⟨n / 2 ^ 23 - 1, 2 ^ 23 + n % 2 ^ 23, by omega, .inr (by omega), by omega⟩

theorem magVal_strictMono : StrictMono magVal := by
  refine strictMono_nat_of_lt_succ fun n => ?_
  obtain ⟨j, t, rfl, hlo, hhi⟩ := exists_binade n
  rw [Nat.add_assoc, magVal_of_signif hlo hhi.le, magVal_of_signif (hlo.imp_right (by omega)) hhi]
  have hu : (0 : ℚ) < 2 ^ ((j : Int) - 149) := by positivity
  push_cast
  linarith

@[simp] theorem magVal_zero : magVal 0 = 0 := by simp [magVal]

theorem magVal_nonneg (n : Nat) : 0 ≤ magVal n := by
  rw [← magVal_zero]
  exact magVal_strictMono.monotone (Nat.zero_le n)

theorem magVal_eq_zero {n : Nat} : magVal n = 0 ↔ n = 0 := by
  rw [← magVal_zero, magVal_strictMono.injective.eq_iff]

theorem abs_valQ (a : Sample) : |valQ a| = magVal (magBits a) := by
  rw [valQ_eq]
  split
  · rw [abs_neg, abs_of_nonneg (magVal_nonneg _)]
  · exact abs_of_nonneg (magVal_nonneg _)

theorem valQ_eq_zero {a : Sample} : valQ a = 0 ↔ magBits a = 0 := by
  rw [← abs_eq_zero, abs_valQ, magVal_eq_zero]

@[simp] theorem valQ_fneg (a : Sample) : valQ (fneg a) = -valQ a := by
  rw [valQ_eq, valQ_eq, magBits_fneg, signBit_fneg]
  cases signBit a <;> simp

end Sys2Proof.Machine

/-! SUPPORT. Rounding to nearest, ties to even, on any strictly increasing grid. -/

namespace Sys2Proof.Machine

/-- `p` is the place that round to nearest, ties to even place, gives to `q` among the values of a grid. -/
def NearestEven (g : Nat → ℚ) (q : ℚ) (p : Nat) : Prop :=
  ∀ n : Nat, |g p - q| ≤ |g n - q| ∧ (|g n - q| = |g p - q| → n = p ∨ p % 2 = 0)

/-- Where a number of the cell from `g n` to `g (n + 1)` is rounded to: up above the middle, and at the middle when `n`
is odd. -/
def roundInCell (g : Nat → ℚ) (q : ℚ) (n : Nat) : Nat :=
  if g n + g (n + 1) < 2 * q ∨ (g n + g (n + 1) = 2 * q ∧ n % 2 = 1) then n + 1 else n

/-- A number of the grid is rounded to itself. -/
theorem roundInCell_self {g : Nat → ℚ} {n : Nat} (h : g n < g (n + 1)) : roundInCell g (g n) n = n := by
  rw [roundInCell, if_neg]
  rintro (h' | ⟨h', -⟩) <;> linarith

/-- Rounding inside its cell gives the nearest place of the whole grid. -/
theorem nearestEven_of_cell {g : Nat → ℚ} (hg : StrictMono g) {q : ℚ} {n : Nat} (hlo : g n ≤ q)
    (hhi : q < g (n + 1)) : NearestEven g q (roundInCell g q n) := by
  have below : |g n - q| = q - g n := by rw [abs_of_nonpos (by linarith), neg_sub]
  have above : |g (n + 1) - q| = g (n + 1) - q := abs_of_pos (by linarith)
  intro k
  -- either `k` is an end of the cell, or it lies outside and is further away than the end on its side
  have hk : k = n ∨ k = n + 1 ∨ q - g n < |g k - q| ∧ k < n ∨ g (n + 1) - q < |g k - q| ∧ n + 1 < k := by
    rcases Nat.lt_trichotomy k n with h | h | h
    · have := hg h
      exact .inr (.inr (.inl ⟨by rw [abs_of_neg (by linarith)]; linarith, h⟩))
    · exact .inl h
    · rcases Nat.eq_or_lt_of_le h with h' | h'
      · exact .inr (.inl h'.symm)
      · have := hg h'
        exact .inr (.inr (.inr ⟨by rw [abs_of_pos (by linarith)]; linarith, h'⟩))
  rw [roundInCell]
  split
  · next hup =>
    have hmid : g n + g (n + 1) ≤ 2 * q := hup.elim le_of_lt fun h => h.1.le
    rcases hk with rfl | rfl | ⟨hd, -⟩ | ⟨hd, -⟩
    · refine ⟨by rw [below, above]; linarith, fun he => .inr ?_⟩
      rw [below, above] at he
      rcases hup with h | ⟨-, h⟩
      · linarith
      · omega
    · exact ⟨le_rfl, fun _ => .inl rfl⟩
    all_goals exact ⟨by rw [above]; linarith, fun he => by rw [above] at he; linarith⟩
  · next hdn =>
    have hmid : 2 * q ≤ g n + g (n + 1) := not_lt.mp fun h => hdn (.inl h)
    rcases hk with rfl | rfl | ⟨hd, -⟩ | ⟨hd, -⟩
    · exact ⟨le_rfl, fun _ => .inl rfl⟩
    · refine ⟨by rw [below, above]; linarith, fun he => .inr ?_⟩
      rw [below, above] at he
      by_contra hodd
      exact hdn (.inr ⟨by linarith, by omega⟩)
    all_goals exact ⟨by rw [below]; linarith, fun he => by rw [below] at he; linarith⟩

end Sys2Proof.Machine

/-! SUPPORT. The model's rounding is rounding on the grid of the magnitudes. `roundTo` is given an integer times a
power of two; `StandsFor` says which exact number that is rounded for. -/

namespace Sys2Proof.Machine

/-- `m * 2 ^ e` lies on the same side of every multiple of `2 ^ c * 2 ^ e` as `q` does: all that rounding to a coarser
place has to know of `q`. With `c = 0` it is `q` itself; with `c = 1`, `q` with what was dropped kept in the last
bit. -/
def StandsFor (c m : Nat) (e : Int) (q : ℚ) : Prop :=
  ∀ t : Nat, 2 ^ c ∣ t → ((t : ℚ) * 2 ^ e ≤ q ↔ t ≤ m) ∧ (q ≤ t * 2 ^ e ↔ m ≤ t)

theorem standsFor_self (m : Nat) (e : Int) : StandsFor 0 m e (m * 2 ^ e) := by
  intro t _
  have he : (0 : ℚ) < 2 ^ e := by positivity
  rw [mul_le_mul_iff_left₀ he, mul_le_mul_iff_left₀ he, Nat.cast_le, Nat.cast_le]
  exact ⟨Iff.rfl, Iff.rfl⟩

theorem StandsFor.eq_of_zero {m : Nat} {e : Int} {q : ℚ} (h : StandsFor 0 m e q) : q = m * 2 ^ e :=
  le_antisymm ((h m (by simp)).2.mpr le_rfl) ((h m (by simp)).1.mpr le_rfl)

theorem StandsFor.nonneg {c m : Nat} {e : Int} {q : ℚ} (h : StandsFor c m e q) : 0 ≤ q := by
  simpa using (h 0 (dvd_zero _)).1.mpr (Nat.zero_le m)

/-- `t` times the last bit 2 ^ k. -/
def ulps (k : Int) (t : Nat) : ℚ := t * 2 ^ k

theorem ulps_add (e : Int) (d t : Nat) : ulps (e + d) t = ((t * 2 ^ d : Nat) : ℚ) * 2 ^ e := by
  rw [ulps, zpow_add₀ (by norm_num), zpow_natCast]
  push_cast
  ring

theorem ulps_lt_succ (k : Int) (t : Nat) : ulps k t < ulps k (t + 1) := by
  simp only [ulps]
  gcongr
  omega

/-- The place of the last bit kept: 24 bits from the top, but never below that of the subnormals. -/
theorem keptExp_cases (m : Nat) (e : Int) :
    -149 ≤ keptExp m e ∧ e + (Nat.log2 m : Int) - 23 ≤ keptExp m e
      ∧ (keptExp m e = -149 ∨ keptExp m e = e + (Nat.log2 m : Int) - 23) := by
  simp only [keptExp]
  omega

/-- `roundShift` rounds what `m` stands for, in units of the last bit kept. -/
theorem roundShift_eq {c m d : Nat} {e : Int} {q : ℚ} (h : StandsFor c m e q) (hd : c < d) :
    roundShift m d = roundInCell (ulps (e + d)) q (m / 2 ^ d)
      ∧ ulps (e + d) (m / 2 ^ d) ≤ q ∧ q < ulps (e + d) (m / 2 ^ d + 1) := by
  obtain ⟨f, rfl⟩ : ∃ f, d = f + 1 := ⟨d - 1, by omega⟩
  have hmid : ∀ t : Nat, ulps (e + (f + 1 : Nat)) t + ulps (e + (f + 1 : Nat)) (t + 1)
      = 2 * ((((2 * t + 1) * 2 ^ f : Nat) : ℚ) * 2 ^ e) := by
    intro t
    rw [ulps_add, ulps_add]
    push_cast
    ring
  have hdvd : ∀ t : Nat, 2 ^ c ∣ t * 2 ^ f := fun t => Dvd.dvd.mul_left (pow_dvd_pow 2 (by omega)) t
  have hdvd' : ∀ t : Nat, 2 ^ c ∣ t * 2 ^ (f + 1) := fun t => Dvd.dvd.mul_left (pow_dvd_pow 2 (by omega)) t
  have hm := Nat.div_add_mod m (2 ^ (f + 1))
  have hr := Nat.mod_lt m (Nat.two_pow_pos (f + 1))
  set t := m / 2 ^ (f + 1)
  set r := m % 2 ^ (f + 1)
  have hpow : 2 ^ (f + 1) = 2 * 2 ^ f := by ring
  refine ⟨?_, ?_, ?_⟩
  · have hlt : ulps (e + (f + 1 : Nat)) t + ulps (e + (f + 1 : Nat)) (t + 1) < 2 * q ↔ 2 ^ f < r := by
      rw [hmid, mul_lt_mul_iff_right₀ two_pos, ← not_le, (h _ (hdvd _)).2, ← hm, hpow]
      constructor <;> intro h' <;> nlinarith
    have heq : ulps (e + (f + 1 : Nat)) t + ulps (e + (f + 1 : Nat)) (t + 1) = 2 * q ↔ r = 2 ^ f := by
      rw [hmid, mul_right_inj' two_ne_zero, le_antisymm_iff, (h _ (hdvd _)).1, (h _ (hdvd _)).2, ← hm, hpow]
      constructor
      · rintro ⟨h1, h2⟩
        nlinarith
      · rintro h1
        constructor <;> nlinarith
    simp only [roundInCell, hlt, heq]
    rfl
  · rw [ulps_add, (h _ (hdvd' _)).1, ← hm, Nat.mul_comm]
    exact Nat.le_add_right _ _
  · rw [ulps_add, ← not_le, (h _ (hdvd' _)).1, ← hm]
    nlinarith

/-- The significand before rounding: what is left of `m` above the last bit kept. -/
def truncSignif (m : Nat) (e : Int) : Nat :=
  if keptExp m e ≤ e then m * 2 ^ (e - keptExp m e).toNat else m / 2 ^ (keptExp m e - e).toNat

/-- The significand has 24 bits, or fewer at the bottom of the range. -/
theorem truncSignif_bounds {m : Nat} (hm : m ≠ 0) (e : Int) :
    truncSignif m e < 2 ^ 24 ∧ (keptExp m e = -149 ∨ 2 ^ 23 ≤ truncSignif m e) := by
  obtain ⟨-, hge, heq⟩ := keptExp_cases m e
  have hlog : 2 ^ Nat.log2 m ≤ m := Nat.log2_self_le hm
  have hlog' : m < 2 ^ (Nat.log2 m + 1) := Nat.lt_log2_self
  rw [truncSignif]
  split
  · next hk =>
    generalize hf : (e - keptExp m e).toNat = f
    constructor
    · calc m * 2 ^ f < 2 ^ (Nat.log2 m + 1) * 2 ^ f := by gcongr
        _ = 2 ^ (Nat.log2 m + 1 + f) := (pow_add ..).symm
        _ ≤ 2 ^ 24 := Nat.pow_le_pow_right two_pos (by omega)
    · refine heq.imp_right fun h => ?_
      calc 2 ^ 23 = 2 ^ Nat.log2 m * 2 ^ f := by rw [← pow_add]; congr 1; omega
        _ ≤ m * 2 ^ f := by gcongr
  · next hk =>
    generalize hf : (keptExp m e - e).toNat = f
    constructor
    · rw [Nat.div_lt_iff_lt_mul (Nat.two_pow_pos f)]
      calc m < 2 ^ (Nat.log2 m + 1) := hlog'
        _ ≤ 2 ^ (24 + f) := Nat.pow_le_pow_right two_pos (by omega)
        _ = 2 ^ 24 * 2 ^ f := pow_add ..
    · refine heq.imp_right fun h => ?_
      rw [Nat.le_div_iff_mul_le (Nat.two_pow_pos f)]
      calc 2 ^ 23 * 2 ^ f = 2 ^ Nat.log2 m := by rw [← pow_add]; congr 1; omega
        _ ≤ m := hlog

/-- `keptSignif` rounds what `m * 2 ^ e` stands for in units of the last bit kept, where enough bits stand above the
one that may stand for what was dropped. -/
theorem keptSignif_eq {c m : Nat} {e : Int} {q : ℚ} (hm : m ≠ 0) (h : StandsFor c m e q)
    (hc : c = 0 ∨ 2 ^ (24 + c) ≤ m) :
    keptSignif m e = roundInCell (ulps (keptExp m e)) q (truncSignif m e)
      ∧ ulps (keptExp m e) (truncSignif m e) ≤ q ∧ q < ulps (keptExp m e) (truncSignif m e + 1) := by
  obtain ⟨-, hge, -⟩ := keptExp_cases m e
  have hlog : c = 0 ∨ 24 + c ≤ Nat.log2 m := hc.imp_right (Nat.le_log2 hm).mpr
  rw [keptSignif, truncSignif]
  split
  · next hk =>
    obtain rfl : c = 0 := by omega
    have hexact : q = ulps (keptExp m e) (m * 2 ^ (e - keptExp m e).toNat) := by
      have he : keptExp m e + (e - keptExp m e).toNat = e := by omega
      rw [ulps, ← ulps_add, he, ulps, h.eq_of_zero]
    rw [hexact, roundInCell_self (ulps_lt_succ _ _)]
    exact ⟨rfl, le_rfl, ulps_lt_succ _ _⟩
  · next hk =>
    have hd : e + (keptExp m e - e).toNat = keptExp m e := by omega
    have := roundShift_eq h (show c < (keptExp m e - e).toNat by omega)
    rwa [hd] at this

/-- `roundMag` is rounding to nearest even among the magnitudes, with everything from 2 ^ 128 on an infinity. -/
theorem roundMag_eq {c m : Nat} {e : Int} {q : ℚ} (h : StandsFor c m e q) (hc : c = 0 ∨ 2 ^ (24 + c) ≤ m) :
    ∃ n, magVal n ≤ q ∧ q < magVal (n + 1) ∧ roundMag m e = min (roundInCell magVal q n) 0x7F800000 := by
  by_cases hm : m = 0
  · have hpos := Nat.two_pow_pos (24 + c)
    obtain rfl : c = 0 := by omega
    have hq : q = 0 := by rw [h.eq_of_zero, hm, Nat.cast_zero, zero_mul]
    have hone : magVal 0 < magVal (0 + 1) := magVal_strictMono (Nat.lt_succ_self 0)
    rw [hq, ← magVal_zero]
    refine ⟨0, le_rfl, hone, ?_⟩
    rw [roundMag, if_pos hm, roundInCell_self hone, Nat.zero_min]
  obtain ⟨hmin, -, -⟩ := keptExp_cases m e
  obtain ⟨hhi, hlo⟩ := truncSignif_bounds hm e
  obtain ⟨hround, hle, hlt⟩ := keptSignif_eq hm h hc
  obtain ⟨j, hj⟩ : ∃ j : Nat, keptExp m e = j - 149 := ⟨(keptExp m e + 149).toNat, by omega⟩
  rw [hj] at hround hle hlt hlo
  generalize truncSignif m e = t at *
  have hlo' : j = 0 ∨ 2 ^ 23 ≤ t := hlo.imp_left (by omega)
  have hval : magVal (j * 2 ^ 23 + t) = ulps (j - 149) t := magVal_of_signif hlo' hhi.le
  have hval' : magVal (j * 2 ^ 23 + t + 1) = ulps (j - 149) (t + 1) := by
    rw [Nat.add_assoc, magVal_of_signif (hlo'.imp_right (by omega)) hhi, ulps]
  refine ⟨j * 2 ^ 23 + t, hval ▸ hle, hval' ▸ hlt, ?_⟩
  have hpar : (j * 2 ^ 23 + t) % 2 = t % 2 := by omega
  rw [roundMag, if_neg hm, hround, roundInCell, roundInCell, hval, hval', hpar, hj]
  congr 1
  split <;> omega

theorem le_roundInCell (g : Nat → ℚ) (q : ℚ) (n : Nat) : n ≤ roundInCell g q n := by
  rw [roundInCell]; split <;> omega

theorem roundInCell_le (g : Nat → ℚ) (q : ℚ) (n : Nat) : roundInCell g q n ≤ n + 1 := by
  rw [roundInCell]; split <;> omega

/-- The bound of `RoundsTo` is the middle between the largest finite magnitude and 2 ^ 128. -/
theorem overflow_bound : magVal 0x7F7FFFFF + magVal (0x7F7FFFFF + 1) = 2 * ((2 ^ 25 - 1) * 2 ^ 103) := by
  norm_num [magVal]

/-- A magnitude rounds to an infinity exactly from the bound on, and below it to the nearest magnitude. -/
theorem roundMag_spec {c m : Nat} {e : Int} {q : ℚ} (h : StandsFor c m e q) (hc : c = 0 ∨ 2 ^ (24 + c) ≤ m) :
    ((2 ^ 25 - 1) * 2 ^ 103 ≤ q → roundMag m e = 0x7F800000)
      ∧ (q < (2 ^ 25 - 1) * 2 ^ 103 → roundMag m e < 0x7F800000 ∧ NearestEven magVal q (roundMag m e)) := by
  obtain ⟨n, hlo, hhi, hmag⟩ := roundMag_eq h hc
  have hbound := overflow_bound
  have htop : magVal 0x7F7FFFFF < magVal (0x7F7FFFFF + 1) := magVal_strictMono (Nat.lt_succ_self _)
  rw [hmag]
  constructor
  · intro hq
    have hn : 0x7F7FFFFF < n + 1 := magVal_strictMono.lt_iff_lt.mp (by linarith)
    refine Nat.min_eq_right ?_
    rcases Nat.eq_or_lt_of_le (Nat.le_of_lt_succ hn) with rfl | hn'
    · rw [roundInCell, if_pos]
      exact (lt_or_eq_of_le (by linarith)).imp_right fun h' => ⟨h', rfl⟩
    · exact le_trans hn' (le_roundInCell magVal q n)
  · intro hq
    have hn : n < 0x7F7FFFFF + 1 := magVal_strictMono.lt_iff_lt.mp (by linarith)
    have hfin : roundInCell magVal q n < 0x7F800000 := by
      rcases Nat.eq_or_lt_of_le (Nat.le_of_lt_succ hn) with rfl | hn'
      · rw [roundInCell, if_neg]
        · decide
        · rintro (h' | ⟨h', -⟩) <;> linarith
      · exact lt_of_le_of_lt (roundInCell_le magVal q n) (Nat.succ_lt_succ hn')
    rw [Nat.min_eq_left hfin.le]
    exact ⟨hfin, nearestEven_of_cell magVal_strictMono hlo hhi⟩

/-- `x` with a sign. -/
def withSign (neg : Bool) (x : ℚ) : ℚ := if neg then -x else x

theorem valQ_eq_withSign (a : Sample) : valQ a = withSign (signBit a) (magVal (magBits a)) := valQ_eq a

theorem abs_withSign (neg : Bool) {x : ℚ} (hx : 0 ≤ x) : |withSign neg x| = x := by
  cases neg <;> simp [withSign, abs_of_nonneg hx]

theorem abs_withSign_sub (neg : Bool) (x y : ℚ) : |withSign neg x - withSign neg y| = |x - y| := by
  cases neg
  · rfl
  · rw [withSign, withSign, if_pos rfl, if_pos rfl, neg_sub_neg, abs_sub_comm]

theorem abs_withSign_not_sub (neg : Bool) {x y : ℚ} (hx : 0 ≤ x) (hy : 0 ≤ y) :
    |withSign (!neg) x - withSign neg y| = x + y := by
  have h := abs_of_nonneg (add_nonneg hx hy)
  cases neg
  · rw [← h, ← abs_neg (x + y)]
    simp [withSign, sub_eq_add_neg, add_comm]
  · simpa [withSign] using h

/-- `roundTo` rounds the number that its magnitude stands for, with its sign. -/
theorem roundsTo_roundTo {c m : Nat} {e : Int} {x : ℚ} (neg : Bool) (h : StandsFor c m e x)
    (hc : c = 0 ∨ 2 ^ (24 + c) ≤ m) : RoundsTo (withSign neg x) (roundTo neg m e) := by
  have hx := h.nonneg
  obtain ⟨hinf, hfin⟩ := roundMag_spec h hc
  rw [RoundsTo, abs_withSign neg hx]
  split
  · next hq =>
    have hpos : 0 < x := lt_of_lt_of_le (by norm_num) hq
    have hneg : decide (withSign neg x < 0) = neg := by cases neg <;> simp [withSign, hpos, hx]
    rw [hneg, roundTo_eq_ofMag, hinf hq, infOf_eq_ofMag]
  · next hq =>
    obtain ⟨hlt, hnear⟩ := hfin (not_le.mp hq)
    rw [← magBits_roundTo neg] at hlt hnear
    refine ⟨(isFinite_iff _).mpr hlt, fun y _ => ?_⟩
    have hr : |valQ (roundTo neg m e) - withSign neg x| = |magVal (magBits (roundTo neg m e)) - x| := by
      rw [valQ_eq_withSign, signBit_roundTo, abs_withSign_sub]
    have hy : |magVal (magBits y) - x| ≤ |valQ y - withSign neg x| := by
      simpa only [abs_valQ, abs_withSign neg hx] using abs_abs_sub_abs_le (valQ y) (withSign neg x)
    obtain ⟨hle, htie⟩ := hnear (magBits y)
    rw [hr]
    refine ⟨hle.trans hy, fun he => ?_⟩
    rw [getLsbD_zero_eq, decide_eq_false_iff_not, Nat.mod_two_not_eq_one]
    rcases htie (le_antisymm (he ▸ hy) hle) with hm | heven
    · by_cases hs : signBit y = neg
      · rw [valQ_eq_withSign, valQ_eq_withSign, hm, hs, signBit_roundTo]
        exact .inl rfl
      · -- equally far on the other side of zero: then the result is a zero, and its last bit is even
        have hfar := abs_withSign_not_sub neg (magVal_nonneg (magBits y)) hx
        rw [← Bool.eq_not_of_ne hs, ← valQ_eq_withSign, he, hm] at hfar
        have hzero := (hnear 0).1
        rw [magVal_zero, zero_sub, abs_neg, abs_of_nonneg hx, hfar] at hzero
        have : magBits (roundTo neg m e) = 0 := magVal_eq_zero.mp (le_antisymm (by linarith) (magVal_nonneg _))
        exact .inr (by rw [this])
    · exact .inr heven

end Sys2Proof.Machine

/-! PROOFS. Sums and differences of finite Samples (R9, R213). -/

namespace Sys2Proof.Machine

theorem roundsTo_zeroOf (neg : Bool) : RoundsTo 0 (zeroOf neg) := by
  have h := roundsTo_roundTo neg (standsFor_self 0 0) (.inl rfl)
  rw [roundTo_zero] at h
  cases neg <;> simpa [withSign] using h

/-- An integer times a power of two is rounded by its sign and its absolute value. -/
theorem roundsTo_int (z e : Int) : RoundsTo (z * 2 ^ e) (roundTo (decide (z < 0)) z.natAbs e) := by
  have hz : (z : ℚ) * 2 ^ e = withSign (decide (z < 0)) (z.natAbs * 2 ^ e) := by
    by_cases h : z < 0
    · simp [withSign, h, abs_of_neg (show (z : ℚ) < 0 by exact_mod_cast h)]
    · simp [withSign, h, abs_of_nonneg (show (0 : ℚ) ≤ z by exact_mod_cast not_lt.mp h)]
  rw [hz]
  exact roundsTo_roundTo _ (standsFor_self _ _) (.inl rfl)

/-- The aligned sum is the exact sum. -/
theorem alignedSum_mul (a b : Sample) :
    (alignedSum a b : ℚ) * 2 ^ min (lsbExp a) (lsbExp b) = valQ a + valQ b := by
  have aligned : ∀ k l : Int, l ≤ k → (2 : ℚ) ^ (k - l).toNat * 2 ^ l = 2 ^ k := by
    intro k l h
    rw [← zpow_natCast, ← zpow_add₀ (by norm_num)]
    congr 1
    omega
  rw [alignedSum, valQ, valQ, ← aligned _ _ (min_le_left (lsbExp a) (lsbExp b)),
    ← aligned _ _ (min_le_right (lsbExp a) (lsbExp b))]
  push_cast
  ring

theorem alignedSum_eq_zero {a b : Sample} : alignedSum a b = 0 ↔ valQ a + valQ b = 0 := by
  rw [← alignedSum_mul, mul_eq_zero, or_iff_left (by positivity), Int.cast_eq_zero]

theorem fadd_of_finite (d : Draw) {a b : Sample} (ha : isFinite a = true) (hb : isFinite b = true) :
    fadd d a b = if alignedSum a b = 0 then zeroOf (signBit a && signBit b)
      else roundTo (decide (alignedSum a b < 0)) (alignedSum a b).natAbs (min (lsbExp a) (lsbExp b)) := by
  simp [fadd, isNaN_of_isFinite, isInf_of_isFinite, ha, hb]

theorem roundsTo_fadd (d : Draw) {a b : Sample} (ha : isFinite a = true) (hb : isFinite b = true) :
    RoundsTo (valQ a + valQ b) (fadd d a b) := by
  rw [fadd_of_finite d ha hb]
  split
  · next h =>
    rw [alignedSum_eq_zero.mp h]
    exact roundsTo_zeroOf _
  · rw [← alignedSum_mul]
    exact roundsTo_int _ _

theorem eq_negZero_iff (a : Sample) : a = 0x80000000#32 ↔ signBit a = true ∧ magBits a = 0 :=
  ⟨by rintro rfl; exact ⟨rfl, rfl⟩, fun ⟨hs, hm⟩ => eq_of_sign_of_magBits hs hm⟩

/-- Two numbers below or at zero whose sum is zero are zeros. -/
theorem magBits_eq_zero_of_sum {a b : Sample} (ha : signBit a = true) (hb : signBit b = true)
    (h : valQ a + valQ b = 0) : magBits a = 0 ∧ magBits b = 0 := by
  rw [valQ_eq, valQ_eq, if_pos ha, if_pos hb] at h
  have hna := magVal_nonneg (magBits a)
  have hnb := magVal_nonneg (magBits b)
  exact ⟨magVal_eq_zero.mp (by linarith), magVal_eq_zero.mp (by linarith)⟩

theorem fadd_of_sum_eq_zero (d : Draw) {a b : Sample} (ha : isFinite a = true) (hb : isFinite b = true)
    (h : valQ a + valQ b = 0) :
    fadd d a b = if a = 0x80000000#32 ∧ b = 0x80000000#32 then 0x80000000#32 else 0#32 := by
  have hneg : (signBit a && signBit b) = true ↔ a = 0x80000000#32 ∧ b = 0x80000000#32 := by
    rw [Bool.and_eq_true, eq_negZero_iff, eq_negZero_iff]
    constructor
    · rintro ⟨hsa, hsb⟩
      obtain ⟨hma, hmb⟩ := magBits_eq_zero_of_sum hsa hsb h
      exact ⟨⟨hsa, hma⟩, hsb, hmb⟩
    · rintro ⟨⟨hsa, -⟩, hsb, -⟩
      exact ⟨hsa, hsb⟩
  rw [fadd_of_finite d ha hb, if_pos (alignedSum_eq_zero.mpr h), zeroOf]
  simp only [hneg]

/-- Settles O58: a finite sum is the aligned integer sum rounded once, and a difference is the sum with the second term
negated. -/
theorem sampleSumsRoundOnce : Obligations.SampleSumsRoundOnce := by
  intro d a b ha hb
  have hb' : isFinite (fneg b) = true := by rwa [isFinite_fneg]
  have hsub : valQ a - valQ b = valQ a + valQ (fneg b) := by rw [valQ_fneg, sub_eq_add_neg]
  refine ⟨roundsTo_fadd d ha hb, ?_, fadd_of_sum_eq_zero d ha hb, fun h => ?_⟩
  · rw [hsub]
    exact roundsTo_fadd d ha hb'
  · have hz : fneg b = 0x80000000#32 ↔ b = 0#32 := fneg_eq_iff b _
    rw [fsub, fadd_of_sum_eq_zero d ha hb' (hsub ▸ h)]
    simp only [hz]

end Sys2Proof.Machine

/-! PROOFS. Products and quotients of finite Samples, and integers (R9). -/

namespace Sys2Proof.Machine

theorem withSign_mul (s t : Bool) (x y : ℚ) : withSign s x * withSign t y = withSign (s != t) (x * y) := by
  cases s <;> cases t <;> simp [withSign]

theorem withSign_div (s t : Bool) (x y : ℚ) : withSign s x / withSign t y = withSign (s != t) (x / y) := by
  cases s <;> cases t <;> simp [withSign, neg_div, div_neg]

theorem fmul_of_finite (d : Draw) {a b : Sample} (ha : isFinite a = true) (hb : isFinite b = true) :
    fmul d a b = roundTo (signBit a != signBit b) (signif a * signif b) (lsbExp a + lsbExp b) := by
  simp [fmul, isNaN_of_isFinite, isInf_of_isFinite, ha, hb]

theorem roundsTo_fmul (d : Draw) {a b : Sample} (ha : isFinite a = true) (hb : isFinite b = true) :
    RoundsTo (valQ a * valQ b) (fmul d a b) := by
  have hval : magVal (magBits a) * magVal (magBits b) = (signif a * signif b : Nat) * 2 ^ (lsbExp a + lsbExp b) := by
    rw [← signif_mul_lsbExp, ← signif_mul_lsbExp, zpow_add₀ (by norm_num)]
    push_cast
    ring
  rw [valQ_eq_withSign, valQ_eq_withSign, withSign_mul, fmul_of_finite d ha hb, hval]
  exact roundsTo_roundTo _ (standsFor_self _ _) (.inl rfl)

theorem fdiv_of_finite (d : Draw) {a b : Sample} (ha : isFinite a = true) (hb : isFinite b = true)
    (hz : isZero b = false) :
    fdiv d a b = roundTo (signBit a != signBit b) (stickyQuot (signif a) (signif b)) (lsbExp a - lsbExp b - 51) := by
  simp [fdiv, isNaN_of_isFinite, isInf_of_isFinite, ha, hb, hz]

/-- The quotient with its remainder kept in the last bit stands for the exact quotient. -/
theorem standsFor_stickyQuot (ma : Nat) {mb : Nat} (hb : 0 < mb) (e : Int) :
    StandsFor 1 (stickyQuot ma mb) (e - 51) (ma / mb * 2 ^ e) := by
  rintro _ ⟨u, rfl⟩
  have hcmp : (((2 ^ 1 * u : Nat) : ℚ) * 2 ^ (e - 51) ≤ ma / mb * 2 ^ e ↔ u * mb ≤ ma * 2 ^ 50)
      ∧ ((ma / mb * 2 ^ e : ℚ) ≤ ((2 ^ 1 * u : Nat) : ℚ) * 2 ^ (e - 51) ↔ ma * 2 ^ 50 ≤ u * mb) := by
    have he : (0 : ℚ) < 2 ^ e := by positivity
    have hmb : (0 : ℚ) < mb := by exact_mod_cast hb
    have hsplit : ((2 ^ 1 * u : Nat) : ℚ) * 2 ^ (e - 51) = (u / 2 ^ 50 : ℚ) * 2 ^ e := by
      rw [zpow_sub₀ (by norm_num)]
      push_cast
      norm_num
      ring
    rw [hsplit, mul_le_mul_iff_left₀ he, mul_le_mul_iff_left₀ he, div_le_div_iff₀ (by norm_num) hmb,
      div_le_div_iff₀ hmb (by norm_num)]
    exact ⟨by exact_mod_cast Iff.rfl, by exact_mod_cast Iff.rfl⟩
  rw [hcmp.1, hcmp.2, ← Nat.le_div_iff_mul_le hb, stickyQuot]
  generalize ma * 2 ^ 50 = x
  have hlt : x / mb < u ↔ x < u * mb := Nat.div_lt_iff_lt_mul hb
  split
  · next hr =>
    have hle := Nat.div_le_iff_le_mul_of_dvd (c := u) hb.ne' (Nat.dvd_of_mod_eq_zero hr)
    omega
  · next hr =>
    have hne : x ≠ u * mb := fun h => hr (h ▸ Nat.mul_mod_left u mb)
    omega

theorem signif_eq_zero {a : Sample} : signif a = 0 ↔ isZero a = true := by
  rw [isZero_iff, signif, expField_eq, fracField_eq]
  split <;> omega

theorem signif_lt (a : Sample) : signif a < 2 ^ 24 := by
  rw [signif, fracField_eq]
  split <;> omega

/-- A quotient has bits enough above its last one for 24 bits to be kept. -/
theorem le_stickyQuot {ma mb : Nat} (ha : 0 < ma) (hb : 0 < mb) (hlt : mb < 2 ^ 24) :
    2 ^ (24 + 1) ≤ stickyQuot ma mb := by
  have : 2 ^ 24 ≤ ma * 2 ^ 50 / mb := by
    rw [Nat.le_div_iff_mul_le hb]
    nlinarith
  rw [stickyQuot]
  omega

theorem roundsTo_fdiv (d : Draw) {a b : Sample} (ha : isFinite a = true) (hb : isFinite b = true)
    (hz : isZero b = false) : RoundsTo (valQ a / valQ b) (fdiv d a b) := by
  have hmb : 0 < signif b := Nat.pos_of_ne_zero fun h => by simp [signif_eq_zero.mp h] at hz
  have hval : magVal (magBits a) / magVal (magBits b) = (signif a / signif b : ℚ) * 2 ^ (lsbExp a - lsbExp b) := by
    rw [← signif_mul_lsbExp, ← signif_mul_lsbExp, zpow_sub₀ (by norm_num), mul_div_mul_comm]
  rw [fdiv_of_finite d ha hb hz]
  by_cases hma : signif a = 0
  · have hq : valQ a = 0 := valQ_eq_zero.mpr ((isZero_iff a).mp (signif_eq_zero.mp hma))
    rw [hq, zero_div, hma, stickyQuot]
    simpa using roundsTo_zeroOf _
  · rw [valQ_eq_withSign, valQ_eq_withSign, withSign_div, hval]
    exact roundsTo_roundTo _ (standsFor_stickyQuot _ hmb _)
      (.inr (le_stickyQuot (Nat.pos_of_ne_zero hma) hmb (signif_lt b)))

/-- Settles O59: a finite product is rounded exactly, a quotient through its sticky last bit, an integer by its
absolute value. -/
theorem sampleProductsRoundOnce : Obligations.SampleProductsRoundOnce := by
  refine ⟨fun d a b ha hb => ⟨roundsTo_fmul d ha hb, ?_, fun hz => ⟨roundsTo_fdiv d ha hb hz, ?_⟩⟩,
    fun z => ⟨?_, rfl⟩⟩
  · rw [fmul_of_finite d ha hb, signBit_roundTo]
  · rw [fdiv_of_finite d ha hb hz, signBit_roundTo]
  · simpa [i2f] using roundsTo_int z 0

end Sys2Proof.Machine

/-! SUPPORT. When an operation makes a NaN, and what it gives for an infinity or a zero (R9; log entries 5, 21). -/

namespace Sys2Proof.Machine

/-- `r` is the NaN made at `d` when the operation is invalid, and no NaN otherwise. -/
def NaNExactlyIf (invalid : Bool) (d : Draw) (r : Sample) : Prop :=
  if invalid then r = nanAt d else isNaN r = false

theorem NaNExactlyIf.of_invalid {invalid : Bool} (d : Draw) (h : invalid = true) : NaNExactlyIf invalid d (nanAt d) :=
  h ▸ rfl

theorem NaNExactlyIf.of_valid {invalid : Bool} (d : Draw) {r : Sample} (h : invalid = false) (hr : isNaN r = false) :
    NaNExactlyIf invalid d r :=
  h ▸ hr

theorem NaNExactlyIf.isNaN_eq {invalid : Bool} {d : Draw} {r : Sample} (h : NaNExactlyIf invalid d r) :
    isNaN r = invalid := by
  cases invalid
  · exact h
  · rw [show r = nanAt d from h, isNaN_nanAt]

theorem NaNExactlyIf.quiet {invalid : Bool} {d : Draw} {r : Sample} (h : NaNExactlyIf invalid d r)
    (hr : isNaN r = true) : r.getLsbD 22 = true := by
  rw [h.isNaN_eq] at hr
  subst hr
  rw [show r = nanAt d from h, getLsbD_nanAt]

theorem fadd_nan (d : Draw) (a b : Sample) :
    NaNExactlyIf (isNaN a || isNaN b || (isInf a && isInf b && signBit a != signBit b)) d (fadd d a b) := by
  rw [fadd]
  split
  · next h => exact .of_invalid d (by rw [h, Bool.true_or])
  next h =>
  obtain ⟨ha, hb⟩ : isNaN a = false ∧ isNaN b = false := by simpa using h
  split
  · next hia =>
    split
    · next hinv => exact .of_invalid d (by rw [hia, Bool.true_and, hinv, Bool.or_true])
    · next hinv => exact .of_valid d (by simpa [ha, hb, hia] using hinv) ha
  next hia =>
  split
  · exact .of_valid d (by simp [ha, hb, hia]) hb
  · exact .of_valid d (by simp [ha, hb, hia]) (by split <;> simp)

theorem fsub_nan (d : Draw) (a b : Sample) :
    NaNExactlyIf (isNaN a || isNaN b || (isInf a && isInf b && signBit a == signBit b)) d (fsub d a b) := by
  have hs : (signBit a == signBit b) = (signBit a != signBit (fneg b)) := by
    rw [signBit_fneg]
    cases signBit a <;> cases signBit b <;> rfl
  rw [hs, ← isNaN_fneg b, ← isInf_fneg b]
  exact fadd_nan d a (fneg b)

theorem fmul_nan (d : Draw) (a b : Sample) :
    NaNExactlyIf (isNaN a || isNaN b || (isInf a && isZero b) || (isZero a && isInf b)) d (fmul d a b) := by
  rw [fmul]
  split
  · next h => exact .of_invalid d (by rw [h, Bool.true_or, Bool.true_or])
  next h =>
  obtain ⟨ha, hb⟩ : isNaN a = false ∧ isNaN b = false := by simpa using h
  split
  · next hi =>
    have hza := isZero_of_isInf (a := a)
    have hzb := isZero_of_isInf (a := b)
    split
    · next hz => exact .of_invalid d (by grind)
    · next hz =>
      obtain ⟨hza, hzb⟩ : isZero a = false ∧ isZero b = false := by simpa using hz
      exact .of_valid d (by simp [ha, hb, hza, hzb]) (isNaN_infOf _)
  · next hi =>
    obtain ⟨hia, hib⟩ : isInf a = false ∧ isInf b = false := by simpa using hi
    exact .of_valid d (by simp [ha, hb, hia, hib]) (isNaN_roundTo _ _ _)

theorem fdiv_nan (d : Draw) (a b : Sample) :
    NaNExactlyIf (isNaN a || isNaN b || (isInf a && isInf b) || (isZero a && isZero b)) d (fdiv d a b) := by
  rw [fdiv]
  split
  · next h => exact .of_invalid d (by rw [h, Bool.true_or, Bool.true_or])
  next h =>
  obtain ⟨ha, hb⟩ : isNaN a = false ∧ isNaN b = false := by simpa using h
  split
  · next hia =>
    split
    · next hib => exact .of_invalid d (by simp [hia, hib])
    · next hib => exact .of_valid d (by simp [ha, hb, hib, isZero_of_isInf hia]) (isNaN_infOf _)
  next hia =>
  split
  · next hib => exact .of_valid d (by simp [ha, hb, hia, isZero_of_isInf hib]) (isNaN_zeroOf _)
  next hib =>
  split
  · next hzb =>
    split
    · next hza => exact .of_invalid d (by simp [hza, hzb])
    · next hza => exact .of_valid d (by simp [ha, hb, hia, hza]) (isNaN_infOf _)
  · next hzb => exact .of_valid d (by simp [ha, hb, hia, hzb]) (isNaN_roundTo _ _ _)

/-- An infinity plus what is no NaN and no infinity of the other sign. -/
theorem fadd_inf_left (d : Draw) {a b : Sample} (ha : isInf a = true) (hb : isNaN b = false)
    (hs : isInf b = true → signBit a = signBit b) : fadd d a b = a := by
  cases hib : isInf b
  · simp [fadd, isNaN_of_isInf ha, hb, ha, hib]
  · simp [fadd, isNaN_of_isInf ha, hb, ha, hs hib]

theorem fadd_inf_right (d : Draw) {a b : Sample} (ha : isFinite a = true) (hb : isInf b = true) : fadd d a b = b := by
  simp [fadd, isNaN_of_isFinite ha, isNaN_of_isInf hb, isInf_of_isFinite ha, hb]

theorem fmul_inf_left (d : Draw) {a b : Sample} (ha : isInf a = true) (hb : isNaN b = false) (hz : isZero b = false) :
    fmul d a b = infOf (signBit a != signBit b) := by
  simp [fmul, isNaN_of_isInf ha, hb, ha, isZero_of_isInf ha, hz]

theorem fmul_comm (d : Draw) (a b : Sample) : fmul d a b = fmul d b a := by
  rw [fmul, fmul, Bool.or_comm (isNaN a), Bool.or_comm (isInf a), Bool.or_comm (isZero a), bne_comm,
    Nat.mul_comm (signif a), Int.add_comm (lsbExp a)]

theorem fdiv_inf_left (d : Draw) {a b : Sample} (ha : isInf a = true) (hb : isFinite b = true) :
    fdiv d a b = infOf (signBit a != signBit b) := by
  simp [fdiv, isNaN_of_isInf ha, isNaN_of_isFinite hb, ha, isInf_of_isFinite hb]

theorem fdiv_inf_right (d : Draw) {a b : Sample} (ha : isFinite a = true) (hb : isInf b = true) :
    fdiv d a b = zeroOf (signBit a != signBit b) := by
  simp [fdiv, isNaN_of_isFinite ha, isNaN_of_isInf hb, isInf_of_isFinite ha, hb]

theorem fdiv_zero_right (d : Draw) {a b : Sample} (ha : isFinite a = true) (hz : isZero a = false)
    (hb : isZero b = true) : fdiv d a b = infOf (signBit a != signBit b) := by
  have hfb := isFinite_of_isZero hb
  simp [fdiv, isNaN_of_isFinite, isInf_of_isFinite, ha, hfb, hz, hb]

end Sys2Proof.Machine

/-! PROOFS. The order of Samples (R256), and the special values together. -/

namespace Sys2Proof.Machine

/-- The value of an order key: `magVal` as an odd function. -/
def keyVal (z : Int) : ℚ := if z < 0 then -magVal z.natAbs else magVal z.natAbs

theorem keyVal_neg (z : Int) : keyVal (-z) = -keyVal z := by
  rcases lt_trichotomy z 0 with h | rfl | h
  · simp [keyVal, h, h.le]
  · simp [keyVal]
  · simp [keyVal, h, h.le]

theorem keyVal_strictMono : StrictMono keyVal := by
  refine strictMono_of_odd_strictMonoOn_nonneg keyVal_neg fun y hy z hz h => ?_
  rw [Set.mem_Ici] at hy hz
  rw [keyVal, keyVal, if_neg hy.not_gt, if_neg hz.not_gt]
  exact magVal_strictMono (by omega)

theorem orderKey_eq (a : Sample) : orderKey a = if signBit a then -(magBits a : Int) else magBits a := rfl

theorem keyVal_orderKey (a : Sample) : keyVal (orderKey a) = valQ a := by
  have hpos : keyVal (magBits a) = magVal (magBits a) := by simp [keyVal]
  rw [orderKey_eq, valQ_eq]
  split
  · rw [keyVal_neg, hpos]
  · exact hpos

theorem fgt_iff {a b : Sample} (ha : isNaN a = false) (hb : isNaN b = false) :
    fgt a b = true ↔ orderKey b < orderKey a := by
  simp [fgt, ha, hb]

theorem fgt_finite_iff {a b : Sample} (ha : isFinite a = true) (hb : isFinite b = true) :
    fgt a b = true ↔ valQ b < valQ a := by
  rw [fgt_iff (isNaN_of_isFinite ha) (isNaN_of_isFinite hb), ← keyVal_strictMono.lt_iff_lt, keyVal_orderKey,
    keyVal_orderKey]

/-- A key of an infinity lies beyond that of every finite number. -/
theorem orderKey_finite {a : Sample} (h : isFinite a = true) :
    -0x7F800000 < orderKey a ∧ orderKey a < 0x7F800000 := by
  rw [isFinite_iff] at h
  rw [orderKey_eq]
  split <;> omega

theorem orderKey_inf {a : Sample} (h : isInf a = true) :
    orderKey a = if signBit a then -0x7F800000 else 0x7F800000 := by
  rw [orderKey_eq, (isInf_iff a).mp h]
  rfl

theorem fgt_inf_left {a b : Sample} (ha : isInf a = true) (hb : isFinite b = true) : fgt a b = !signBit a := by
  obtain ⟨hlo, hhi⟩ := orderKey_finite hb
  rw [Bool.eq_iff_iff, fgt_iff (isNaN_of_isInf ha) (isNaN_of_isFinite hb), orderKey_inf ha]
  cases signBit a <;> simp <;> omega

theorem fgt_inf_right {a b : Sample} (ha : isInf a = true) (hb : isFinite b = true) : fgt b a = signBit a := by
  obtain ⟨hlo, hhi⟩ := orderKey_finite hb
  rw [Bool.eq_iff_iff, fgt_iff (isNaN_of_isFinite hb) (isNaN_of_isInf ha), orderKey_inf ha]
  cases signBit a <;> simp <;> omega

theorem fgt_inf_inf {a b : Sample} (ha : isInf a = true) (hb : isInf b = true) :
    fgt a b = (!signBit a && signBit b) := by
  rw [Bool.eq_iff_iff, fgt_iff (isNaN_of_isInf ha) (isNaN_of_isInf hb), orderKey_inf ha, orderKey_inf hb]
  cases signBit a <;> cases signBit b <;> simp

/-- Settles O60: each operation's invalid cases, its infinities, and the order through the order keys. -/
theorem sampleSpecialValues : Obligations.SampleSpecialValues := by
  intro d a b
  have hadd := fadd_nan d a b
  have hsub := fsub_nan d a b
  have hmul := fmul_nan d a b
  have hdiv := fdiv_nan d a b
  refine ⟨⟨hadd.isNaN_eq, hsub.isNaN_eq, hmul.isNaN_eq, hdiv.isNaN_eq⟩, ?quiet, fun ha hb => ?infFinite,
    fun ha hb => ?infInf, fun ha hb hz => ?mulInf, fdiv_zero_right d, ?fgtNaN, fgt_finite_iff,
    fun ha hb => ⟨fgt_inf_left ha hb, fgt_inf_right ha hb⟩, fgt_inf_inf⟩
  case quiet =>
    rintro r (rfl | rfl | rfl | rfl) hr
    exacts [hadd.quiet hr, hsub.quiet hr, hmul.quiet hr, hdiv.quiet hr]
  case infFinite =>
    have hnb := isNaN_of_isFinite hb
    have hib := isInf_of_isFinite hb
    have hna : isInf (fneg a) = true := by rwa [isInf_fneg]
    refine ⟨fadd_inf_left d ha hnb (by simp [hib]), fadd_inf_right d hb ha,
      fadd_inf_left d ha (by simpa using hnb) (by simp [hib]), ?_, fdiv_inf_left d ha hb, ?_⟩
    · rw [fsub, fadd_inf_right d hb hna, eq_infOf hna, signBit_fneg]
    · rw [fdiv_inf_right d hb ha, bne_comm]
  case infInf =>
    have hnb := isNaN_of_isInf hb
    refine ⟨fun hs => fadd_inf_left d ha hnb fun _ => hs, fun hs => ?_⟩
    exact fadd_inf_left d ha (by simpa using hnb) fun _ => by simpa [Bool.eq_not] using hs
  case mulInf =>
    rw [fmul_comm d b a, and_self]
    exact fmul_inf_left d ha hb hz
  case fgtNaN =>
    rintro (h | h) <;> simp [fgt, h]

end Sys2Proof.Machine

/-! SUPPORT. The invariant unit by unit: what a unit's state has to satisfy, and that the machine's invariant is the
invariant of every unit. -/

namespace Sys2Proof.Machine

/-- A delay line with canonical memory and both slot registers inside a ring of 2^log slots (R35, R71). -/
structure DelayLine.Ok (log : Nat) (p : DelayLine) : Prop where
  buf   : Memory.wf p.buf = true
  id    : fitsRing log p.id
  saved : fitsRing log p.saved

/-- A cascade with canonical stage memories and its cursor inside its ring (R38, R71). -/
structure Cascade.Ok (log : Nat) (c : Cascade) : Prop where
  stages : ∀ j : Fin Config.nstagemax, Memory.wf c.stages[j].m = true
  apid   : fitsRing log c.apid

/-- The EQ with canonical memory and its cursor inside its ring (R39, R71). -/
structure EqUnit.Ok (log : Nat) (e : EqUnit) : Prop where
  eqm  : Memory.wf e.eqm = true
  eqid : fitsRing log e.eqid

/-- A tape buffer with canonical memories and its write cursor inside its ring (R41, R71). -/
structure TapeBuf.Ok (log : Nat) (b : TapeBuf) : Prop where
  tv : Memory.wf b.tv = true
  ts : ∀ c : Fin 2, Memory.wf b.ts[c] = true
  nw : fitsRing log b.nw

/-- A tap with both slot registers inside the ring (R43). -/
structure Tap.Ok (log : Nat) (p : Tap) : Prop where
  nread : fitsRing log p.nread
  prevn : fitsRing log p.prevn

/-- FCNT counts a fade that runs and is 0 otherwise (R261, R266). -/
structure FadeOk (fading : Bool) (fcnt : BitVec 9) : Prop where
  lt   : fcnt.toNat < 256
  idle : fading = false → fcnt = 0

/-- A phase in [-2U, 2U) (R31). -/
def PhaseOk (v : XWord) : Prop := -2 ^ 31 ≤ v.toInt ∧ v.toInt < 2 ^ 31

/-- Every unit of the machine meets its part of the invariant. -/
structure State.UnitsOk (s : State) : Prop where
  dl    : ∀ u : Fin Config.ndl, s.dl[u].Ok s.par.dllog[u]
  ap    : ∀ u : Fin Config.nap, s.ap[u].Ok s.par.aplog
  eq    : s.eq.Ok s.par.eqlog
  bufs  : ∀ b : Fin 2, s.tape.bufs[b].Ok s.par.tlog
  taps  : ∀ t : Fin 2, s.tape.taps[t].Ok s.par.tlog
  fade  : FadeOk s.status.fading s.tape.fcnt
  ph    : ∀ k : Fin Config.nosc, PhaseOk s.ph[k]
  decim : s.decimOk

theorem inv_iff_unitsOk (s : State) : s.Inv ↔ s.UnitsOk := by
  constructor
  · rintro ⟨⟨hbuf, hm, heqm, htv, hts⟩, hph, hdecim, ⟨hdl, hapid, heqid, hnw, htap⟩, hlt, hidle⟩
    exact
      { dl := fun u => ⟨hbuf u, (hdl u).1, (hdl u).2⟩
        ap := fun u => ⟨hm u, hapid u⟩
        eq := ⟨heqm, heqid⟩
        bufs := fun b => ⟨htv b, hts b, hnw b⟩
        taps := fun t => ⟨(htap t).1, (htap t).2⟩
        fade := ⟨hlt, hidle⟩
        ph := hph
        decim := hdecim }
  · intro h
    have memories : s.memoriesWf :=
      ⟨fun u => (h.dl u).buf, fun u => (h.ap u).stages, h.eq.eqm, fun b => (h.bufs b).tv, fun b => (h.bufs b).ts⟩
    have cursors : s.cursorsFit :=
      ⟨fun u => ⟨(h.dl u).id, (h.dl u).saved⟩, fun u => (h.ap u).apid, h.eq.eqid, fun b => (h.bufs b).nw,
        fun t => ⟨(h.taps t).nread, (h.taps t).prevn⟩⟩
    exact ⟨memories, h.ph, h.decim, cursors, h.fade.lt, h.fade.idle⟩

/-- What holds of every entry still holds after one of them is replaced by a value of which it holds. -/
theorem forall_getElem_set {α : Type} {n : Nat} {P : Fin n → α → Prop} {v : Vector α n} (hv : ∀ j : Fin n, P j v[j])
    {i : Fin n} {a : α} (ha : P i a) (j : Fin n) : P j (v.set i a)[j] := by
  by_cases h : i = j
  · subst h
    simpa using ha
  · simpa [Fin.val_inj, h] using hv j

/-! The units as the machine clears them. -/

theorem DelayLine.ok_afterInit (log : Nat) (p : DelayLine) : p.afterInit.Ok log :=
  ⟨rfl, fitsRing_zero log, fitsRing_zero log⟩

theorem DelayLine.ok_reset (log : Nat) : DelayLine.reset.Ok log := ⟨rfl, fitsRing_zero log, fitsRing_zero log⟩

theorem Cascade.ok_afterInit (log : Nat) (c : Cascade) : c.afterInit.Ok log :=
  ⟨fun j => by simp [Cascade.afterInit, ApStage.reset, Memory.wf, Memory.wfFrom], fitsRing_zero log⟩

theorem Cascade.ok_reset (log : Nat) : Cascade.reset.Ok log := Cascade.ok_afterInit log Cascade.reset

theorem EqUnit.ok_reset (log : Nat) : EqUnit.reset.Ok log := ⟨rfl, fitsRing_zero log⟩

theorem TapeBuf.ok_reset (log : Nat) : TapeBuf.reset.Ok log :=
  ⟨rfl, fun c => by simp [TapeBuf.reset, Memory.wf, Memory.wfFrom], fitsRing_zero log⟩

theorem Tap.ok_reset (log : Nat) : Tap.reset.Ok log := ⟨fitsRing_zero log, fitsRing_zero log⟩

theorem fadeOk_zero (fading : Bool) : FadeOk fading 0 := ⟨by decide, fun _ => rfl⟩

theorem phaseOk_zero : PhaseOk 0 := ⟨by decide, by decide⟩

/-! The units as the commands move them. -/

/-- A written phase is the sign extension of a word (R31). -/
theorem phaseOk_signExtend (w : Word) : PhaseOk (w.signExtend 64) := by
  have h := wrapPhase_range (w.setWidth 64)
  rwa [wrapPhase, BitVec.setWidth_setWidth_of_le w (by decide), BitVec.setWidth_eq] at h

/-- One stage writes its memory at the cursor; the stages together keep every memory canonical (R192). -/
theorem stageRun_wf (d : Nat → Lane → Nat → Draw) (n log : Nat) (c : Cascade) (x : Lanes)
    (hc : ∀ j : Fin Config.nstagemax, Memory.wf c.stages[j].m = true) (k : Nat) :
    ∀ j : Fin Config.nstagemax, Memory.wf (stageRun d n log c x k).1[j].m = true := by
  induction k with
  | zero => exact hc
  | succ k ih =>
    simp only [stageRun]
    split
    · next hk =>
      exact forall_getElem_set (P := fun _ (g : ApStage) => Memory.wf g.m = true) ih (i := ⟨k, hk⟩)
        (writeLanes_wf _ (ih ⟨k, hk⟩) _ _ _)
    · exact ih

/-- TWR's write keeps a buffer (R246). -/
theorem TapeBuf.Ok.put {log : Nat} {b : TapeBuf} (h : b.Ok log) (nch : Nat) (v : XWord) (frame : Lanes) :
    (b.put log nch v frame).Ok log where
  tv := Memory.wf_write _ h.tv _ _
  ts c := by
    simp only [TapeBuf.put, Fin.getElem_fin, Vector.getElem_ofFn]
    split
    · exact Memory.wf_write _ (h.ts c) _ _
    · exact h.ts c
  nw := fitsRing_advance _ _ _

/-- A cascade keeps its part of the invariant when one of its arrays is written. -/
theorem Cascade.Ok.setArr {log : Nat} {c : Cascade} (h : c.Ok log) (q : Fin 3) (v : Lanes) : (c.setArr q v).Ok log :=
  ⟨by simpa using h.stages, by simpa using h.apid⟩

theorem EqUnit.Ok.setArr {log : Nat} {e : EqUnit} (h : e.Ok log) (q : Fin 6) (v : Lanes) : (e.setArr q v).Ok log :=
  ⟨by simpa using h.eqm, by simpa using h.eqid⟩

theorem zero_lt_of_ne_zero {m : Word} (hm : m ≠ 0) : 0 < m := by bv_omega

/-- A count set to 0 when it is not below a bound (R29). -/
theorem limited_lt {m : Word} (hm : m ≠ 0) (c : Word) : (if c < m then c else 0) < m := by
  split
  · assumption
  · exact zero_lt_of_ne_zero hm

/-- The decimation counter moved by one sample stays below DECM (R231). -/
theorem nextDeccnt_lt {s : State} (h : s.decimOk) : s.nextDeccnt < s.decm := by
  obtain ⟨hm, hlt⟩ := h
  rw [State.nextDeccnt]
  split
  · bv_omega
  · bv_omega

/-- One sample of a running fade counted (R266). -/
theorem fadeOk_succ {fcnt : BitVec 9} (h : fcnt.toNat < 256) (hne : fcnt + 1 ≠ 256) : FadeOk true (fcnt + 1) :=
  ⟨by bv_omega, nofun⟩

end Sys2Proof.Machine

/-! SUPPORT. The invariant under the updates of the state: what it does not read may change, and one unit may be
replaced by one that meets its part. -/

namespace Sys2Proof.Machine

variable {s : State}

/-! Registers, the fault fields and the host's side are not read by the invariant. -/

theorem State.Inv.setX (h : s.Inv) (r : XReg) (v : XWord) : (s.setX r v).Inv := h

theorem State.Inv.setL (h : s.Inv) (r : LReg) (v : Lanes) : (s.setL r v).Inv := h

theorem State.Inv.mapL (h : s.Inv) (r : LReg) (f : Lane → Sample) : (s.mapL r f).Inv := h

theorem State.Inv.raise (h : s.Inv) (c : Cause) (w : Word) : (s.raise c w).Inv := h

theorem State.Inv.hostRead (h : s.Inv) (a : BitVec 16) : (s.hostRead a).Inv := h

theorem State.Inv.withInbox (h : s.Inv) (rest : List HostTx) : State.Inv { s with inbox := rest } := h

theorem State.Inv.withIndex (h : s.Inv) (k : Nat) : State.Inv { s with index := k } := h

theorem State.Inv.withIndexDraw (h : s.Inv) (k d : Nat) : State.Inv { s with index := k, draw := d } := h

/-! One unit replaced. -/

theorem State.Inv.setDl (h : s.Inv) {u : Fin Config.ndl} {p : DelayLine} (hp : p.Ok s.par.dllog[u]) :
    (s.setDl u p).Inv := by
  rw [inv_iff_unitsOk] at h ⊢
  exact { h with dl := forall_getElem_set (P := fun u (p : DelayLine) => p.Ok s.par.dllog[u]) h.dl hp }

theorem State.Inv.withAp (h : s.Inv) {u : Fin Config.nap} {c : Cascade} (hc : c.Ok s.par.aplog) :
    State.Inv { s with ap := s.ap.set u c } := by
  rw [inv_iff_unitsOk] at h ⊢
  exact { h with ap := forall_getElem_set (P := fun _ (c : Cascade) => c.Ok s.par.aplog) h.ap hc }

theorem State.Inv.withEq (h : s.Inv) {e : EqUnit} (he : e.Ok s.par.eqlog) : State.Inv { s with eq := e } := by
  rw [inv_iff_unitsOk] at h ⊢
  exact { h with eq := he }

theorem State.Inv.withPh (h : s.Inv) {k : Fin Config.nosc} {v : XWord} (hv : PhaseOk v) :
    State.Inv { s with ph := s.ph.set k v } := by
  rw [inv_iff_unitsOk] at h ⊢
  exact { h with ph := forall_getElem_set (P := fun _ v => PhaseOk v) h.ph hv }

theorem State.Inv.withDecim (h : s.Inv) {m c : Word} (hm : m ≠ 0) (hc : c < m) :
    State.Inv { s with decm := m, deccnt := c } := by
  rw [inv_iff_unitsOk] at h ⊢
  exact { h with decim := ⟨hm, hc⟩ }

theorem State.Inv.units (h : s.Inv) : s.UnitsOk := (inv_iff_unitsOk s).mp h

theorem State.Inv.setTap (h : s.Inv) {t : Fin 2} {p : Tap} (hp : p.Ok s.par.tlog) : (s.setTap t p).Inv := by
  rw [inv_iff_unitsOk] at h ⊢
  exact { h with taps := forall_getElem_set (P := fun _ (p : Tap) => p.Ok s.par.tlog) h.taps hp }

theorem State.Inv.withBuf (h : s.Inv) {b : Fin 2} {p : TapeBuf} (hp : p.Ok s.par.tlog) :
    State.Inv { s with tape := { s.tape with bufs := s.tape.bufs.set b p } } := by
  rw [inv_iff_unitsOk] at h ⊢
  exact { h with bufs := forall_getElem_set (P := fun _ (p : TapeBuf) => p.Ok s.par.tlog) h.bufs hp }

theorem State.Inv.withFade (h : s.Inv) {fading : Bool} {fcnt : BitVec 9} (hf : FadeOk fading fcnt) :
    State.Inv { s with status := { s.status with fading := fading }, tape := { s.tape with fcnt := fcnt } } := by
  rw [inv_iff_unitsOk] at h ⊢
  exact { h with fade := hf }

end Sys2Proof.Machine

/-! PROOFS. Every step keeps the invariant: a CFG write, the two ways of clearing the machine, every command. -/

namespace Sys2Proof.Machine

variable {s : State}

/-! CFG writes. -/

/-- DECCNT is reset when a new DECM is not above it (R29). -/
theorem inv_storeDecm (h : s.Inv) (v : Word) : (s.storeDecm v).Inv := by
  have hm : (if v = 0 then 1 else v) ≠ 0 := by split <;> simp_all
  exact h.withDecim hm (limited_lt hm s.deccnt)

/-- A stored word is legalised, so a write keeps the invariant (R73). -/
theorem inv_storeWord (h : s.Inv) (wd : CfgWord) (v : Word) : (s.storeWord wd v).Inv := by
  have hu := h.units
  cases wd with
  -- the words that store nothing, and those the invariant does not read
  | hwid | hwcfg | status | faultinfo | tmode | cur | fcnt => exact h
  | tapPbs | tapPrevn | tapPrevf | tapHist | dlLogsize => exact h
  | tctl | spdsh | aacoef | fastth | tspeed | speed | xwrite => exact h
  | lcgState | lcgSeed | lreg | xreg | prmVal | prmInc | lp1A | lp1S | dcbR | dcbX1 | dcbY1 | sosArr | sosNsect => exact h
  | decm => exact inv_storeDecm h v
  | deccnt => exact h.withDecim hu.decim.1 (limited_lt hu.decim.1 v)
  | ph k hi =>
    cases hi with
    | true => exact h
    | false => exact h.withPh (phaseOk_signExtend v)
  | nw b => exact h.withBuf ⟨(hu.bufs b).tv, (hu.bufs b).ts, fitsRing_and _ _⟩
  | tapNread t => exact h.setTap ⟨fitsRing_and _ _, (hu.taps t).prevn⟩
  | tapDir t | tapBuf t | tapFrac t | tapXread t | tapXrevstop t => exact h.setTap ⟨(hu.taps t).nread, (hu.taps t).prevn⟩
  | dlId u => exact h.setDl ⟨(hu.dl u).buf, fitsRing_and _ _, (hu.dl u).saved⟩
  | dlSaved u => exact h.setDl ⟨(hu.dl u).buf, (hu.dl u).id, fitsRing_and _ _⟩
  | dlIdelay u | dlFdelay u => exact h.setDl ⟨(hu.dl u).buf, (hu.dl u).id, (hu.dl u).saved⟩
  | apNstage u => exact h.withAp ⟨(hu.ap u).stages, (hu.ap u).apid⟩
  | apApid u => exact h.withAp ⟨(hu.ap u).stages, fitsRing_and _ _⟩
  | apArr u q i => exact h.withAp ((hu.ap u).setArr q _)
  | eqEqid => exact h.withEq ⟨hu.eq.eqm, fitsRing_and _ _⟩
  | eqArr q i => exact h.withEq (hu.eq.setArr q _)

/-! INIT and Reset. -/

/-- INIT clears everything the invariant speaks of but DECM (R282). -/
theorem inv_afterInit (h : s.Inv) : s.afterInit.Inv := by
  have hm := h.units.decim.1
  rw [inv_iff_unitsOk]
  exact
    { dl := fun u => by simpa [State.afterInit] using DelayLine.ok_afterInit _ _
      ap := fun u => by simpa [State.afterInit] using Cascade.ok_afterInit _ _
      eq := ⟨rfl, fitsRing_zero _⟩
      bufs := fun b => by simpa [State.afterInit, Tape.afterInit] using TapeBuf.ok_reset _
      taps := fun t => by simpa [State.afterInit, Tape.afterInit] using Tap.ok_reset _
      fade := fadeOk_zero _
      ph := fun k => by simpa [State.afterInit] using phaseOk_zero
      decim := ⟨hm, zero_lt_of_ne_zero hm⟩ }

/-- Reset clears the machine whatever its parameters (R320). -/
theorem inv_afterReset (s : State) : s.afterReset.Inv := by
  rw [inv_iff_unitsOk]
  exact
    { dl := fun u => by simpa [State.reset] using DelayLine.ok_reset _
      ap := fun u => by simpa [State.reset] using Cascade.ok_reset _
      eq := EqUnit.ok_reset _
      bufs := fun b => by simpa [State.reset, Tape.reset] using TapeBuf.ok_reset _
      taps := fun t => by simpa [State.reset, Tape.reset] using Tap.ok_reset _
      fade := fadeOk_zero _
      ph := fun k => by simpa [State.reset] using phaseOk_zero
      decim := show State.reset.decimOk from ⟨by decide, by decide⟩ }

/-! What the commands of the tape answer. -/

/-- The slot a tap is moved to is a slot of its ring (R250). -/
theorem tapOk_seekTap (h : s.Inv) (t : Fin 2) (step : XWord) : (s.seekTap t step).Ok s.par.tlog :=
  ⟨fitsRing_advance _ _ _, (h.units.taps t).nread⟩

/-- A reversal that is not dropped begins a fade at FCNT 0 (R262, R263). -/
theorem inv_reversed (h : s.Inv) : s.reversed.Inv := by
  rw [State.reversed]
  split
  · exact h
  · exact (h.setTap (t := otherTap s.tape.cur) (p := s.newTap) ⟨fitsRing_slot _ _ _, fitsRing_slot _ _ _⟩).withFade
      (fadeOk_zero true)

/-- The 256th sample of a fade ends it with FCNT 0, any other leaves FCNT below 256 (R266). -/
theorem inv_fadeCounted (h : s.Inv) (hf : s.status.fading = true) : s.fadeCounted.Inv := by
  rw [State.fadeCounted]
  split
  · exact h.withFade (fadeOk_zero false)
  · next hne =>
    have := h.withFade (fadeOk_succ h.units.fade.lt hne)
    rw [← hf] at this
    exact this

theorem inv_afterMix (h : s.Inv) (ld lcur lold : LReg) : (s.afterMix ld lcur lold).Inv := by
  rw [State.afterMix]
  split
  · next hf => exact inv_fadeCounted (h.mapL ld _) hf
  · exact h.mapL ld _

/-! Commands. -/

/-- If the answer is a next state, that state satisfies the invariant. -/
def AnswersInv (r : Result) : Prop := ∀ t, r = .next t → t.Inv

theorem answersInv_next {t : State} (h : t.Inv) : AnswersInv (.next t) := by
  rintro _ ⟨⟩
  exact h

/-- A command that runs only after INIT either runs or takes cause 6 (R283). -/
theorem answersInv_whenInit {i : Instr} {t : State} (h : s.Inv) (ht : t.Inv) : AnswersInv (s.whenInit i t) := by
  intro u hu
  obtain ⟨-, rfl⟩ | ⟨-, rfl⟩ := whenInit_cases hu
  · exact ht
  · exact h.raise _ _

theorem answersInv_cfgr (h : s.Inv) (rd rb : XReg) (off : BitVec 12) : AnswersInv (execCfgr rd rb off s) := by
  intro t ht
  obtain ⟨-, rfl⟩ | ⟨wd, -, rfl⟩ := execCfgr_cases ht
  · exact h.raise _ _
  · exact h.setX _ _

theorem answersInv_cfgw (h : s.Inv) (rs rb : XReg) (off : BitVec 12) : AnswersInv (execCfgw rs rb off s) := by
  intro t ht
  obtain rfl | ⟨wd, -, -, rfl⟩ := execCfgw_cases ht
  · exact h.raise _ _
  · exact inv_storeWord h wd _

theorem answersInv_lins (h : s.Inv) (ld : LReg) (rs : XReg) (k : Lane) : AnswersInv (execLins ld rs k s) := by
  rw [execLins]
  split
  · exact answersInv_next (h.setL _ _)
  · exact answersInv_next (h.raise _ _)

theorem answersInv_lext (h : s.Inv) (rd : XReg) (ls : LReg) (k : Lane) : AnswersInv (execLext rd ls k s) := by
  rw [execLext]
  split
  · exact answersInv_next (h.setX _ _)
  · exact answersInv_next (h.raise _ _)

theorem inv_oscillate (h : s.Inv) (rd rs : XReg) (k : Fin Config.nosc) (wave : Int → Int) :
    (s.oscillate rd rs k wave).Inv :=
  (h.withPh (wrapPhase_range _)).setX rd _

theorem answersInv_decim (h : s.Inv) (ld : LReg) : AnswersInv (execDecim ld s) :=
  answersInv_whenInit h ((h.mapL ld _).withDecim h.units.decim.1 (nextDeccnt_lt h.units.decim))

theorem answersInv_apc (h : s.Inv) (ld : LReg) (u : Fin Config.nap) : AnswersInv (execApc ld u s) :=
  answersInv_whenInit h
    ((h.setL ld _).withAp ⟨stageRun_wf _ _ _ _ _ (h.units.ap u).stages _, fitsRing_advance _ _ _⟩)

theorem answersInv_eqn (h : s.Inv) (ld : LReg) : AnswersInv (execEqn ld s) :=
  answersInv_whenInit h
    ((h.mapL ld _).withEq ⟨writeLanes_wf _ h.units.eq.eqm _ _ _, fitsRing_advance _ _ _⟩)

theorem answersInv_tmode (h : s.Inv) (m : Mode) : AnswersInv (execTmode m s) := by
  have hm : State.Inv { s with tape := { s.tape with mode := m } } := h
  refine answersInv_whenInit h ?_
  split
  · exact hm
  · exact inv_reversed hm

/-- Every command keeps the invariant. -/
theorem answersInv_exec (h : s.Inv) (i : Instr) : AnswersInv (exec i s) := by
  have hu := h.units
  cases i with
  | nop => exact answersInv_next h
  | init => exact answersInv_next (inv_afterInit h)
  | cfgw rs rb off => exact answersInv_cfgw h rs rb off
  | cfgr rd rb off => exact answersInv_cfgr h rd rb off
  | xli rd | xsli rd | xmov rd | xadd rd | xsub rd | xsrai rd | xslli rd | vcmp rd => exact answersInv_next (h.setX rd _)
  | plfo rd rs k | tlfo rd rs k => exact answersInv_whenInit h (inv_oscillate h rd rs k _)
  | lmov ld | lli ld | ladd ld | lsub ld | lmul ld | lmac ld | lsplat ld | lxcvt ld =>
    exact answersInv_next (h.mapL ld _)
  | lins ld rs k => exact answersInv_lins h ld rs k
  | lext rd ls k => exact answersInv_lext h rd ls k
  | lsumt ld => exact answersInv_next (h.setL ld _)
  | decim ld => exact answersInv_decim h ld
  -- the invariant reads neither the L registers nor these units
  | pramp | pend | sos | lp1 | dcb | dlmod => exact answersInv_whenInit h h
  | dlrdh ld u | dlrdl ld u => exact answersInv_whenInit h (h.mapL ld _)
  | dlset ls u => exact answersInv_whenInit h (h.setDl ⟨(hu.dl u).buf, (hu.dl u).id, (hu.dl u).saved⟩)
  | dlwr ls u =>
    exact answersInv_whenInit h (h.setDl ⟨writeLanes_wf _ (hu.dl u).buf _ _ _, (hu.dl u).id, (hu.dl u).saved⟩)
  | dladv u | dladvx rs u =>
    exact answersInv_whenInit h (h.setDl ⟨(hu.dl u).buf, fitsRing_advance _ _ _, (hu.dl u).saved⟩)
  | dlsav u => exact answersInv_whenInit h (h.setDl ⟨(hu.dl u).buf, (hu.dl u).id, (hu.dl u).id⟩)
  | dlrst u => exact answersInv_whenInit h (h.setDl ⟨(hu.dl u).buf, (hu.dl u).saved, (hu.dl u).saved⟩)
  | apc ld u => exact answersInv_apc h ld u
  | eqn ld => exact answersInv_eqn h ld
  | tspd rd => exact answersInv_whenInit h (h.setX rd s.nextSpeed)
  | twr ls rs => exact answersInv_whenInit h (h.withBuf ((hu.bufs s.tape.wbuf).put s.par.nch _ _))
  | tseek rs t => exact answersInv_whenInit h (h.setTap (tapOk_seekTap h t s.x[rs]))
  | trd ld t => exact answersInv_whenInit h ((h.mapL ld _).setTap ⟨(hu.taps t).nread, (hu.taps t).prevn⟩)
  | trev => exact answersInv_whenInit h (inv_reversed h)
  | tmode m => exact answersInv_tmode h m
  | tmix ld lcur lold => exact answersInv_whenInit h (inv_afterMix h ld lcur lold)

/-! Transactions. -/

theorem inv_issue {t : State} {w : Word} (h : s.Inv) (ht : s.issue w = .next t) : t.Inv := by
  obtain ⟨-, rfl⟩ | ⟨-, i, -, hi⟩ | ⟨-, e, -, rfl⟩ := issue_cases ht
  · exact h.withIndex _
  · exact answersInv_exec (h.withIndexDraw _ _) i t hi
  · exact (h.withIndex _).raise _ _

theorem inv_hostWrite (h : s.Inv) (a : BitVec 16) (v : Word) : (s.hostWrite a v).Inv := by
  rw [State.hostWrite]
  split
  · exact h
  · obtain hs | ⟨wd, -, -, hs⟩ := cfgWrite_cases s a v
    · rwa [hs]
    · rw [hs]
      exact inv_storeWord h wd v

/-- Settles O16: each transaction keeps the invariant, and an idle step keeps the state. -/
theorem stepKeepsTheInvariant : Obligations.StepKeepsTheInvariant := by
  intro s t h hstep
  obtain ⟨-, rfl⟩ | ⟨w, rest, -, ht⟩ | ⟨a, rest, -, rfl⟩ | ⟨a, v, rest, -, rfl⟩ | ⟨rest, -, rfl⟩ := step_cases hstep
  · exact h
  · exact inv_issue (h.withInbox rest) ht
  · exact (h.withInbox rest).hostRead a
  · exact inv_hostWrite (h.withInbox rest) a v
  · exact inv_afterReset _

end Sys2Proof.Machine

/-! PROOFS. The bits of the words STATUS and HWCFG (10_state.md R28, R29). -/

namespace Sys2Proof.Machine

theorem cfgRead_status (s : State) : s.cfgRead 0x0002#16 = s.status.word := rfl

theorem cfgRead_hwcfg (s : State) : s.cfgRead 0x0001#16 = hwcfgWord s.par := rfl

/-- The word STATUS with its width left as the sum of its fields' widths, where the library's lemmas on a field of a
concatenation apply (`Nat.reduceAdd` would add the widths up). -/
theorem extractLsb'_status (st : Status) (start len : Nat) :
    st.word.extractLsb' start len = BitVec.extractLsb' start len
      (0#18 ++ BitVec.ofBool st.revdrop ++ BitVec.ofBool st.tapOver ++ BitVec.ofBool st.tapUnder
        ++ BitVec.ofBool st.revstop ++ BitVec.ofBool st.fast ++ BitVec.ofBool st.fading ++ st.causeCode ++ 0#2
        ++ BitVec.ofBool st.fault.isSome ++ BitVec.ofBool st.initd) := rfl

theorem extractLsb'_hwcfg (p : Params) (start len : Nat) :
    (hwcfgWord p).extractLsb' start len = BitVec.extractLsb' start len
      (0#16 ++ BitVec.ofNat 4 Config.nosc ++ BitVec.ofNat 6 Config.logU ++ BitVec.ofNat 2 p.nch ++ BitVec.ofNat 4 p.n) :=
  rfl

/-- A field of one bit is that bit. -/
theorem getLsbD_of_extractLsb' {w i : Nat} {x : BitVec w} {b : Bool} (h : x.extractLsb' i 1 = BitVec.ofBool b) :
    x.getLsbD i = b := by
  simpa using congrArg (fun y => y.getLsbD 0) h

/-- The fields of STATUS that are wider than a bit. -/
theorem status_wideFields (st : Status) :
    st.word.extractLsb' 2 2 = 0#2 ∧ st.word.extractLsb' 4 4 = st.causeCode ∧ st.word.extractLsb' 14 18 = 0#18 := by
  simp [-Nat.reduceAdd, extractLsb'_status, BitVec.extractLsb'_append_eq_of_le, BitVec.extractLsb'_append_eq_of_add_le]

theorem status_bits (st : Status) :
    st.word.getLsbD 0 = st.initd ∧ st.word.getLsbD 1 = st.fault.isSome ∧ st.word.getLsbD 8 = st.fading
      ∧ st.word.getLsbD 9 = st.fast ∧ st.word.getLsbD 10 = st.revstop ∧ st.word.getLsbD 11 = st.tapUnder
      ∧ st.word.getLsbD 12 = st.tapOver ∧ st.word.getLsbD 13 = st.revdrop := by
  refine ⟨?_, ?_, ?_, ?_, ?_, ?_, ?_, ?_⟩ <;> apply getLsbD_of_extractLsb' <;>
    simp [-Nat.reduceAdd, extractLsb'_status, BitVec.extractLsb'_append_eq_of_le,
      BitVec.extractLsb'_append_eq_of_add_le]

theorem hwcfg_fields (p : Params) :
    (hwcfgWord p).extractLsb' 0 4 = BitVec.ofNat 4 p.n ∧ (hwcfgWord p).extractLsb' 4 2 = BitVec.ofNat 2 p.nch
      ∧ (hwcfgWord p).extractLsb' 6 6 = 30#6 ∧ (hwcfgWord p).extractLsb' 12 4 = 4#4
      ∧ (hwcfgWord p).extractLsb' 16 16 = 0#16 := by
  simp [-Nat.reduceAdd, extractLsb'_hwcfg, BitVec.extractLsb'_append_eq_of_le, BitVec.extractLsb'_append_eq_of_add_le]

/-- Settles O11: the two words are read at their addresses, and each field off the concatenation that makes the word. -/
theorem statusWordBits : Obligations.StatusWordBits := by
  intro s
  simp only [cfgRead_status, cfgRead_hwcfg]
  obtain ⟨hlow, hcause, hhigh⟩ := status_wideFields s.status
  obtain ⟨hinitd, hfault, hfading, hfast, hrevstop, hunder, hover, hrevdrop⟩ := status_bits s.status
  refine ⟨hinitd, ?_, hlow, fun h => ?_, fun c h => ?_, hfading, hfast, hrevstop, hunder, hover, hrevdrop, hhigh,
    hwcfg_fields s.par⟩
  · rw [hfault, Option.isSome_iff_ne_none]
  · simp [hcause, Status.causeCode, h]
  · simp [hcause, Status.causeCode, h]

end Sys2Proof.Machine

/-! SUPPORT. The address map R75 one unit at a time: the words of a unit from its base, and its lane words from
the first lane. -/

namespace Sys2Proof.Machine

theorem ofNat_eq_of_mod {n x : Nat} [NeZero n] {u : Fin n} (h : x % n = u.val) : Fin.ofNat n x = u := Fin.ext h

/-! Lane words and channel words inside a unit. -/

section
variable {p : Params} {i : Lane}

theorem laneWord_of_lt {x : Nat} {f : Lane → CfgWord} (hi : i.val < p.n) (hx : x % 8 = i.val) :
    laneWord p x f = some (f i) := by
  rw [laneWord, if_pos (hx ▸ hi), ofNat_eq_of_mod hx]

theorem histWord_of_lt (t c : Fin 2) (q : Fin 5) (hc : c.val < p.nch) :
    histWord p (0x10 * t.val + 8 * c.val + q.val) = some (.tapHist t c q) := by
  have ht : Fin.ofNat 2 ((0x10 * t.val + 8 * c.val + q.val) / 16) = t := ofNat_eq_of_mod (by omega)
  have hc' : Fin.ofNat 2 ((0x10 * t.val + 8 * c.val + q.val) / 8) = c := ofNat_eq_of_mod (by omega)
  have hq : (0x10 * t.val + 8 * c.val + q.val) % 8 = q.val := by omega
  simp (disch := omega) only [histWord, ht, hc', hq, dif_pos, if_pos]

variable (hi : i.val < p.n)
include hi

theorem dlWord_idelay (u : Fin 4) : dlWord p u (8 + i.val) = some (.dlIdelay u i) := by
  simp (disch := omega) only [dlWord, if_neg, if_pos, laneWord_of_lt hi]

theorem dlWord_fdelay (u : Fin 4) : dlWord p u (0x10 + i.val) = some (.dlFdelay u i) := by
  simp (disch := omega) only [dlWord, if_neg, if_pos, laneWord_of_lt hi]

theorem dcbWord_r (k : Fin 2) : dcbWord p k i.val = some (.dcbR k i) := by
  simp (disch := omega) only [dcbWord, if_pos, laneWord_of_lt hi]

theorem dcbWord_x1 (k : Fin 2) : dcbWord p k (8 + i.val) = some (.dcbX1 k i) := by
  simp (disch := omega) only [dcbWord, if_neg, if_pos, laneWord_of_lt hi]

theorem dcbWord_y1 (k : Fin 2) : dcbWord p k (0x10 + i.val) = some (.dcbY1 k i) := by
  simp (disch := omega) only [dcbWord, if_neg, if_pos, laneWord_of_lt hi]

theorem apWord_arr (u : Fin 2) (q : Fin 3) : apWord p u (8 * (q.val + 1) + i.val) = some (.apArr u q i) := by
  fin_cases q <;> simp (disch := omega) only [apWord, if_neg, if_pos, laneWord_of_lt hi] <;> rfl

theorem eqWord_arr (q : Fin 6) : eqWord p (8 * (q.val + 1) + i.val) = some (.eqArr q i) := by
  have hq : (8 * (q.val + 1) + i.val) / 8 - 1 = q.val := by omega
  simp (disch := omega) only [eqWord, if_neg, dif_pos, hq, laneWord_of_lt hi]

theorem sosWord_arr (b : Fin 4) (j : Fin 5) (q : Fin 7) :
    sosWord p b (0x40 * j.val + 8 * q.val + i.val) = some (.sosArr b j q i) := by
  have hj : (0x40 * j.val + 8 * q.val + i.val) / 0x40 = j.val := by omega
  have hq : (0x40 * j.val + 8 * q.val + i.val) % 0x40 / 8 = q.val := by omega
  simp (disch := omega) only [sosWord, if_neg, dif_pos, hj, hq, laneWord_of_lt hi]

end

/-! The units from their bases. -/

section
variable {p : Params} {a : BitVec 16}

theorem cfgWord_tap (t : Fin 2) (x : Nat) (hx : x < 0x10) (ha : a.toNat = 0x20 + 0x10 * t.val + x) :
    cfgWord p a = tapWord t x := by
  have ht : Fin.ofNat 2 ((a.toNat - 0x20) / 0x10) = t := ofNat_eq_of_mod (by omega)
  have hx : a.toNat % 0x10 = x := by omega
  simp (disch := omega) only [cfgWord, if_neg, if_pos, ht, hx]

theorem cfgWord_hist (x : Nat) (hx : x < 0x20) (ha : a.toNat = 0x40 + x) : cfgWord p a = histWord p x := by
  simp (disch := omega) only [cfgWord, if_neg, if_pos, ha, Nat.add_sub_cancel_left]

theorem hiBit_lt (hi : Bool) : hiBit hi < 2 := by cases hi <;> decide

@[simp] theorem hiBit_beq_one (hi : Bool) : (hiBit hi == 1) = hi := by cases hi <;> rfl

theorem cfgWord_ph (k : Fin 4) (hi : Bool) (ha : a.toNat = 0x60 + 2 * k.val + hiBit hi) :
    cfgWord p a = some (.ph k hi) := by
  have hlt := hiBit_lt hi
  have hk : Fin.ofNat 4 ((a.toNat - 0x60) / 2) = k := ofNat_eq_of_mod (by omega)
  have hx : a.toNat % 2 = hiBit hi := by omega
  simp (disch := omega) only [cfgWord, if_neg, if_pos, hk, hx, hiBit_beq_one]

theorem cfgWord_lreg (r : LReg) {i : Lane} (hi : i.val < p.n) (ha : a.toNat = 0x80 + 8 * r.val + i.val) :
    cfgWord p a = some (.lreg r i) := by
  have hr : Fin.ofNat 8 ((a.toNat - 0x80) / 8) = r := ofNat_eq_of_mod (by omega)
  simp (disch := omega) only [cfgWord, if_neg, if_pos, hr, laneWord_of_lt hi]

theorem cfgWord_xreg (j : XReg) (hi : Bool) (ha : a.toNat = 0xC0 + 2 * j.val + hiBit hi) :
    cfgWord p a = some (.xreg j hi) := by
  have hlt := hiBit_lt hi
  have hj : Fin.ofNat 16 ((a.toNat - 0xC0) / 2) = j := ofNat_eq_of_mod (by omega)
  have hx : a.toNat % 2 = hiBit hi := by omega
  simp (disch := omega) only [cfgWord, if_neg, if_pos, hj, hx, hiBit_beq_one]

theorem cfgWord_dl (u : Fin 4) (x : Nat) (hx : x < 0x20) (ha : a.toNat = 0x100 + 0x20 * u.val + x) :
    cfgWord p a = dlWord p u x := by
  have hu : Fin.ofNat 4 ((a.toNat - 0x100) / 0x20) = u := ofNat_eq_of_mod (by omega)
  have hx : a.toNat % 0x20 = x := by omega
  simp (disch := omega) only [cfgWord, if_neg, if_pos, hu, hx]

theorem cfgWord_prmVal (q : Fin 8) {i : Lane} (hi : i.val < p.n) (ha : a.toNat = 0x200 + 0x10 * q.val + i.val) :
    cfgWord p a = some (.prmVal q i) := by
  have hq : Fin.ofNat 8 ((a.toNat - 0x200) / 0x10) = q := ofNat_eq_of_mod (by omega)
  simp (disch := omega) only [cfgWord, if_neg, if_pos, hq, laneWord_of_lt hi]

theorem cfgWord_prmInc (q : Fin 8) {i : Lane} (hi : i.val < p.n) (ha : a.toNat = 0x200 + 0x10 * q.val + 8 + i.val) :
    cfgWord p a = some (.prmInc q i) := by
  have hq : Fin.ofNat 8 ((a.toNat - 0x200) / 0x10) = q := ofNat_eq_of_mod (by omega)
  simp (disch := omega) only [cfgWord, if_neg, if_pos, hq, laneWord_of_lt hi]

theorem cfgWord_lp1A (k : Fin 4) {i : Lane} (hi : i.val < p.n) (ha : a.toNat = 0x280 + 0x10 * k.val + i.val) :
    cfgWord p a = some (.lp1A k i) := by
  have hk : Fin.ofNat 4 ((a.toNat - 0x280) / 0x10) = k := ofNat_eq_of_mod (by omega)
  simp (disch := omega) only [cfgWord, if_neg, if_pos, hk, laneWord_of_lt hi]

theorem cfgWord_lp1S (k : Fin 4) {i : Lane} (hi : i.val < p.n) (ha : a.toNat = 0x280 + 0x10 * k.val + 8 + i.val) :
    cfgWord p a = some (.lp1S k i) := by
  have hk : Fin.ofNat 4 ((a.toNat - 0x280) / 0x10) = k := ofNat_eq_of_mod (by omega)
  simp (disch := omega) only [cfgWord, if_neg, if_pos, hk, laneWord_of_lt hi]

theorem cfgWord_dcb (k : Fin 2) (x : Nat) (hx : x < 0x20) (ha : a.toNat = 0x2C0 + 0x20 * k.val + x) :
    cfgWord p a = dcbWord p k x := by
  have hk : Fin.ofNat 2 ((a.toNat - 0x2C0) / 0x20) = k := ofNat_eq_of_mod (by omega)
  have hx : a.toNat % 0x20 = x := by omega
  simp (disch := omega) only [cfgWord, if_neg, if_pos, hk, hx]

theorem cfgWord_ap (u : Fin 2) (x : Nat) (hx : x < 0x40) (ha : a.toNat = 0x300 + 0x40 * u.val + x) :
    cfgWord p a = apWord p u x := by
  have hu : Fin.ofNat 2 ((a.toNat - 0x300) / 0x40) = u := ofNat_eq_of_mod (by omega)
  have hx : a.toNat % 0x40 = x := by omega
  simp (disch := omega) only [cfgWord, if_neg, if_pos, hu, hx]

theorem cfgWord_eqUnit (x : Nat) (hx : x < 0x40) (ha : a.toNat = 0x380 + x) : cfgWord p a = eqWord p x := by
  simp (disch := omega) only [cfgWord, if_neg, if_pos, ha, Nat.add_sub_cancel_left]

theorem cfgWord_sos (b : Fin 4) (x : Nat) (hx : x < 0x200) (ha : a.toNat = 0x1000 + 0x200 * b.val + x) :
    cfgWord p a = sosWord p b x := by
  have hb : Fin.ofNat 4 ((a.toNat - 0x1000) / 0x200) = b := ofNat_eq_of_mod (by omega)
  have hx : a.toNat % 0x200 = x := by omega
  simp (disch := omega) only [cfgWord, if_neg, if_pos, hb, hx]

end

/-- A word that exists is mapped at its address (R75). -/
theorem cfgWord_of_addr {p : Params} {a : BitVec 16} {wd : CfgWord} (hp : wd.present p = true)
    (ha : a.toNat = wd.addr) : cfgWord p a = some wd := by
  have hfixed : a = BitVec.ofNat 16 wd.addr := by rw [← ha, BitVec.ofNat_toNat, BitVec.setWidth_eq]
  cases wd with
  -- words at a fixed address
  | hwid | hwcfg | status | faultinfo | decm | deccnt => subst hfixed; rfl
  | tmode | tctl | spdsh | aacoef | fastth | cur | fcnt => subst hfixed; rfl
  | nw b => subst hfixed; fin_cases b <;> rfl
  | tspeed hi | speed hi | xwrite hi => subst hfixed; cases hi <;> rfl
  -- taps
  | tapNread t => exact cfgWord_tap t 0 (by decide) ha
  | tapDir t => exact cfgWord_tap t 1 (by decide) ha
  | tapBuf t => exact cfgWord_tap t 2 (by decide) ha
  | tapFrac t => exact cfgWord_tap t 3 (by decide) ha
  | tapPbs t => exact cfgWord_tap t 4 (by decide) ha
  | tapXread t hi =>
    cases hi with
    | false => exact cfgWord_tap t 6 (by decide) ha
    | true => exact cfgWord_tap t 7 (by decide) ha
  | tapXrevstop t hi =>
    cases hi with
    | false => exact cfgWord_tap t 8 (by decide) ha
    | true => exact cfgWord_tap t 9 (by decide) ha
  | tapPrevn t => exact cfgWord_tap t 0xA (by decide) ha
  | tapPrevf t => exact cfgWord_tap t 0xB (by decide) ha
  | tapHist t c q =>
    rw [cfgWord_hist (0x10 * t.val + 8 * c.val + q.val) (by omega) (by simp only [ha, CfgWord.addr]; omega)]
    exact histWord_of_lt t c q (of_decide_eq_true hp)
  -- registers and per-lane units
  | ph k hi => exact cfgWord_ph k hi ha
  | lcgState i | lcgSeed i =>
    simp only [CfgWord.addr] at ha
    simp (disch := omega) only [cfgWord, if_neg, if_pos, laneWord_of_lt (of_decide_eq_true hp)]
  | lreg r i => exact cfgWord_lreg r (of_decide_eq_true hp) ha
  | xreg j hi => exact cfgWord_xreg j hi ha
  | prmVal q i => exact cfgWord_prmVal q (of_decide_eq_true hp) ha
  | prmInc q i => exact cfgWord_prmInc q (of_decide_eq_true hp) ha
  | lp1A k i => exact cfgWord_lp1A k (of_decide_eq_true hp) ha
  | lp1S k i => exact cfgWord_lp1S k (of_decide_eq_true hp) ha
  -- units with words of several kinds
  | dlId u => exact cfgWord_dl u 0 (by decide) ha
  | dlSaved u => exact cfgWord_dl u 1 (by decide) ha
  | dlLogsize u => exact cfgWord_dl u 2 (by decide) ha
  | dlIdelay u i =>
    rw [cfgWord_dl u (8 + i.val) (by omega) (ha.trans (Nat.add_assoc _ _ _))]
    exact dlWord_idelay (of_decide_eq_true hp) u
  | dlFdelay u i =>
    rw [cfgWord_dl u (0x10 + i.val) (by omega) (ha.trans (Nat.add_assoc _ _ _))]
    exact dlWord_fdelay (of_decide_eq_true hp) u
  | dcbR k i =>
    rw [cfgWord_dcb k i.val (by omega) ha]
    exact dcbWord_r (of_decide_eq_true hp) k
  | dcbX1 k i =>
    rw [cfgWord_dcb k (8 + i.val) (by omega) (ha.trans (Nat.add_assoc _ _ _))]
    exact dcbWord_x1 (of_decide_eq_true hp) k
  | dcbY1 k i =>
    rw [cfgWord_dcb k (0x10 + i.val) (by omega) (ha.trans (Nat.add_assoc _ _ _))]
    exact dcbWord_y1 (of_decide_eq_true hp) k
  | apNstage u => exact cfgWord_ap u 0 (by decide) ha
  | apApid u => exact cfgWord_ap u 1 (by decide) ha
  | apArr u q i =>
    rw [cfgWord_ap u (8 * (q.val + 1) + i.val) (by omega) (ha.trans (Nat.add_assoc _ _ _))]
    exact apWord_arr (of_decide_eq_true hp) u q
  | eqEqid => exact cfgWord_eqUnit 0 (by decide) ha
  | eqArr q i =>
    rw [cfgWord_eqUnit (8 * (q.val + 1) + i.val) (by omega) (ha.trans (Nat.add_assoc _ _ _))]
    exact eqWord_arr (of_decide_eq_true hp) q
  | sosNsect b => exact cfgWord_sos b 0x1F0 (by decide) ha
  | sosArr b j q i =>
    have hj : j.val < 5 := j.isLt
    rw [cfgWord_sos b (0x40 * j.val + 8 * q.val + i.val) (by omega) (by simp only [ha, CfgWord.addr]; omega)]
    exact sosWord_arr (of_decide_eq_true hp) b j q

end Sys2Proof.Machine

/-! SUPPORT. Every address the map R75 gives a word is that word's own address. -/

namespace Sys2Proof.Machine

/-- If `r` is a word, it exists in a core with parameters `p` and its address is `a`. -/
def Names (p : Params) (a : Nat) (r : Option CfgWord) : Prop :=
  ∀ wd, r = some wd → wd.present p = true ∧ wd.addr = a

section
variable {p : Params} {a x : Nat}

theorem names_none : Names p a none := nofun

theorem names_some {wd : CfgWord} (hp : wd.present p = true) (ha : wd.addr = a) : Names p a (some wd) := by
  rintro _ ⟨⟩
  exact ⟨hp, ha⟩

theorem names_ite {c : Prop} [Decidable c] {r r' : Option CfgWord} (hr : c → Names p a r)
    (hr' : ¬ c → Names p a r') : Names p a (if c then r else r') := by
  split
  · next h => exact hr h
  · next h => exact hr' h

theorem names_laneWord {f : Lane → CfgWord} (hp : ∀ i, (f i).present p = decide (i.val < p.n))
    (ha : ∀ i : Lane, i.val = x % 8 → (f i).addr = a) : Names p a (laneWord p x f) :=
  names_ite (fun h => names_some ((hp _).trans (decide_eq_true h)) (ha _ rfl)) fun _ => names_none

theorem names_globalWord : Names p x (globalWord x) := by
  unfold globalWord
  split <;> simp [Names, CfgWord.present, CfgWord.addr]

theorem names_tapeWord (ha : a = 0x10 + x) : Names p a (tapeWord x) := by
  unfold tapeWord
  split <;> simp [Names, ha, CfgWord.present, CfgWord.addr, hiBit]

theorem names_tapWord (t : Fin 2) (ha : a = 0x20 + 0x10 * t.val + x) : Names p a (tapWord t x) := by
  unfold tapWord
  split <;> simp [Names, ha, CfgWord.present, CfgWord.addr, hiBit]

theorem names_histWord (h : x < 0x20) (ha : a = 0x40 + x) : Names p a (histWord p x) := by
  rw [histWord]
  split
  · refine names_ite (fun hc => names_some (decide_eq_true hc) ?_) fun _ => names_none
    simp only [CfgWord.addr, Fin.val_ofNat]
    omega
  · exact names_none

theorem names_dlWord (u : Fin 4) (ha : a = 0x100 + 0x20 * u.val + x) : Names p a (dlWord p u x) := by
  unfold dlWord
  split_ifs
  · exact names_some rfl (by simp only [CfgWord.addr]; omega)
  · exact names_some rfl (by simp only [CfgWord.addr]; omega)
  · exact names_some rfl (by simp only [CfgWord.addr]; omega)
  · exact names_laneWord (fun _ => rfl) (by simp only [CfgWord.addr]; omega)
  · exact names_laneWord (fun _ => rfl) (by simp only [CfgWord.addr]; omega)
  · exact names_none

theorem names_dcbWord (k : Fin 2) (ha : a = 0x2C0 + 0x20 * k.val + x) : Names p a (dcbWord p k x) := by
  unfold dcbWord
  split_ifs
  · exact names_laneWord (fun _ => rfl) (by simp only [CfgWord.addr]; omega)
  · exact names_laneWord (fun _ => rfl) (by simp only [CfgWord.addr]; omega)
  · exact names_laneWord (fun _ => rfl) (by simp only [CfgWord.addr]; omega)
  · exact names_none

theorem names_apWord (u : Fin 2) (ha : a = 0x300 + 0x40 * u.val + x) : Names p a (apWord p u x) := by
  unfold apWord
  split_ifs
  · exact names_some rfl (by simp only [CfgWord.addr]; omega)
  · exact names_some rfl (by simp only [CfgWord.addr]; omega)
  · exact names_laneWord (fun _ => rfl) (by simp only [CfgWord.addr]; omega)
  · exact names_laneWord (fun _ => rfl) (by simp only [CfgWord.addr]; omega)
  · exact names_laneWord (fun _ => rfl) (by simp only [CfgWord.addr]; omega)
  · exact names_none

theorem names_eqWord (ha : a = 0x380 + x) : Names p a (eqWord p x) := by
  unfold eqWord
  split_ifs
  · exact names_some rfl (by simp only [CfgWord.addr]; omega)
  · exact names_laneWord (fun _ => rfl) (by simp only [CfgWord.addr]; omega)
  · exact names_none

theorem names_sosWord (b : Fin 4) (ha : a = 0x1000 + 0x200 * b.val + x) : Names p a (sosWord p b x) := by
  unfold sosWord
  split_ifs
  · exact names_some rfl (by simp only [CfgWord.addr]; omega)
  · exact names_laneWord (fun _ => rfl) (by simp only [CfgWord.addr]; omega)
  · exact names_none

end

/-- The low or the high word of a pair, by the last bit of its address. -/
theorem hiBit_mod_two (x : Nat) : hiBit (x % 2 == 1) = x % 2 := by
  rcases Nat.mod_two_eq_zero_or_one x with h | h <;> rw [h] <;> rfl

theorem names_cfgWord (p : Params) (a : BitVec 16) : Names p a.toNat (cfgWord p a) := by
  refine names_ite (fun _ => names_globalWord) fun _ => ?_
  refine names_ite (fun _ => names_tapeWord (by omega)) fun _ => ?_
  refine names_ite (fun _ => names_tapWord _ (by simp only [Fin.val_ofNat]; omega)) fun _ => ?_
  refine names_ite (fun _ => names_histWord (by omega) (by omega)) fun _ => ?_
  -- the phase registers, the generator, the L and X registers
  refine names_ite (fun _ => names_some rfl ?_) fun _ => ?_
  · simp only [CfgWord.addr, hiBit_mod_two, Fin.val_ofNat, Config.nosc]
    omega
  refine names_ite (fun _ => names_none) fun _ => ?_
  refine names_ite (fun _ => names_laneWord (fun _ => rfl) (by simp only [CfgWord.addr]; omega)) fun _ => ?_
  refine names_ite (fun _ => names_laneWord (fun _ => rfl) (by simp only [CfgWord.addr]; omega)) fun _ => ?_
  refine names_ite (fun _ => names_laneWord (fun _ => rfl) ?_) fun _ => ?_
  · simp only [CfgWord.addr, Fin.val_ofNat]
    omega
  refine names_ite (fun _ => names_some rfl ?_) fun _ => ?_
  · simp only [CfgWord.addr, hiBit_mod_two, Fin.val_ofNat]
    omega
  refine names_ite (fun _ => names_none) fun _ => ?_
  refine names_ite (fun _ => names_dlWord _ (by simp only [Fin.val_ofNat]; omega)) fun _ => ?_
  refine names_ite (fun _ => names_none) fun _ => ?_
  -- VAL and INC of the ramps, A and S of the low-passes
  refine names_ite (fun _ => names_ite (fun _ => names_laneWord (fun _ => rfl) ?_)
    fun _ => names_laneWord (fun _ => rfl) ?_) fun _ => ?_
  · simp only [CfgWord.addr, Fin.val_ofNat, Config.nprm]
    omega
  · simp only [CfgWord.addr, Fin.val_ofNat, Config.nprm]
    omega
  refine names_ite (fun _ => names_ite (fun _ => names_laneWord (fun _ => rfl) ?_)
    fun _ => names_laneWord (fun _ => rfl) ?_) fun _ => ?_
  · simp only [CfgWord.addr, Fin.val_ofNat, Config.nlp]
    omega
  · simp only [CfgWord.addr, Fin.val_ofNat, Config.nlp]
    omega
  refine names_ite (fun _ => names_dcbWord _ (by simp only [Fin.val_ofNat]; omega)) fun _ => ?_
  refine names_ite (fun _ => names_apWord _ (by simp only [Fin.val_ofNat]; omega)) fun _ => ?_
  refine names_ite (fun _ => names_eqWord (by omega)) fun _ => ?_
  refine names_ite (fun _ => names_none) fun _ => ?_
  exact names_ite (fun _ => names_sosWord _ (by simp only [Fin.val_ofNat]; omega)) fun _ => names_none

end Sys2Proof.Machine

/-! PROOFS. The CFG map against the table R75, and the state that stands at each of its addresses. -/

namespace Sys2Proof.Machine

variable {s : State}

theorem cfgAt_eq_word {x : Nat} (wd : CfgWord) (ha : x % 2 ^ 16 = wd.addr) (hp : wd.present s.par = true) :
    s.cfgAt x = s.word wd := by
  have hw : cfgWord s.par (BitVec.ofNat 16 x) = some wd := cfgWord_of_addr hp ((BitVec.toNat_ofNat x 16).trans ha)
  simp [State.cfgAt, State.cfgRead, hw]

theorem cfgPairAt_eq {x : Nat} {v : XWord} (f : Bool → CfgWord) (hf : ∀ hi, s.word (f hi) = getHalf v hi)
    (hlo : x % 2 ^ 16 = (f false).addr) (hhi : (x + 1) % 2 ^ 16 = (f true).addr)
    (hp : ∀ hi, (f hi).present s.par = true) : s.cfgPairAt x = v := by
  rw [State.cfgPairAt, cfgAt_eq_word _ hlo (hp _), cfgAt_eq_word _ hhi (hp _), hf, hf, getHalf_append]

theorem mapsScalars (s : State) : s.MapsScalars := by
  have hmode : s.word .tmode = (match s.tape.mode with | .normal => 0#32 | .backForth => 1#32 | .reverse => 2#32) := by
    rw [State.word]
    cases s.tape.mode <;> rfl
  exact ⟨cfgAt_eq_word .hwid rfl rfl, cfgAt_eq_word .hwcfg rfl rfl, cfgAt_eq_word .status rfl rfl,
    cfgAt_eq_word .faultinfo rfl rfl, cfgAt_eq_word .decm rfl rfl, cfgAt_eq_word .deccnt rfl rfl,
    (cfgAt_eq_word .tmode rfl rfl).trans hmode, cfgAt_eq_word .tctl rfl rfl, cfgAt_eq_word .spdsh rfl rfl,
    cfgAt_eq_word .aacoef rfl rfl, cfgAt_eq_word .fastth rfl rfl, cfgAt_eq_word (.nw 0) rfl rfl,
    cfgAt_eq_word (.nw 1) rfl rfl, cfgAt_eq_word .cur rfl rfl, cfgAt_eq_word .fcnt rfl rfl,
    cfgPairAt_eq .tspeed (fun _ => rfl) rfl rfl fun _ => rfl, cfgPairAt_eq .speed (fun _ => rfl) rfl rfl fun _ => rfl,
    cfgPairAt_eq .xwrite (fun _ => rfl) rfl rfl fun _ => rfl⟩

/-- The history of a channel that exists. -/
theorem cfgAt_tapHist (t c : Fin 2) (hc : c.val < s.par.nch) (q : Fin 5) :
    s.cfgAt (0x0040 + 0x10 * t.val + 8 * c.val + q.val) = (s.tape.taps[t].hist q)[c] :=
  cfgAt_eq_word (.tapHist t c q) (by simp only [CfgWord.addr]; omega) (decide_eq_true hc)

theorem mapsTaps (s : State) : s.MapsTaps := by
  intro t b p
  have hdir : s.word (.tapDir t) = (match p.dir with | .forwards => 0#32 | .backwards => 1#32) := by
    rw [State.word]
    cases s.tape.taps[t].dir <;> rfl
  have hhist (c : Fin 2) (hc : c.val < s.par.nch) := cfgAt_tapHist (s := s) t c hc
  refine ⟨cfgAt_eq_word (.tapNread t) ?_ rfl, (cfgAt_eq_word (.tapDir t) ?_ rfl).trans hdir,
    cfgAt_eq_word (.tapBuf t) ?_ rfl, cfgAt_eq_word (.tapFrac t) ?_ rfl, cfgAt_eq_word (.tapPbs t) ?_ rfl,
    cfgPairAt_eq (.tapXread t) (fun _ => rfl) ?_ ?_ fun _ => rfl,
    cfgPairAt_eq (.tapXrevstop t) (fun _ => rfl) ?_ ?_ fun _ => rfl,
    cfgAt_eq_word (.tapPrevn t) ?_ rfl, cfgAt_eq_word (.tapPrevf t) ?_ rfl,
    fun c hc => ⟨hhist c hc 0, hhist c hc 1, hhist c hc 2, hhist c hc 3, hhist c hc 4⟩⟩
  all_goals
    simp only [CfgWord.addr, hiBit, Bool.false_eq_true, if_false, if_true]
    omega

theorem mapsRegisters (s : State) : s.MapsRegisters := by
  refine ⟨fun k => cfgPairAt_eq (.ph k) (fun _ => rfl) ?_ ?_ fun _ => rfl,
    fun j => cfgPairAt_eq (.xreg j) (fun _ => rfl) ?_ ?_ fun _ => rfl,
    fun u => ⟨cfgAt_eq_word (.dlId u) ?_ rfl, cfgAt_eq_word (.dlSaved u) ?_ rfl, cfgAt_eq_word (.dlLogsize u) ?_ rfl⟩,
    fun u => ⟨cfgAt_eq_word (.apNstage u) ?_ rfl, cfgAt_eq_word (.apApid u) ?_ rfl⟩,
    cfgAt_eq_word .eqEqid rfl rfl, fun b => cfgAt_eq_word (.sosNsect b) ?_ rfl⟩
  all_goals
    simp only [CfgWord.addr, hiBit, Bool.false_eq_true, if_false, if_true, Config.nosc, Config.ndl, Config.nap,
      Config.nbank]
    omega

/-- A word of a lane that exists. -/
theorem cfgAt_laneWord {x : Nat} {i : Lane} (hi : i.val < s.par.n) (wd : CfgWord) (ha : x % 2 ^ 16 = wd.addr)
    (hp : wd.present s.par = decide (i.val < s.par.n)) : s.cfgAt x = s.word wd :=
  cfgAt_eq_word wd ha (hp.trans (decide_eq_true hi))

theorem mapsLane (s : State) {i : Lane} (hi : i.val < s.par.n) : s.MapsLane i := by
  have words {x : Nat} := cfgAt_laneWord (x := x) hi
  refine ⟨words (.lcgState i) ?_ rfl, words (.lcgSeed i) ?_ rfl, fun r => words (.lreg r i) ?_ rfl,
    fun u => ⟨words (.dlIdelay u i) ?_ rfl, words (.dlFdelay u i) ?_ rfl⟩,
    fun p => ⟨words (.prmVal p i) ?_ rfl, words (.prmInc p i) ?_ rfl⟩,
    fun k => ⟨words (.lp1A k i) ?_ rfl, words (.lp1S k i) ?_ rfl⟩,
    fun k => ⟨words (.dcbR k i) ?_ rfl, words (.dcbX1 k i) ?_ rfl, words (.dcbY1 k i) ?_ rfl⟩,
    fun u => ⟨words (.apArr u 0 i) ?_ rfl, words (.apArr u 1 i) ?_ rfl, words (.apArr u 2 i) ?_ rfl⟩,
    ⟨words (.eqArr 0 i) ?_ rfl, words (.eqArr 1 i) ?_ rfl, words (.eqArr 2 i) ?_ rfl, words (.eqArr 3 i) ?_ rfl,
      words (.eqArr 4 i) ?_ rfl, words (.eqArr 5 i) ?_ rfl⟩,
    fun b j => ⟨words (.sosArr b j 0 i) ?_ rfl, words (.sosArr b j 1 i) ?_ rfl, words (.sosArr b j 2 i) ?_ rfl,
      words (.sosArr b j 3 i) ?_ rfl, words (.sosArr b j 4 i) ?_ rfl, words (.sosArr b j 5 i) ?_ rfl,
      words (.sosArr b j 6 i) ?_ rfl⟩⟩
  all_goals
    simp only [CfgWord.addr, Config.ndl, Config.nprm, Config.nlp, Config.ndc, Config.nap, Config.nsecmax, Config.nbank]
    omega

/-- Settles O10: a word found at an address stands there by the table, a word that exists is found at its address, and
so CfgRead at each address of the table gives the state of the word there. -/
theorem cfgMapAgreesWithTheTable : Obligations.CfgMapAgreesWithTheTable := by
  refine ⟨fun p a wd => ⟨names_cfgWord p a wd, fun ⟨hp, ha⟩ => cfgWord_of_addr hp ha.symm⟩, fun s => ?_⟩
  exact ⟨mapsScalars s, mapsTaps s, mapsRegisters s, fun i => mapsLane s⟩

end Sys2Proof.Machine

/-! SUPPORT. What a CFG word reads after a legalised value was stored: limited and narrow fields, and the halves of a
phase (10_state.md R30 to R38). -/

namespace Sys2Proof.Machine

theorem setWidth_six (v : Word) : (v.setWidth 6).setWidth 32 = v &&& 63#32 := by
  apply BitVec.eq_of_toNat_eq
  have hmask : v.toNat &&& 63 = v.toNat % 64 := Nat.and_two_pow_sub_one_eq_mod v.toNat 6
  have hlt : v.toNat % 64 < 2 ^ 32 := by omega
  simpa [hmask] using hlt

/-- A written word limited to n - 1, read back as a word (log entry 15). -/
theorem clampTo_word (n : Nat) [NeZero n] (hn : n ≤ 2 ^ 32) (v : Word) :
    BitVec.ofNat 32 (clampTo n v).val = if BitVec.ofNat 32 (n - 1) < v then BitVec.ofNat 32 (n - 1) else v := by
  have hlast : n - 1 < 2 ^ 32 := by omega
  simp only [clampTo_val, BitVec.lt_def, BitVec.toNat_ofNat, Nat.mod_eq_of_lt hlast]
  split
  · rw [min_eq_right (by omega)]
  · rw [min_eq_left (by omega), BitVec.ofNat_toNat, BitVec.setWidth_eq]

/-- The low half of a sign extension is the word, the high half its sign (R31). -/
theorem getHalf_signExtend (v : Word) (hi : Bool) :
    getHalf (v.signExtend 64) hi = if hi then (if v.msb then 0xFFFFFFFF#32 else 0#32) else v := by
  have hparts : v.signExtend 64 = (if v.msb then 0xFFFFFFFF#32 else 0#32) ++ v :=
    BitVec.signExtend_eq_append_of_le (by decide : 32 ≤ 64)
  rw [hparts]
  cases hi
  · simp [-Nat.reduceAdd, getHalf, BitVec.extractLsb'_append_eq_of_add_le]
  · simp [-Nat.reduceAdd, getHalf, BitVec.extractLsb'_append_eq_of_le]

/-- A part of every entry is as before when one entry is replaced by one with the same part. -/
theorem apply_getElem_set {α β : Type} {n : Nat} (f : α → β) {v : Vector α n} {i : Fin n} {a : α} (h : f a = f v[i])
    (j : Fin n) : f (v.set i a)[j] = f v[j] := by
  by_cases hij : i = j
  · subst hij
    simpa using h
  · simp [Fin.val_inj, hij]

theorem Tap.hist_congr {p r : Tap} (hm : p.ym1 = r.ym1) (h0 : p.y0 = r.y0) (h1 : p.y1 = r.y1) (h2 : p.y2 = r.y2)
    (ha : p.aas = r.aas) (q : Fin 5) : p.hist q = r.hist q := by
  fin_cases q <;> assumption

theorem Cascade.arr_congr {c d : Cascade} (h1 : c.a1 = d.a1) (h2 : c.a2 = d.a2) (hk : c.ik = d.ik) (q : Fin 3) :
    c.arr q = d.arr q := by
  fin_cases q <;> assumption

theorem EqUnit.arr_withEqid (c : EqUnit) (id : Word) (q : Fin 6) : { c with eqid := id }.arr q = c.arr q := by
  fin_cases q <;> rfl

/-- The history reads as before when a tap is replaced by one with the same history. -/
theorem word_tapHist_setTap (s : State) {t : Fin 2} {p : Tap} (u c : Fin 2) {q : Fin 5}
    (h : p.hist q = s.tape.taps[t].hist q) : (s.setTap t p).word (.tapHist u c q) = s.word (.tapHist u c q) :=
  apply_getElem_set (fun r : Tap => (r.hist q)[c]) (congrArg (·[c]) h) u

/-- An array of a cascade reads as before when a cascade is replaced by one with the same array. -/
theorem word_apArr_withAp (s : State) {u : Fin Config.nap} {c : Cascade} (w : Fin Config.nap) {q : Fin 3} (i : Lane)
    (h : c.arr q = s.ap[u].arr q) : State.word { s with ap := s.ap.set u c } (.apArr w q i) = s.word (.apArr w q i) :=
  apply_getElem_set (fun r : Cascade => (r.arr q)[i]) (congrArg (·[i]) h) w

end Sys2Proof.Machine

/-! PROOFS. CFG writes: an RW word reads what was written after its row's legalisation, and what else a write may change
(20_memory.md R73). -/

namespace Sys2Proof.Machine

theorem writable_eq_false_iff (wd : CfgWord) : wd.writable = false ↔ wd.IsReadOnly := by
  cases wd <;> simp [CfgWord.writable, CfgWord.IsReadOnly]

theorem word_storeWord_self (s : State) {wd : CfgWord} (v : Word) (hw : wd.writable = true) :
    (s.storeWord wd v).word wd = s.legalised wd v := by
  cases wd with
  | hwid | hwcfg | status | faultinfo | tmode | cur | fcnt => cases hw
  | tapPbs | tapPrevn | tapPrevf | tapHist | dlLogsize => cases hw
  | decm | deccnt | aacoef | fastth => rfl
  -- the words with a narrow field, a limit or a sign
  | tctl => exact bufOfWord_word v
  | spdsh => exact setWidth_six v
  | apNstage u => simpa [State.word, State.storeWord, State.legalised] using clampTo_word 129 (by decide) v
  | sosNsect b => simpa [State.word, State.storeWord, State.legalised] using clampTo_word 6 (by decide) v
  | ph k hi =>
    cases hi with
    | true => rfl
    | false => simp [State.word, State.storeWord, State.legalised, getHalf_signExtend]
  -- an entry of an array, a half of a pair or a field of a tap, read after it was written
  | tspeed | speed | xwrite | nw | tapNread | tapDir | tapBuf | tapFrac | tapXread | tapXrevstop =>
    simp [State.word, State.storeWord, State.legalised]
  | lcgState | lcgSeed | lreg | xreg | prmVal | prmInc | lp1A | lp1S | dcbR | dcbX1 | dcbY1 =>
    simp [State.word, State.storeWord, State.legalised]
  | dlId | dlSaved | dlIdelay | dlFdelay | apApid | apArr | eqEqid | eqArr | sosArr =>
    simp [State.word, State.storeWord, State.legalised]

/-- Settles O12: the RO words by their names, and each RW word read back. -/
theorem cfgWriteReadsBack : Obligations.CfgWriteReadsBack :=
  ⟨writable_eq_false_iff, fun s _ v hw => word_storeWord_self s v hw⟩

/-- A word of another unit reads state that the write does not touch (`rfl`); a word of the same unit reads another
field or another entry of it. -/
theorem word_storeWord_of_ne (s : State) {wd other : CfgWord} (v : Word) (hne : other ≠ wd)
    (hs : wd.mayAlsoChange other = false) : (s.storeWord wd v).word other = s.word other := by
  cases wd with
  | hwid | hwcfg | status | faultinfo | tmode | cur | fcnt => rfl
  | tapPbs | tapPrevn | tapPrevf | tapHist | dlLogsize => rfl
  | decm | deccnt =>
    cases other with
    | decm | deccnt => grind [State.word, State.storeWord, CfgWord.mayAlsoChange]
    | _ => rfl
  | tctl | spdsh | aacoef | fastth =>
    cases other with
    | tctl | spdsh | aacoef | fastth => grind [State.word, State.storeWord]
    | _ => rfl
  | tspeed | speed | xwrite =>
    cases other with
    | tspeed | speed | xwrite => grind [State.word, State.storeWord, getHalf_setHalf]
    | _ => rfl
  | nw =>
    cases other with
    | nw => grind [State.word, State.storeWord]
    | _ => rfl
  | tapNread | tapDir | tapBuf | tapFrac | tapXread | tapXrevstop =>
    cases other with
    | tapHist u c q => exact word_tapHist_setTap s u c (Tap.hist_congr rfl rfl rfl rfl rfl q)
    | tapNread | tapDir | tapBuf | tapFrac | tapXread | tapXrevstop | tapPbs | tapPrevn | tapPrevf =>
      grind [State.word, State.storeWord, setTap_tape, getHalf_setHalf]
    | _ => rfl
  | ph k hi =>
    cases hi with
    | true => rfl
    | false =>
      cases other with
      | ph k' hi' =>
        have hk : k ≠ k' := by
          rintro rfl
          cases hi' with
          | false => exact hne rfl
          | true => simp [CfgWord.mayAlsoChange] at hs
        simp [State.word, State.storeWord, Fin.val_inj, hk]
      | _ => rfl
  | lcgState | lcgSeed =>
    cases other with
    | lcgState | lcgSeed => grind [State.word, State.storeWord]
    | _ => rfl
  | lreg =>
    cases other with
    | lreg => grind [State.word, State.storeWord, setL_l]
    | _ => rfl
  | xreg =>
    cases other with
    | xreg => grind [State.word, State.storeWord, setX_x, getHalf_setHalf]
    | _ => rfl
  | dlId | dlSaved | dlIdelay | dlFdelay =>
    cases other with
    | dlId | dlSaved | dlIdelay | dlFdelay => grind [State.word, State.storeWord]
    | _ => rfl
  | prmVal | prmInc =>
    cases other with
    | prmVal | prmInc => grind [State.word, State.storeWord]
    | _ => rfl
  | lp1A | lp1S =>
    cases other with
    | lp1A | lp1S => grind [State.word, State.storeWord]
    | _ => rfl
  | dcbR | dcbX1 | dcbY1 =>
    cases other with
    | dcbR | dcbX1 | dcbY1 => grind [State.word, State.storeWord]
    | _ => rfl
  | apNstage | apApid =>
    cases other with
    | apArr u q i => exact word_apArr_withAp s u i (Cascade.arr_congr rfl rfl rfl q)
    | apNstage | apApid => grind [State.word, State.storeWord]
    | _ => rfl
  | apArr =>
    cases other with
    | apNstage | apApid | apArr =>
      grind [State.word, State.storeWord, Cascade.arr_setArr, Cascade.setArr_apid, Cascade.setArr_nstage]
    | _ => rfl
  | eqEqid =>
    cases other with
    | eqEqid => exact absurd rfl hne
    | eqArr q i => exact congrArg (·[i]) (EqUnit.arr_withEqid s.eq _ q)
    | _ => rfl
  | eqArr =>
    cases other with
    | eqEqid | eqArr => grind [State.word, State.storeWord, EqUnit.arr_setArr, EqUnit.setArr_eqid]
    | _ => rfl
  | sosArr | sosNsect =>
    cases other with
    | sosArr | sosNsect => grind [State.word, State.storeWord, SosSection.arr_setArr]
    | _ => rfl

theorem samePrivate_refl (s : State) : SamePrivate s s :=
  ⟨fun _ => rfl, fun _ => rfl, rfl, fun _ => ⟨rfl, rfl⟩, rfl, rfl, rfl, rfl, rfl⟩

/-- No CFG word stands for a memory of R71, a parameter or the host's side. -/
theorem samePrivate_storeWord (s : State) (wd : CfgWord) (v : Word) : SamePrivate s (s.storeWord wd v) := by
  have hs := samePrivate_refl s
  have ⟨hdl, hap, heq, hbufs, hrest⟩ := hs
  cases wd with
  | hwid | hwcfg | status | faultinfo | tmode | cur | fcnt => exact hs
  | tapPbs | tapPrevn | tapPrevf | tapHist | dlLogsize => exact hs
  | decm | deccnt | tctl | spdsh | aacoef | fastth | tspeed | speed | xwrite => exact hs
  | tapNread | tapDir | tapBuf | tapFrac | tapXread | tapXrevstop => exact hs
  | lcgState | lcgSeed | lreg | xreg | prmVal | prmInc | lp1A | lp1S | dcbR | dcbX1 | dcbY1 => exact hs
  | sosArr | sosNsect | eqEqid => exact hs
  | ph k hi => cases hi <;> exact hs
  | nw b =>
    refine ⟨hdl, hap, heq, fun j => ⟨apply_getElem_set TapeBuf.tv ?_ j, apply_getElem_set TapeBuf.ts ?_ j⟩, hrest⟩ <;>
      rfl
  | dlId | dlSaved | dlIdelay | dlFdelay => exact ⟨apply_getElem_set DelayLine.buf rfl, hap, heq, hbufs, hrest⟩
  | apNstage | apApid => exact ⟨hdl, apply_getElem_set Cascade.stages rfl, heq, hbufs, hrest⟩
  | apArr u q i => exact ⟨hdl, apply_getElem_set Cascade.stages (Cascade.setArr_stages _ q _), heq, hbufs, hrest⟩
  | eqArr q i => exact ⟨hdl, hap, EqUnit.setArr_eqm s.eq q _, hbufs, hrest⟩

/-- Settles O13: another word reads as before, but for DECCNT after DECM and the high word of a phase register, and
no memory of R71 is reached. -/
theorem cfgWriteChangesOneWord : Obligations.CfgWriteChangesOneWord := by
  intro s wd other v hne
  refine ⟨word_storeWord_of_ne s v hne, ?_, ?_, samePrivate_storeWord s wd v⟩
  · rintro rfl -
    rfl
  · rintro k rfl rfl
    simp [State.word, State.storeWord, getHalf_signExtend]

end Sys2Proof.Machine

/-! PROOFS. The decoder and the encoder are inverse to each other, and the decoder's checks are those of the table R96
(30_encoding.md R90 to R98). -/

namespace Sys2Proof

/-! A word is its fields. -/

/-- The five fields of format R are all of the word (R90, R91). -/
theorem packR_fields (w : Word) : packR (fieldOp w) (fieldA w) (fieldB w) (fieldC w) (fieldImm12 w) = w := by
  have hw := w.isLt
  apply BitVec.eq_of_toNat_eq
  simp only [packR_toNat, fieldOp, fieldA, fieldB, fieldC, fieldImm12, BitVec.extractLsb'_toNat,
    Nat.shiftRight_eq_div_pow]
  omega

/-- Format I is format R with imm16 over the fields c and imm12 (R92). -/
theorem packI_fieldImm16 (op : BitVec 8) (a : BitVec 4) (w : Word) :
    packI op a (fieldImm16 w) = packR op a 0#4 (fieldC w) (fieldImm12 w) := by
  apply BitVec.eq_of_toNat_eq
  simp only [packR_toNat, packI_toNat, fieldC, fieldImm12, fieldImm16, BitVec.extractLsb'_toNat,
    Nat.shiftRight_eq_div_pow, BitVec.toNat_ofNat]
  omega

/-! What a row admits in a word: all its checks together, field by field. -/

/-- The checks of R98 on a four-bit field. -/
def FieldKind.Admits (k : FieldKind) (f : BitVec 4) : Prop := k.zeroOk f = true ∧ k.lregOk f = true

/-- The checks of R98 on imm12. -/
def ImmKind.Admits (k : ImmKind) (f : BitVec 12) : Prop := k.zeroOk f = true ∧ k.indexOk f = true

/-- The word passes every check of the row. -/
def Row.Admits (r : Row) (w : Word) : Prop :=
  r.a.Admits (fieldA w) ∧ r.b.Admits (fieldB w) ∧ r.c.Admits (fieldC w) ∧ r.imm.Admits (fieldImm12 w)

@[simp] theorem FieldKind.zero_admits_zero : FieldKind.zero.Admits 0#4 := ⟨rfl, rfl⟩

@[simp] theorem FieldKind.any_admits (f : BitVec 4) : FieldKind.any.Admits f := ⟨rfl, rfl⟩

@[simp] theorem FieldKind.l_admits_ofL (r : LReg) : FieldKind.l.Admits (ofL r) := ⟨rfl, by simp [lregOk]⟩

@[simp] theorem ImmKind.zero_admits_zero : ImmKind.zero.Admits 0#12 := ⟨rfl, rfl⟩

@[simp] theorem ImmKind.any_admits (f : BitVec 12) : ImmKind.any.Admits f := ⟨rfl, rfl⟩

@[simp] theorem ImmKind.shift_admits_ofShift (sh : BitVec 6) : ImmKind.shift.Admits (ofShift sh) :=
  ⟨by simp [zeroOk], rfl⟩

theorem ImmKind.below_admits_iff (bound : Nat) (f : BitVec 12) :
    (ImmKind.below bound).Admits f ↔ f.toNat < bound := by
  simp [Admits, zeroOk, indexOk]

@[simp] theorem ImmKind.below_admits_ofIdx {m : Nat} (k : Fin m) (hm : m ≤ 4096) :
    (ImmKind.below m).Admits (ofIdx k) := by
  simp [below_admits_iff, hm]

@[simp] theorem ImmKind.below_admits_code (m : Mode) : (ImmKind.below 3).Admits m.code := by
  simp [below_admits_iff]

/-- The decoder accepts a word just if the row of its opcode does, and answers the row's command. -/
theorem decode_eq_ok_iff {n : Nat} {w : Word} {i : Instr} :
    decode n w = .ok i ↔ ∃ r, rowOf n (fieldOp w) = some r ∧ r.Admits w ∧ r.build w = i := by
  cases hr : rowOf n (fieldOp w) with
  | none => simp [decode, hr]
  | some r =>
    simp only [decode, hr, Row.Admits, FieldKind.Admits, ImmKind.Admits, Row.zeroOk, Row.lregOk]
    grind

/-! Decoding an encoded command. -/

theorem decode_packR {n : Nat} {op : BitVec 8} {a b c : BitVec 4} {imm : BitVec 12} {r : Row} {i : Instr}
    (hr : rowOf n op = some r) (ha : r.a.Admits a) (hb : r.b.Admits b) (hc : r.c.Admits c) (hi : r.imm.Admits imm)
    (he : r.build (packR op a b c imm) = i) : decode n (packR op a b c imm) = .ok i :=
  decode_eq_ok_iff.mpr ⟨r, by simpa using hr, by simpa [Row.Admits] using ⟨ha, hb, hc, hi⟩, he⟩

/-- A row of format I: the fields under imm16 take every value. -/
theorem decode_packI {n : Nat} {op : BitVec 8} {a : BitVec 4} {imm : BitVec 16} {k : FieldKind} {i : Instr}
    {build : Word → Instr} (hr : rowOf n op = some ⟨k, .zero, .any, .any, build⟩) (ha : k.Admits a)
    (he : build (packI op a imm) = i) : decode n (packI op a imm) = .ok i :=
  decode_eq_ok_iff.mpr ⟨_, by simpa using hr, by simpa [Row.Admits] using ha, he⟩

/-- Every check of the row is met by the operands' own types, but for the lane of LINS and LEXT: there it is `wf`. -/
theorem decode_encode {n : Nat} {i : Instr} (h : i.wf n = true) : decode n (encode i) = .ok i := by
  cases i with
  | lins _ _ k | lext _ _ k =>
    have hk : k.val < n := of_decide_eq_true h
    exact decode_packR rfl (by simp) (by simp) (by simp) (by simp [ImmKind.below_admits_iff, hk]) (by simp)
  | xli | xsli | lli => exact decode_packI rfl (by simp) (by simp)
  | _ => exact decode_packR rfl (by simp) (by simp) (by simp) (by simp (disch := decide)) (by simp (disch := decide))

/-! Encoding a decoded command. -/

/-- The field a command of the row keeps of a four-bit field. -/
def FieldKind.kept : FieldKind → BitVec 4 → BitVec 4
  | .zero, _ => 0#4
  | .l, f => ofL (toL f)
  | .any, f => f

/-- The field a command of the row keeps of imm12. -/
def ImmKind.kept : ImmKind → BitVec 12 → BitVec 12
  | .zero, _ => 0#12
  | .shift, f => ofShift (f.setWidth 6)
  | .any, f => f
  | .below bound, f => BitVec.ofNat 12 (f.toNat % bound)

theorem FieldKind.kept_of_admits {k : FieldKind} {f : BitVec 4} (h : k.Admits f) : k.kept f = f := by
  obtain ⟨hz, hl⟩ := h
  cases k with
  | zero => exact (eq_of_beq hz).symm
  | any => rfl
  | l =>
    have hf : f.toNat < 8 := of_decide_eq_true hl
    apply BitVec.eq_of_toNat_eq
    simp only [kept, ofL, toL, BitVec.toNat_ofNat, BitVec.toFin_setWidth, Fin.val_ofNat]
    omega

theorem ImmKind.kept_of_admits {k : ImmKind} {f : BitVec 12} (h : k.Admits f) : k.kept f = f := by
  obtain ⟨hz, hi⟩ := h
  cases k with
  | zero => exact (eq_of_beq hz).symm
  | any => rfl
  | shift =>
    have hf : f.toNat < 64 := of_decide_eq_true hz
    apply BitVec.eq_of_toNat_eq
    simp only [kept, ofShift, BitVec.toNat_setWidth]
    omega
  | below bound =>
    have hf : f.toNat < bound := of_decide_eq_true hi
    simp [kept, Nat.mod_eq_of_lt hf]

theorem code_toMode {f : BitVec 12} (h : f.toNat < 3) : (toMode f).code = f := by
  have hf : f = 0 ∨ f = 1 ∨ f = 2 := by bv_omega
  rcases hf with rfl | rfl | rfl <;> rfl

theorem ofIdx_toIdx {m : Nat} [NeZero m] {f : BitVec 12} (h : f.toNat < m) : ofIdx (toIdx m f) = f := by
  simp [ofIdx, toIdx, Nat.mod_eq_of_lt h]

theorem ofShift_fieldShift (w : Word) : ofShift (fieldShift w) = ImmKind.shift.kept (fieldImm12 w) := by
  apply BitVec.eq_of_toNat_eq
  simp only [ImmKind.kept, ofShift, fieldShift, fieldImm12, BitVec.toNat_setWidth, BitVec.extractLsb'_toNat]
  omega

/-- The command a row builds has the row's opcode. -/
theorem fieldOp_encode_build {n : Nat} {op : BitVec 8} {r : Row} (hr : rowOf n op = some r) (w : Word) :
    fieldOp (encode (r.build w)) = op := by
  have hop : BitVec.ofNat 8 op.toNat = op := by simp
  rw [← hop]
  unfold rowOf at hr
  generalize op.toNat = k at hr ⊢
  split at hr
  case h_50 => cases hr -- no row
  case h_5 | h_6 | h_16 => cases hr; exact fieldOp_packI _ _ _ -- XLI, XSLI, LLI
  all_goals cases hr; exact fieldOp_packR _ _ _ _ _

/-- Encoding a row's command puts back the fields the command keeps. -/
theorem encode_build {n : Nat} {op : BitVec 8} {r : Row} (hn : n ≤ 8) (hr : rowOf n op = some r) (w : Word)
    (hi : r.imm.Admits (fieldImm12 w)) :
    encode (r.build w) = packR op (r.a.kept (fieldA w)) (r.b.kept (fieldB w)) (r.c.kept (fieldC w))
      (r.imm.kept (fieldImm12 w)) := by
  have hop : BitVec.ofNat 8 op.toNat = op := by simp
  rw [← hop]
  unfold rowOf at hr
  generalize op.toNat = k at hr ⊢
  split at hr
  case h_50 => cases hr -- no row
  case h_5 | h_6 | h_16 => cases hr; exact packI_fieldImm16 _ _ _ -- XLI, XSLI, LLI
  case h_10 | h_11 | h_22 => -- XSRAI, XSLLI, LXCVT
    cases hr
    exact congrArg (packR _ _ _ _) (ofShift_fieldShift w)
  case h_23 | h_24 => -- LINS, LEXT
    cases hr
    have hk : (fieldImm12 w).toNat < 8 := lt_of_lt_of_le ((ImmKind.below_admits_iff _ _).mp hi) hn
    rw [ImmKind.kept_of_admits hi]
    exact congrArg (packR _ _ _ _) (ofIdx_toIdx hk)
  case h_48 => -- TMODE
    cases hr
    rw [ImmKind.kept_of_admits hi]
    exact congrArg (packR _ _ _ _) (code_toMode ((ImmKind.below_admits_iff _ _).mp hi))
  all_goals cases hr; rfl

/-- Of an encoded command the decoder checks `wf`: LINS and LEXT carry their lane in the index field. -/
theorem wf_of_decode_encode {n : Nat} {i : Instr} (h : decode n (encode i) = .ok i) : i.wf n = true := by
  obtain ⟨r, hr, ⟨-, -, -, hi⟩, -⟩ := decode_eq_ok_iff.mp h
  cases i with
  | lins | lext =>
    simp only [encode, fieldOp_packR, fieldImm12_packR] at hr hi
    cases hr
    simpa [Instr.wf, ImmKind.below_admits_iff] using hi
  | _ => rfl

theorem encode_of_decode {n : Nat} {w : Word} {i : Instr} (hn : n ≤ 8) (h : decode n w = .ok i) : encode i = w := by
  obtain ⟨r, hr, ⟨ha, hb, hc, hi⟩, rfl⟩ := decode_eq_ok_iff.mp h
  rw [encode_build hn hr w hi, FieldKind.kept_of_admits ha, FieldKind.kept_of_admits hb, FieldKind.kept_of_admits hc,
    ImmKind.kept_of_admits hi, packR_fields]

/-- Settles O1: every encoded field passes its row's checks and reads back as its operand. -/
theorem decodeOfEncode : Obligations.DecodeOfEncode := fun _ _ => decode_encode

/-- Settles O2: a row that admits a word keeps all five fields of it; the word of a lane outside `n` does not decode. -/
theorem encodeOfDecode : Obligations.EncodeOfDecode := by
  intro n w i hn h
  have hw : encode i = w := encode_of_decode hn h
  subst hw
  exact ⟨rfl, wf_of_decode_encode h⟩

theorem decode_and_encode {n : Nat} {i : Instr} {w : Word} (h : i.wf n = true) (he : encode i = w) :
    decode n w = .ok i ∧ encode i = w := ⟨he ▸ decode_encode h, he⟩

/-- Settles O3: each word is its command's, so it decodes by O1. -/
theorem workedEncodings : Obligations.WorkedEncodings :=
  ⟨decode_and_encode rfl rfl, decode_and_encode rfl rfl, decode_and_encode rfl rfl, decode_and_encode rfl rfl,
    decode_and_encode rfl rfl, decode_and_encode rfl rfl, decode_and_encode rfl rfl, decode_and_encode rfl rfl,
    decode_and_encode rfl rfl, decode_and_encode rfl rfl, decode_and_encode rfl rfl⟩

end Sys2Proof

/-! PROOFS. The checks of the table R96, as masks of the whole word, are the decoder's checks. -/

namespace Sys2Proof

/-- The bits of a four-bit field that its kind requires to be zero. -/
def FieldKind.zeroMask : FieldKind → BitVec 4
  | .zero => 0xF#4
  | .l | .any => 0#4

/-- The top bit of a field of kind L. -/
def FieldKind.lregMask : FieldKind → BitVec 4
  | .l => 8#4
  | .zero | .any => 0#4

/-- The bits of imm12 that its kind requires to be zero. -/
def ImmKind.zeroMask : ImmKind → BitVec 12
  | .zero => 0xFFF#12
  | .shift => 0xFC0#12
  | .any | .below _ => 0#12

/-- The bound of an index. -/
def ImmKind.bound : ImmKind → Option Nat
  | .below b => some b
  | .zero | .shift | .any => none

/-- The bits of a word that the row requires to be zero. -/
def Row.zeroMask (r : Row) : Word := packR 0 r.a.zeroMask r.b.zeroMask r.c.zeroMask r.imm.zeroMask

/-- The top bits of the row's L fields. -/
def Row.lregMask (r : Row) : Word := packR 0 r.a.lregMask r.b.lregMask r.c.lregMask 0

theorem FieldKind.and_zeroMask_eq_zero (k : FieldKind) (f : BitVec 4) :
    f &&& k.zeroMask = 0#4 ↔ k.zeroOk f = true := by
  cases k with
  | zero =>
    have hmask : f &&& 0xF#4 = f := BitVec.and_allOnes
    simp [zeroMask, zeroOk, hmask]
  | l | any => simp [zeroMask, zeroOk]

theorem FieldKind.and_lregMask_eq_zero (k : FieldKind) (f : BitVec 4) :
    f &&& k.lregMask = 0#4 ↔ k.lregOk f = true := by
  cases k with
  | l => revert f; decide
  | zero | any => simp [lregMask, lregOk]

theorem ImmKind.and_zeroMask_eq_zero (k : ImmKind) (f : BitVec 12) :
    f &&& k.zeroMask = 0#12 ↔ k.zeroOk f = true := by
  cases k with
  | zero =>
    have hmask : f &&& 0xFFF#12 = f := BitVec.and_allOnes
    simp [zeroMask, zeroOk, hmask]
  | any | below => simp [zeroMask, zeroOk]
  | shift =>
    have hmask : f &&& 0xFC0#12 = f >>> 6 <<< 6 := (BitVec.shiftLeft_ushiftRight (x := f) (n := 6)).symm
    have hf := f.isLt
    simp only [zeroMask, zeroOk, hmask, ← BitVec.toNat_inj, BitVec.toNat_shiftLeft, BitVec.toNat_ushiftRight,
      Nat.shiftLeft_eq, Nat.shiftRight_eq_div_pow, BitVec.toNat_ofNat, decide_eq_true_eq]
    omega

theorem packR_and (op op' : BitVec 8) (a a' b b' c c' : BitVec 4) (imm imm' : BitVec 12) :
    packR op a b c imm &&& packR op' a' b' c' imm'
      = packR (op &&& op') (a &&& a') (b &&& b') (c &&& c') (imm &&& imm') := by
  change ((op ++ a ++ b ++ c ++ imm : BitVec (8 + 4 + 4 + 4 + 12)) &&& (op' ++ a' ++ b' ++ c' ++ imm')) = _
  simp only [BitVec.and_append]
  rfl

theorem packR_eq_zero_iff (a b c : BitVec 4) (imm : BitVec 12) :
    packR 0#8 a b c imm = 0#32 ↔ a = 0#4 ∧ b = 0#4 ∧ c = 0#4 ∧ imm = 0#12 := by
  simp only [← BitVec.toNat_inj, packR_toNat, BitVec.toNat_ofNat]
  omega

theorem Row.and_zeroMask_eq_zero (r : Row) (w : Word) : w &&& r.zeroMask = 0#32 ↔ r.zeroOk w = true := by
  conv_lhs => rw [← packR_fields w]
  simp [zeroMask, packR_and, packR_eq_zero_iff, FieldKind.and_zeroMask_eq_zero, ImmKind.and_zeroMask_eq_zero, zeroOk,
    and_assoc]

theorem Row.and_lregMask_eq_zero (r : Row) (w : Word) : w &&& r.lregMask = 0#32 ↔ r.lregOk w = true := by
  conv_lhs => rw [← packR_fields w]
  simp [lregMask, packR_and, packR_eq_zero_iff, FieldKind.and_lregMask_eq_zero, lregOk, and_assoc]

theorem ImmKind.bound_any_le (k : ImmKind) (f : BitVec 12) :
    k.bound.any (fun b => decide (b ≤ f.toNat)) = !k.indexOk f := by
  cases k with
  | below b => simp [bound, indexOk, ← decide_not]
  | zero | shift | any => rfl

end Sys2Proof

namespace Sys2Proof.Machine

/-- The table's row states what the decoder's row of its opcode requires. -/
structure TableRow.Describes (n : Nat) (t : TableRow) (r : Row) : Prop where
  row  : rowOf n (BitVec.ofNat 8 t.op) = some r
  zero : t.zeroMask = r.zeroMask
  lreg : t.lregMask = r.lregMask
  bound : t.bound = r.imm.bound

/-- A row whose index is a lane: its masks do not depend on the number of lanes. -/
theorem TableRow.describes_laneRow {n op : Nat} {zeroMask lregMask : Word} {init : Bool} {a b c : FieldKind}
    {build : Word → Instr} (hr : rowOf n (BitVec.ofNat 8 op) = some ⟨a, b, c, .below n, build⟩)
    (hzero : zeroMask = packR 0 a.zeroMask b.zeroMask c.zeroMask 0)
    (hlreg : lregMask = packR 0 a.lregMask b.lregMask c.lregMask 0) :
    TableRow.Describes n ⟨op, zeroMask, lregMask, some n, init⟩ ⟨a, b, c, .below n, build⟩ :=
  ⟨hr, hzero, hlreg, rfl⟩

theorem exists_row_of_mem_opcodeTable {n : Nat} : ∀ t ∈ opcodeTable n, ∃ r, t.Describes n r := by
  simp only [opcodeTable, tableX, tableL, tableF, tableT, List.forall_mem_append, List.forall_mem_cons,
    List.not_mem_nil, IsEmpty.forall_iff, implies_true, and_true]
  and_intros
  -- rows 23 and 24, LINS and LEXT, have their bound from the number of lanes
  on_goal 24 => exact ⟨_, TableRow.describes_laneRow rfl rfl rfl⟩
  on_goal 23 => exact ⟨_, TableRow.describes_laneRow rfl rfl rfl⟩
  all_goals exact ⟨_, rfl, rfl, rfl, rfl⟩

theorem mem_opcodeTable_of_rowOf {n : Nat} {op : BitVec 8} {r : Row} (hr : rowOf n op = some r) :
    ∃ t ∈ opcodeTable n, t.op = op.toNat := by
  -- the opcodes are the same for every number of lanes
  suffices h : op.toNat ∈ (opcodeTable 0).map TableRow.op from List.mem_map.mp h
  unfold rowOf at hr
  generalize op.toNat = k at hr ⊢
  split at hr
  case h_50 => cases hr -- no row
  all_goals decide

/-- Settles O4: the table's masks and bounds are the checks of the decoder's row, in the same order. -/
theorem decoderChecksInOrder : Obligations.DecoderChecksInOrder := by
  refine ⟨⟨rfl, rfl, rfl, rfl⟩, fun n w => ⟨fun hop => ?_, fun t ht hop => ?_⟩⟩
  · cases hr : rowOf n (fieldOp w) with
    | none => simp [decode, hr]
    | some r =>
      obtain ⟨t, ht, htop⟩ := mem_opcodeTable_of_rowOf hr
      exact absurd htop (hop t ht)
  · obtain ⟨r, hr, hzero, hlreg, hbound⟩ := exists_row_of_mem_opcodeTable t ht
    have hrow : rowOf n (fieldOp w) = some r := by simpa [hop] using hr
    have hword : fieldOp (encode (r.build w)) = fieldOp w := fieldOp_encode_build hrow w
    simp only [hzero, hlreg, hbound, ne_eq, Row.and_zeroMask_eq_zero, Row.and_lregMask_eq_zero, ImmKind.bound_any_le,
      decode, hrow]
    cases r.zeroOk w with
    | false => simp
    | true =>
      cases r.lregOk w with
      | false => simp
      | true => cases r.imm.indexOk (fieldImm12 w) <;> simp [hword]

end Sys2Proof.Machine

/-! SUPPORT. What a command answers that writes one X register, and one that needs INIT. -/

namespace Sys2Proof.Machine

theorem answersX_of_exec {i : Instr} {s : State} {rd : XReg} {v : XWord} (h : exec i s = .next (s.setX rd v)) :
    AnswersX i s rd v :=
  ⟨s.setX rd v, h, setX_x_self s rd v, setX_only s rd v⟩

theorem needsInit_of_exec {i : Instr} {s t : State} (h : exec i s = s.whenInit i t) : NeedsInit i s := by
  intro hi
  rw [TakesFault, h, whenInit_of_not s t i hi]
  rfl

end Sys2Proof.Machine

/-! PROOFS. The scalar integer commands and the comparison of wrapping times (41_timebase.md R112, R114 to R121). -/

namespace Sys2Proof.Machine

/-- Settles O23: each command is one write of X[rd]. -/
theorem scalarMoves : Obligations.ScalarMoves := fun _ _ _ _ =>
  ⟨answersX_of_exec rfl, answersX_of_exec rfl, answersX_of_exec rfl⟩

/-- `sra` rounds toward minus infinity (R7, R119). -/
theorem toInt_sra (v : XWord) (k : Nat) : (sra v k).toInt = v.toInt / 2 ^ k := by
  simp [sra, BitVec.toInt_sshiftRight, Int.shiftRight_eq_div_pow]

/-- `sll` loses the bits shifted out (R7, R120). -/
theorem toNat_sll (v : XWord) (k : Nat) : (sll v k).toNat = v.toNat * 2 ^ k % 2 ^ 64 := by
  simp [sll, Nat.shiftLeft_eq]

/-- Settles O24: the value each command writes, read as a number. -/
theorem scalarArithmetic : Obligations.ScalarArithmetic := by
  intro s rd ra rb sh
  refine ⟨⟨_, answersX_of_exec rfl, BitVec.toNat_add _ _⟩, ⟨_, answersX_of_exec rfl, ?_⟩,
    ⟨_, answersX_of_exec rfl, toInt_sra _ _⟩, ⟨_, answersX_of_exec rfl, toNat_sll _ _⟩⟩
  rw [BitVec.toNat_sub, Nat.add_comm]

/-- Negating `y` and adding is subtracting it. -/
theorem compare64_eq (x y : XWord) : compare64 x y = decide (0 < (x - y).toInt) := by
  have hneg : ~~~y + 1 = -y := (BitVec.neg_eq_not_add y).symm
  rw [compare64, hneg, ← BitVec.sub_eq_add_neg]

/-- Settles O25: the truth value written is that of the wrapped difference's sign. -/
theorem vcmpResult : Obligations.VcmpResult := by
  intro s rd ra rb
  have hexec : AnswersX (.vcmp rd ra rb) s rd (boolX (compare64 s.x[ra] s.x[rb])) := answersX_of_exec rfl
  simpa [compare64_eq, boolX] using hexec

/-- The 64-bit difference of two wrapped times is their true distance, when that is less than 2^63. -/
theorem toInt_ofInt_sub_ofInt {a b : Int} (h : |a - b| < 2 ^ 63) :
    (BitVec.ofInt 64 a - BitVec.ofInt 64 b).toInt = a - b := by
  obtain ⟨hlo, hhi⟩ := abs_lt.mp h
  rw [BitVec.toInt_sub, BitVec.toInt_ofInt, BitVec.toInt_ofInt, ← Int.sub_bmod]
  exact Int.bmod_eq_of_le (by omega) (by omega)

/-- Settles O26: all four clauses speak of the wrapped difference; 2^63 is the one that is its own negative. -/
theorem compareOrdersWrappingTimes : Obligations.CompareOrdersWrappingTimes := by
  refine ⟨fun x y => ?_, fun x => ?_, fun a b h => ?_, fun x y h => ?_⟩
  · rw [compare64_eq, decide_eq_true_iff]
  · rw [compare64_eq, BitVec.sub_self]
    rfl
  · rw [compare64_eq, decide_eq_true_iff, toInt_ofInt_sub_ofInt h, sub_pos]
  · have h' : y - x = 0x8000000000000000#64 := by
      rw [← neg_sub x y, h]
      rfl
    rw [compare64_eq, compare64_eq, h, h']
    exact ⟨rfl, rfl⟩

end Sys2Proof.Machine

/-! PROOFS. The phase wrap and the oscillators (41_timebase.md R113, R122 to R127). -/

namespace Sys2Proof.Machine

/-- Wrapping keeps a value's class modulo 4U. -/
theorem dvd_wrapPhase_sub (v : XWord) : (2 ^ 32 : Int) ∣ (wrapPhase v).toInt - v.toInt := by
  rw [wrapPhase, BitVec.toInt_signExtend_of_le (by decide), BitVec.toInt_setWidth, BitVec.toInt_eq_toNat_bmod,
    Int.bmod_eq_self_sub_mul_bdiv, Int.bmod_eq_self_sub_mul_bdiv]
  omega

/-- Settles O27: the range and the class modulo 4U. -/
theorem phaseWrap : Obligations.PhaseWrap := fun v =>
  ⟨(wrapPhase_range v).1, (wrapPhase_range v).2, dvd_wrapPhase_sub v⟩

/-! The waveforms at a phase (R123, R125, R127). -/

/-- At every phase in [-2U, 2U) the waveform lies in [-U, U]. -/
def WaveBounded (wave : Int → Int) : Prop :=
  ∀ p : Int, -2 ^ 31 ≤ p → p < 2 ^ 31 → -2 ^ 30 ≤ wave p ∧ wave p ≤ 2 ^ 30

/-- |p| (2U - |p|) is largest at |p| = U, where it is U^2. -/
theorem waveBounded_paraWave : WaveBounded paraWave := by
  intro p hlo hhi
  have hprod : |p * (2 ^ 31 - |p|)| ≤ 2 ^ 30 * 2 ^ 30 := by
    have habs : |p| ≤ 2 ^ 31 := abs_le.mpr ⟨hlo, hhi.le⟩
    rw [abs_mul, abs_of_nonneg (sub_nonneg.mpr habs)]
    nlinarith [sq_nonneg (|p| - 2 ^ 30)]
  obtain ⟨hl, hu⟩ := abs_le.mp hprod
  rw [paraWave, ← Int.abs_eq_natAbs]
  omega

theorem waveBounded_triWave : WaveBounded triWave := by
  intro p hlo hhi
  rw [triWave]
  split_ifs <;> omega

/-! The step of an oscillator, whatever its waveform (R122). -/

section
variable {s t : State} {i : Instr} {rd rs : XReg} {k : Fin Config.nosc} {wave : Int → Int}

theorem oscillate_ph_self : (s.oscillate rd rs k wave).ph[k] = wrapPhase (s.ph[k] + s.x[rs]) := by
  simp [State.oscillate]

/-- The value written is the waveform itself: it fits the register. -/
theorem toInt_oscillate_x_self (hw : WaveBounded wave) :
    (s.oscillate rd rs k wave).x[rd].toInt = wave (wrapPhase (s.ph[k] + s.x[rs])).toInt := by
  obtain ⟨hlo, hhi⟩ := wrapPhase_range (s.ph[k] + s.x[rs])
  obtain ⟨hl, hu⟩ := hw _ hlo hhi
  have hx : (s.oscillate rd rs k wave).x[rd] = BitVec.ofInt 64 (wave (wrapPhase (s.ph[k] + s.x[rs])).toInt) := by
    simp [State.oscillate]
  rw [hx]
  exact BitVec.toInt_ofInt_eq_self (by decide) (by omega) (by omega)

theorem oscillate_only : OnlyOscillator rd k s (s.oscillate rd rs k wave) :=
  ⟨rfl, fun r h => setX_x_ne s rd r _ h, fun j h => by simp [State.oscillate, Fin.val_inj, h.symm]⟩

/-- A command that oscillates, after INIT: the new phase, the waveform at it, and the frame. -/
theorem oscillator_answers (h : exec i s = s.whenInit i (s.oscillate rd rs k wave)) (hi : s.status.initd = true)
    (hw : WaveBounded wave) :
    ∃ t, exec i s = .next t ∧ t.ph[k] = wrapPhase (s.ph[k] + s.x[rs])
      ∧ t.x[rd].toInt = wave (wrapPhase (s.ph[k] + s.x[rs])).toInt ∧ OnlyOscillator rd k s t :=
  ⟨_, h.trans (whenInit_of_initd _ _ _ hi), oscillate_ph_self, toInt_oscillate_x_self hw, oscillate_only⟩

/-- What a command that oscillates has written lies in [-U, U]. -/
theorem oscillator_bound (h : exec i s = s.whenInit i (s.oscillate rd rs k wave)) (hi : s.status.initd = true)
    (hw : WaveBounded wave) (ht : exec i s = .next t) : -2 ^ 30 ≤ t.x[rd].toInt ∧ t.x[rd].toInt ≤ 2 ^ 30 := by
  rw [h, whenInit_of_initd _ _ _ hi] at ht
  cases ht
  rw [toInt_oscillate_x_self hw]
  exact hw _ (wrapPhase_range _).1 (wrapPhase_range _).2

end

theorem exec_plfo (rd rs : XReg) (k : Fin Config.nosc) (s : State) :
    exec (.plfo rd rs k) s = s.whenInit (.plfo rd rs k) (s.oscillate rd rs k paraWave) := rfl

theorem exec_tlfo (rd rs : XReg) (k : Fin Config.nosc) (s : State) :
    exec (.tlfo rd rs k) s = s.whenInit (.tlfo rd rs k) (s.oscillate rd rs k triWave) := rfl

/-- Settles O28: both commands are the oscillator's step with their waveform. -/
theorem oscillatorStep : Obligations.OscillatorStep := by
  intro s rd rs k
  refine ⟨needsInit_of_exec (exec_plfo rd rs k s), needsInit_of_exec (exec_tlfo rd rs k s), fun hi => ⟨?_, ?_⟩⟩
  · simpa only [paraWave, ← Int.abs_eq_natAbs] using oscillator_answers (exec_plfo rd rs k s) hi waveBounded_paraWave
  · exact oscillator_answers (exec_tlfo rd rs k s) hi waveBounded_triWave

/-- Settles O29: both waveforms lie in [-U, U] at every wrapped phase. -/
theorem oscillatorBound : Obligations.OscillatorBound := by
  rintro s t rd rs k hi (ht | ht)
  · exact oscillator_bound (exec_plfo rd rs k s) hi waveBounded_paraWave ht
  · exact oscillator_bound (exec_tlfo rd rs k s) hi waveBounded_triWave ht

end Sys2Proof.Machine

/-! SUPPORT. What SOS, LP1 and DCB leave in the machine, and the cascade of sections one section at a time
(42_sos_filters.md R141, R142, R146, R148). -/

namespace Sys2Proof.Machine

/-- After INIT the command's one answer is the state the check lets through. -/
theorem eq_of_exec_whenInit {i : Instr} {s t u : State} (h : exec i s = s.whenInit i u) (hi : s.status.initd = true)
    (ht : exec i s = .next t) : t = u := by
  rw [h, whenInit_of_initd s u i hi] at ht
  exact (Host.Outcome.next.inj ht).symm

/-- A bank or unit not named keeps its state. -/
theorem getElem_vector_set_ne {α : Type} {n : Nat} (v : Vector α n) (a : α) {i j : Fin n} (h : j ≠ i) :
    (v.set i a)[j] = v[j] :=
  Vector.getElem_set_ne _ _ (Fin.val_ne_of_ne h.symm)

/-- The state SOS leaves after INIT (R142). -/
def State.sosNext (s : State) (ld : LReg) (k : Fin Config.nbank) : State :=
  { s.setL ld (s.sosRun ld k).2 with sos := s.sos.set k { s.sos[k] with sec := (s.sosRun ld k).1 } }

/-- The state LP1 leaves after INIT (R146). -/
def State.lp1Next (s : State) (ld : LReg) (k : Fin Config.nlp) : State :=
  { s.mapL ld (s.lp1Out ld k) with
    lp1 := s.lp1.set k { s.lp1[k] with s := onLanes s.par.n s.lp1[k].s (s.lp1Out ld k) } }

/-- The state DCB leaves after INIT (R148). -/
def State.dcbNext (s : State) (ld : LReg) (k : Fin Config.ndc) : State :=
  { s.mapL ld (s.dcbOut ld k) with
    dcb := s.dcb.set k { s.dcb[k] with
      x1 := onLanes s.par.n s.dcb[k].x1 fun i => s.l[ld][i]
      y1 := onLanes s.par.n s.dcb[k].y1 (s.dcbOut ld k) } }

section
variable (s : State) (ld : LReg)

theorem exec_sos (k : Fin Config.nbank) : exec (.sos ld k) s = s.whenInit (.sos ld k) (s.sosNext ld k) := rfl

theorem exec_lp1 (k : Fin Config.nlp) : exec (.lp1 ld k) s = s.whenInit (.lp1 ld k) (s.lp1Next ld k) := rfl

theorem exec_dcb (k : Fin Config.ndc) : exec (.dcb ld k) s = s.whenInit (.dcb ld k) (s.dcbNext ld k) := rfl

theorem sosNext_l_self (k : Fin Config.nbank) : (s.sosNext ld k).l[ld] = (s.sosRun ld k).2 := setL_l_self s ld _

theorem sosNext_sos_self (k : Fin Config.nbank) :
    (s.sosNext ld k).sos[k] = { s.sos[k] with sec := (s.sosRun ld k).1 } := Vector.getElem_set_self _

theorem sosNext_nsect (k : Fin Config.nbank) : (s.sosNext ld k).sos[k].nsect = s.sos[k].nsect := by
  rw [sosNext_sos_self]

theorem lp1Next_lp1_self (k : Fin Config.nlp) :
    (s.lp1Next ld k).lp1[k] = { s.lp1[k] with s := onLanes s.par.n s.lp1[k].s (s.lp1Out ld k) } :=
  Vector.getElem_set_self _

theorem lp1Next_a (k : Fin Config.nlp) : (s.lp1Next ld k).lp1[k].a = s.lp1[k].a := by
  rw [lp1Next_lp1_self]

theorem lp1Next_l_self (k : Fin Config.nlp) : (s.lp1Next ld k).l[ld] = onLanes s.par.n s.l[ld] (s.lp1Out ld k) :=
  setL_l_self s ld _

theorem dcbNext_dcb_self (k : Fin Config.ndc) :
    (s.dcbNext ld k).dcb[k] = { s.dcb[k] with
      x1 := onLanes s.par.n s.dcb[k].x1 fun i => s.l[ld][i]
      y1 := onLanes s.par.n s.dcb[k].y1 (s.dcbOut ld k) } := Vector.getElem_set_self _

theorem dcbNext_r (k : Fin Config.ndc) : (s.dcbNext ld k).dcb[k].r = s.dcb[k].r := by
  rw [dcbNext_dcb_self]

theorem dcbNext_l_self (k : Fin Config.ndc) : (s.dcbNext ld k).l[ld] = onLanes s.par.n s.l[ld] (s.dcbOut ld k) :=
  setL_l_self s ld _

end

/-! The run of a bank: section j is stepped once, on what the sections before it give (R142). -/

section
variable (d : Nat → Lane → Nat → Draw) (n : Nat) (secs : Vector SosSection Config.nsecmax) (v : Lanes)

theorem secRun_succ_sections (k : Fin Config.nsecmax) :
    (secRun d n secs v (k.val + 1)).1
      = (secRun d n secs v k).1.set k (secStep (d k) n (secRun d n secs v k).1[k] (secRun d n secs v k).2).1 := by
  simp [secRun]

/-- A section not reached yet is as it was. -/
theorem secRun_sec_of_le (k : Nat) (j : Fin Config.nsecmax) (h : k ≤ j.val) : (secRun d n secs v k).1[j] = secs[j] := by
  induction k with
  | zero => rfl
  | succ k ih =>
    have hk : k < Config.nsecmax := by omega
    have hne : j ≠ ⟨k, hk⟩ := Fin.ne_of_gt (Nat.lt_of_succ_le h)
    rw [secRun_succ_sections d n secs v ⟨k, hk⟩, getElem_vector_set_ne _ _ hne]
    exact ih (by omega)

/-- A section steps from the cells it had before the run. -/
theorem secRun_succ_out (k : Fin Config.nsecmax) :
    (secRun d n secs v (k.val + 1)).2 = (secStep (d k) n secs[k] (secRun d n secs v k).2).2 := by
  rw [← secRun_sec_of_le d n secs v k k le_rfl]
  simp [secRun]

/-- No later section touches one that has been stepped. -/
theorem secRun_sec_of_lt (k : Nat) (hk : k ≤ Config.nsecmax) (j : Fin Config.nsecmax) (h : j.val < k) :
    (secRun d n secs v k).1[j] = (secStep (d j) n secs[j] (secRun d n secs v j).2).1 := by
  induction k with
  | zero => omega
  | succ k ih =>
    rw [secRun_succ_sections d n secs v ⟨k, hk⟩]
    obtain rfl | hj := eq_or_ne j ⟨k, hk⟩
    · rw [← secRun_sec_of_le d n secs v k ⟨k, hk⟩ le_rfl]
      exact Vector.getElem_set_self _
    · rw [getElem_vector_set_ne _ _ hj]
      exact ih (by omega) (Nat.lt_of_le_of_ne (Nat.le_of_lt_succ h) (Fin.val_ne_of_ne hj))

end

/-! One section, lane by lane (R141). -/

section
variable (d : Lane → Nat → Draw) (n : Nat) (c : SosSection) (v : Lanes) (i : Lane)

theorem secStep_s0 :
    (secStep d n c v).1.s0[i] = if i.val < n then secW (d i) c i v[i] else c.s0[i] := onLanes_get n _ _ i

theorem secStep_s1 : (secStep d n c v).1.s1[i] = if i.val < n then c.s0[i] else c.s1[i] := onLanes_get n _ _ i

theorem secStep_out :
    (secStep d n c v).2[i] = if i.val < n then secY (d i) c i (secW (d i) c i v[i]) else v[i] := onLanes_get n _ _ i

end

/-! The bank in the machine. -/

/-- What reaches section j of a bank; past the last section, what the bank gives (R142). -/
def State.sosInput (s : State) (ld : LReg) (k : Fin Config.nbank) (j : Nat) : Lanes :=
  (secRun (fun j i op => s.at i (16 * j + op)) s.par.n s.sos[k].sec s.l[ld] j).2

section
variable (s : State) (ld : LReg) (k : Fin Config.nbank)

theorem sosInput_zero : s.sosInput ld k 0 = s.l[ld] := rfl

theorem sosInput_succ (j : Fin Config.nsecmax) :
    s.sosInput ld k (j.val + 1)
      = (secStep (fun i op => s.at i (16 * j + op)) s.par.n s.sos[k].sec[j] (s.sosInput ld k j)).2 :=
  secRun_succ_out _ _ _ _ j

/-- The bank gives what would reach section NSECT: with no section, L[ld] itself (R142). -/
theorem sosNext_out : (s.sosNext ld k).l[ld] = s.sosInput ld k s.sos[k].nsect := sosNext_l_self s ld k

theorem sosNext_sec_of_le (j : Fin Config.nsecmax) (h : s.sos[k].nsect.val ≤ j.val) :
    (s.sosNext ld k).sos[k].sec[j] = s.sos[k].sec[j] := by
  rw [sosNext_sos_self]
  exact secRun_sec_of_le _ _ _ _ _ j h

theorem sosNext_sec_of_lt (j : Fin Config.nsecmax) (h : j.val < s.sos[k].nsect.val) :
    (s.sosNext ld k).sos[k].sec[j]
      = (secStep (fun i op => s.at i (16 * j + op)) s.par.n s.sos[k].sec[j] (s.sosInput ld k j)).1 := by
  rw [sosNext_sos_self]
  exact secRun_sec_of_lt _ _ _ _ _ (Nat.le_of_lt_succ s.sos[k].nsect.isLt) j h

end

end Sys2Proof.Machine

/-! PROOFS. SOS, LP1 and DCB: what they compute and what they leave (42_sos_filters.md R141, R142, R146, R148). -/

namespace Sys2Proof.Machine

theorem sosNext_coefficients (s : State) (ld : LReg) (k : Fin Config.nbank) (j : Fin Config.nsecmax) :
    (s.sosNext ld k).sos[k].sec[j] = { s.sos[k].sec[j] with
      s0 := (s.sosNext ld k).sos[k].sec[j].s0, s1 := (s.sosNext ld k).sos[k].sec[j].s1 } := by
  obtain h | h := Nat.lt_or_ge j.val s.sos[k].nsect.val
  · rw [sosNext_sec_of_lt s ld k j h]
    rfl
  · rw [sosNext_sec_of_le s ld k j h]

/-- Settles O36: in lane i, `y j` is what reaches section j. -/
theorem sosCascade : Obligations.SosCascade := by
  intro s ld k
  refine ⟨needsInit_of_exec (exec_sos s ld k), fun hi => ⟨s.sosNext ld k,
    (exec_sos s ld k).trans (whenInit_of_initd _ _ _ hi), rfl, fun r h => setL_l_ne s ld r _ h,
    fun b h => getElem_vector_set_ne _ _ h, sosNext_nsect s ld k,
    sosNext_coefficients s ld k, sosNext_sec_of_le s ld k, fun i hn => ?_⟩⟩
  refine ⟨fun j => (s.sosInput ld k j)[i], congrArg (·[i]) (sosInput_zero s ld k),
    congrArg (·[i]) (sosNext_out s ld k), fun j hj => ?_⟩
  simp only [sosNext_sec_of_lt s ld k j hj, sosInput_succ s ld k j]
  exact ⟨(secStep_s0 _ _ _ _ i).trans (if_pos hn), (secStep_s1 _ _ _ _ i).trans (if_pos hn),
    (secStep_out _ _ _ _ i).trans (if_pos hn)⟩

/-- Settles O37: both commands write one value per lane, to L[ld] and to the unit. -/
theorem onePoleAndDcBlocker : Obligations.OnePoleAndDcBlocker := by
  intro s ld k q
  refine ⟨needsInit_of_exec (exec_lp1 s ld k), needsInit_of_exec (exec_dcb s ld q), fun hi =>
    ⟨⟨s.lp1Next ld k, (exec_lp1 s ld k).trans (whenInit_of_initd _ _ _ hi), rfl, fun r h => setL_l_ne s ld r _ h,
      fun j h => getElem_vector_set_ne _ _ h, lp1Next_a s ld k, fun i hn => ?_⟩,
    ⟨s.dcbNext ld q, (exec_dcb s ld q).trans (whenInit_of_initd _ _ _ hi), rfl, fun r h => setL_l_ne s ld r _ h,
      fun j h => getElem_vector_set_ne _ _ h, dcbNext_r s ld q, fun i hn => ?_⟩⟩⟩
  · rw [lp1Next_lp1_self, lp1Next_l_self]
    simp only [onLanes_get, if_pos hn, State.lp1Out, and_self]
  · rw [dcbNext_dcb_self, dcbNext_l_self]
    simp only [onLanes_get, if_pos hn, State.dcbOut, and_self]

end Sys2Proof.Machine

/-! PROOFS. The lanes of SOS, LP1 and DCB are independent (42_sos_filters.md R149). -/

namespace Sys2Proof.Machine

/-- A free NaN's place is the same in states with the same stamp. -/
theorem at_congr {s s' : State} (h : s'.draw = s.draw) : s'.at = s.at := by
  funext i k
  simp [State.at, h]

/-- Two sections agree in lane i: coefficients and cells. -/
def SosSection.SameLane (i : Lane) (c c' : SosSection) : Prop := ∀ q : Fin 7, (c'.arr q)[i] = (c.arr q)[i]

section
variable {d : Lane → Nat → Draw} {n : Nat} {c c' : SosSection} {v v' : Lanes} {i : Lane}

theorem secW_congr (hc : SosSection.SameLane i c c') (x : Sample) : secW (d i) c' i x = secW (d i) c i x := by
  have ha1 : c'.a1[i] = c.a1[i] := hc 3
  have ha2 : c'.a2[i] = c.a2[i] := hc 4
  have hs0 : c'.s0[i] = c.s0[i] := hc 5
  have hs1 : c'.s1[i] = c.s1[i] := hc 6
  rw [secW, secW, ha1, ha2, hs0, hs1]

theorem secY_congr (hc : SosSection.SameLane i c c') (w : Sample) : secY (d i) c' i w = secY (d i) c i w := by
  have hb0 : c'.b0[i] = c.b0[i] := hc 0
  have hb1 : c'.b1[i] = c.b1[i] := hc 1
  have hb2 : c'.b2[i] = c.b2[i] := hc 2
  have hs0 : c'.s0[i] = c.s0[i] := hc 5
  have hs1 : c'.s1[i] = c.s1[i] := hc 6
  rw [secY, secY, hb0, hb1, hb2, hs0, hs1]

theorem secStep_out_congr (hc : SosSection.SameLane i c c') (hv : v'[i] = v[i]) :
    (secStep d n c' v').2[i] = (secStep d n c v).2[i] := by
  rw [secStep_out, secStep_out, secW_congr hc, secY_congr hc, hv]

theorem secStep_sameLane (hc : SosSection.SameLane i c c') (hv : v'[i] = v[i]) :
    SosSection.SameLane i (secStep d n c v).1 (secStep d n c' v').1 := by
  have hs0 : c'.s0[i] = c.s0[i] := hc 5
  have hs1 : c'.s1[i] = c.s1[i] := hc 6
  have hnew0 : (secStep d n c' v').1.s0[i] = (secStep d n c v).1.s0[i] := by
    rw [secStep_s0, secStep_s0, secW_congr hc, hv, hs0]
  have hnew1 : (secStep d n c' v').1.s1[i] = (secStep d n c v).1.s1[i] := by
    rw [secStep_s1, secStep_s1, hs0, hs1]
  intro q
  match q with
  | 0 => exact hc 0
  | 1 => exact hc 1
  | 2 => exact hc 2
  | 3 => exact hc 3
  | 4 => exact hc 4
  | 5 => exact hnew0
  | 6 => exact hnew1

end

section
variable {s s' : State} {ld : LReg} {i : Lane}
variable (hp : s'.par = s.par) (hd : s'.draw = s.draw) (hl : s'.l[ld][i] = s.l[ld][i])
include hp hd hl

theorem sosInput_congr {k : Fin Config.nbank}
    (hc : ∀ j : Fin Config.nsecmax, SosSection.SameLane i s.sos[k].sec[j] s'.sos[k].sec[j]) (j : Nat)
    (hj : j ≤ Config.nsecmax) : (s'.sosInput ld k j)[i] = (s.sosInput ld k j)[i] := by
  induction j with
  | zero =>
    rw [sosInput_zero, sosInput_zero]
    exact hl
  | succ j ih =>
    rw [sosInput_succ s' ld k ⟨j, hj⟩, sosInput_succ s ld k ⟨j, hj⟩, hp, at_congr hd]
    exact secStep_out_congr (hc ⟨j, hj⟩) (ih (by omega))

theorem sosNext_congr {k : Fin Config.nbank} (hn : s'.sos[k].nsect = s.sos[k].nsect)
    (hc : ∀ j : Fin Config.nsecmax, SosSection.SameLane i s.sos[k].sec[j] s'.sos[k].sec[j]) :
    (s'.sosNext ld k).l[ld][i] = (s.sosNext ld k).l[ld][i]
      ∧ ∀ j : Fin Config.nsecmax,
          SosSection.SameLane i (s.sosNext ld k).sos[k].sec[j] (s'.sosNext ld k).sos[k].sec[j] := by
  have hin := sosInput_congr hp hd hl hc
  refine ⟨?_, fun j => ?_⟩
  · rw [sosNext_out, sosNext_out, hn]
    exact hin _ (Nat.le_of_lt_succ s.sos[k].nsect.isLt)
  · obtain h | h := Nat.lt_or_ge j.val s.sos[k].nsect.val
    · rw [sosNext_sec_of_lt s ld k j h, sosNext_sec_of_lt s' ld k j (hn ▸ h), hp, at_congr hd]
      exact secStep_sameLane (hc j) (hin j j.isLt.le)
    · rw [sosNext_sec_of_le s ld k j h, sosNext_sec_of_le s' ld k j (hn ▸ h)]
      exact hc j

theorem lp1Next_congr {k : Fin Config.nlp} (ha : s'.lp1[k].a[i] = s.lp1[k].a[i])
    (hs : s'.lp1[k].s[i] = s.lp1[k].s[i]) :
    (s'.lp1Next ld k).l[ld][i] = (s.lp1Next ld k).l[ld][i]
      ∧ (s'.lp1Next ld k).lp1[k].s[i] = (s.lp1Next ld k).lp1[k].s[i] := by
  have hout : s'.lp1Out ld k i = s.lp1Out ld k i := by
    rw [State.lp1Out, State.lp1Out, at_congr hd, hl, ha, hs]
  simp only [lp1Next_lp1_self, lp1Next_l_self, onLanes_get, hp, hl, hs, hout, and_self]

theorem dcbNext_congr {k : Fin Config.ndc} (hr : s'.dcb[k].r[i] = s.dcb[k].r[i])
    (hx : s'.dcb[k].x1[i] = s.dcb[k].x1[i]) (hy : s'.dcb[k].y1[i] = s.dcb[k].y1[i]) :
    (s'.dcbNext ld k).l[ld][i] = (s.dcbNext ld k).l[ld][i]
      ∧ (s'.dcbNext ld k).dcb[k].x1[i] = (s.dcbNext ld k).dcb[k].x1[i]
      ∧ (s'.dcbNext ld k).dcb[k].y1[i] = (s.dcbNext ld k).dcb[k].y1[i] := by
  have hout : s'.dcbOut ld k i = s.dcbOut ld k i := by
    rw [State.dcbOut, State.dcbOut, at_congr hd, hl, hr, hx, hy]
  simp only [dcbNext_dcb_self, dcbNext_l_self, onLanes_get, hp, hl, hx, hy, hout, and_self]

end

/-- Settles O38: what each command leaves in lane i is a function of lane i. -/
theorem filterLanesAreIndependent : Obligations.FilterLanesAreIndependent := by
  intro s s' t t' ld i hp hd hi hi' hl
  refine ⟨fun k hn hc ht ht' => ?_, fun k ha hs ht ht' => ?_, fun k hr hx hy ht ht' => ?_⟩
  · rw [eq_of_exec_whenInit (exec_sos s ld k) hi ht, eq_of_exec_whenInit (exec_sos s' ld k) hi' ht']
    exact sosNext_congr hp hd hl hn hc
  · rw [eq_of_exec_whenInit (exec_lp1 s ld k) hi ht, eq_of_exec_whenInit (exec_lp1 s' ld k) hi' ht']
    exact lp1Next_congr hp hd hl ha hs
  · rw [eq_of_exec_whenInit (exec_dcb s ld k) hi ht, eq_of_exec_whenInit (exec_dcb s' ld k) hi' ht']
    exact dcbNext_congr hp hd hl hr hx hy

end Sys2Proof.Machine

/-! PROOFS. No transaction changes a parameter (10_state.md R46, 43_delayline.md R184). -/

namespace Sys2Proof.Machine

/-- If the answer is a next state, its parameters are `p`. -/
def AnswersPar (p : Params) (r : Result) : Prop := ∀ t, r = .next t → t.par = p

section
variable {s : State} {p : Params}

theorem answersPar_next {t : State} (h : t.par = p) : AnswersPar p (.next t) := by
  rintro _ ⟨⟩
  exact h

theorem answersPar_whenInit {i : Instr} {t : State} (h : t.par = s.par) : AnswersPar s.par (s.whenInit i t) := by
  intro u hu
  obtain ⟨-, rfl⟩ | ⟨-, rfl⟩ := whenInit_cases hu
  · exact h
  · rfl

end

@[simp] theorem storeWord_par (s : State) (wd : CfgWord) (v : Word) : (s.storeWord wd v).par = s.par := by
  obtain ⟨-, -, -, -, hpar, -⟩ := samePrivate_storeWord s wd v
  exact hpar

@[simp] theorem reversed_par (s : State) : s.reversed.par = s.par := by
  rw [State.reversed]
  split <;> rfl

@[simp] theorem fadeCounted_par (s : State) : s.fadeCounted.par = s.par := by
  rw [State.fadeCounted]
  split <;> rfl

@[simp] theorem afterMix_par (s : State) (ld lcur lold : LReg) : (s.afterMix ld lcur lold).par = s.par := by
  rw [State.afterMix]
  split
  · exact fadeCounted_par _
  · rfl

theorem answersPar_cfgr (s : State) (rd rb : XReg) (off : BitVec 12) : AnswersPar s.par (execCfgr rd rb off s) := by
  intro t ht
  obtain ⟨-, rfl⟩ | ⟨wd, -, rfl⟩ := execCfgr_cases ht <;> rfl

theorem answersPar_cfgw (s : State) (rs rb : XReg) (off : BitVec 12) : AnswersPar s.par (execCfgw rs rb off s) := by
  intro t ht
  obtain rfl | ⟨wd, -, -, rfl⟩ := execCfgw_cases ht
  · rfl
  · exact storeWord_par s wd _

theorem answersPar_lins (s : State) (ld : LReg) (rs : XReg) (k : Lane) : AnswersPar s.par (execLins ld rs k s) := by
  rw [execLins]
  split <;> exact answersPar_next rfl

theorem answersPar_lext (s : State) (rd : XReg) (ls : LReg) (k : Lane) : AnswersPar s.par (execLext rd ls k s) := by
  rw [execLext]
  split <;> exact answersPar_next rfl

theorem answersPar_tmode (s : State) (m : Mode) : AnswersPar s.par (execTmode m s) := by
  refine answersPar_whenInit ?_
  split
  · rfl
  · exact reversed_par _

/-- No command writes a parameter. -/
theorem answersPar_exec (s : State) (i : Instr) : AnswersPar s.par (exec i s) := by
  cases i with
  | cfgw rs rb off => exact answersPar_cfgw s rs rb off
  | cfgr rd rb off => exact answersPar_cfgr s rd rb off
  | lins ld rs k => exact answersPar_lins s ld rs k
  | lext rd ls k => exact answersPar_lext s rd ls k
  | tmode m => exact answersPar_tmode s m
  | trev => exact answersPar_whenInit (reversed_par s)
  | tmix ld lcur lold => exact answersPar_whenInit (afterMix_par s ld lcur lold)
  | nop | init | xli | xsli | xmov | xadd | xsub | xsrai | xslli | vcmp => exact answersPar_next rfl
  | lmov | lli | ladd | lsub | lmul | lmac | lsplat | lxcvt | lsumt => exact answersPar_next rfl
  | plfo | tlfo | pramp | pend | decim | sos | lp1 | dcb | apc | eqn => exact answersPar_whenInit rfl
  | dlmod | dlset | dlwr | dlrdh | dlrdl | dladv | dladvx | dlsav | dlrst => exact answersPar_whenInit rfl
  | tspd | twr | tseek | trd => exact answersPar_whenInit rfl

theorem issue_par {s t : State} {w : Word} (ht : s.issue w = .next t) : t.par = s.par := by
  obtain ⟨-, rfl⟩ | ⟨-, i, -, hi⟩ | ⟨-, e, -, rfl⟩ := issue_cases ht
  · rfl
  · exact (answersPar_exec _ i t hi :)
  · rfl

@[simp] theorem hostWrite_par (s : State) (a : BitVec 16) (v : Word) : (s.hostWrite a v).par = s.par := by
  rw [State.hostWrite]
  split
  · rfl
  · obtain hs | ⟨wd, -, -, hs⟩ := cfgWrite_cases s a v
    · rw [hs]
    · rw [hs, storeWord_par]

theorem step_par {s t : State} (h : step s = .next t) : t.par = s.par := by
  obtain ⟨-, rfl⟩ | ⟨w, rest, -, ht⟩ | ⟨a, rest, -, rfl⟩ | ⟨a, v, rest, -, rfl⟩ | ⟨rest, -, rfl⟩ := step_cases h
  · rfl
  · exact (issue_par ht :)
  · rfl
  · exact hostWrite_par _ a v
  · rfl

/-- Settles O17: HWCFG and the words LOGSIZE read parameters only. -/
theorem parametersNeverChange : Obligations.ParametersNeverChange := by
  intro s t h
  have hp := step_par h
  exact ⟨hp, congrArg hwcfgWord hp, fun u => congrArg (fun p : Params => BitVec.ofNat 32 p.dllog[u]) hp⟩

end Sys2Proof.Machine

/-! SUPPORT. What a command answers that writes one delay line, or the lanes of one L register. -/

namespace Sys2Proof.Machine

@[simp] theorem setDl_dl_self (s : State) (u : Fin Config.ndl) (p : DelayLine) : (s.setDl u p).dl[u] = p :=
  Vector.getElem_set_self _

theorem setDl_only (s : State) (u : Fin Config.ndl) (p : DelayLine) : OnlyDl u s (s.setDl u p) :=
  ⟨rfl, fun _ h => getElem_vector_set_ne _ _ h⟩

/-- After INIT a command that replaces line u by `p` does that and nothing else. -/
theorem answersDl_of_exec {i : Instr} {s : State} {u : Fin Config.ndl} {p : DelayLine}
    (h : exec i s = s.whenInit i (s.setDl u p)) (hi : s.status.initd = true) :
    ∃ t, exec i s = .next t ∧ OnlyDl u s t ∧ t.dl[u] = p :=
  ⟨s.setDl u p, h.trans (whenInit_of_initd _ _ _ hi), setDl_only s u p, setDl_dl_self s u p⟩

/-- Lane k of the register that `mapL` writes. -/
theorem mapL_lane (s : State) (ld : LReg) (f : Lane → Sample) {k : Lane} (hk : k.val < s.par.n) :
    (s.mapL ld f).l[ld][k] = f k := by
  rw [mapL_get, if_pos ⟨rfl, hk⟩]

theorem answersL_of_exec {i : Instr} {s : State} {ld : LReg} {f : Lane → Sample}
    (h : exec i s = .next (s.mapL ld f)) : AnswersL i s ld f :=
  ⟨s.mapL ld f, h, fun _ => mapL_lane s ld f, mapL_only s ld f⟩

end Sys2Proof.Machine

/-! PROOFS. The commands of the delay lines: the cursors, the delays, the write and the taps (43_delayline.md R166 to
R181). -/

namespace Sys2Proof.Machine

/-- Line u with `split` of every lane of L[ls] as its delays (R166). -/
def State.delaysSet (s : State) (ls : LReg) (u : Fin Config.ndl) : DelayLine :=
  { s.dl[u] with
    idelay := onLanes s.par.n s.dl[u].idelay fun i => (splitDelay (s.at i 0) s.l[ls][i]).1
    fdelay := onLanes s.par.n s.dl[u].fdelay fun i => (splitDelay (s.at i 0) s.l[ls][i]).2 }

/-- Line u with L[ls] written at its cursor (R170). -/
def State.lineWritten (s : State) (ls : LReg) (u : Fin Config.ndl) : DelayLine :=
  { s.dl[u] with buf := writeLanes s.dl[u].buf s.dl[u].id s.l[ls] s.par.n }

/-- What DLRDL gives in lane i (R172). -/
def State.linTap (s : State) (u : Fin Config.ndl) (i : Lane) : Sample :=
  lin (s.at i) (s.tapv u i 0) (s.tapv u i 1) s.dl[u].fdelay[i]

/-- What DLRDH gives in lane i (R174). -/
def State.hermTap (s : State) (u : Fin Config.ndl) (i : Lane) : Sample :=
  herm (s.at i) (s.tapv u i (-1)) (s.tapv u i 0) (s.tapv u i 1) (s.tapv u i 2) s.dl[u].fdelay[i]

section
variable (s : State) (ls ld : LReg) (rs : XReg) (u : Fin Config.ndl)

theorem exec_dlset : exec (.dlset ls u) s = s.whenInit (.dlset ls u) (s.setDl u (s.delaysSet ls u)) := rfl

theorem exec_dlwr : exec (.dlwr ls u) s = s.whenInit (.dlwr ls u) (s.setDl u (s.lineWritten ls u)) := rfl

theorem exec_dlrdl : exec (.dlrdl ld u) s = s.whenInit (.dlrdl ld u) (s.mapL ld (s.linTap u)) := rfl

theorem exec_dlrdh : exec (.dlrdh ld u) s = s.whenInit (.dlrdh ld u) (s.mapL ld (s.hermTap u)) := rfl

theorem exec_dladv : exec (.dladv u) s
    = s.whenInit (.dladv u) (s.setDl u { s.dl[u] with id := ringAdvance s.par.dllog[u] s.dl[u].id 1 }) := rfl

theorem exec_dladvx : exec (.dladvx rs u) s = s.whenInit (.dladvx rs u)
    (s.setDl u { s.dl[u] with id := ringAdvance s.par.dllog[u] s.dl[u].id (lowWord s.x[rs]) }) := rfl

theorem exec_dlsav : exec (.dlsav u) s
    = s.whenInit (.dlsav u) (s.setDl u { s.dl[u] with saved := s.dl[u].id }) := rfl

theorem exec_dlrst : exec (.dlrst u) s
    = s.whenInit (.dlrst u) (s.setDl u { s.dl[u] with id := s.dl[u].saved }) := rfl

end

/-- Settles O44: each command replaces line u by the line with its new cursor or saved cursor. -/
theorem cursorCommands : Obligations.CursorCommands := by
  intro s rs u
  have hadv := exec_dladv s u
  have hadvx := exec_dladvx s rs u
  have hsav := exec_dlsav s u
  have hrst := exec_dlrst s u
  exact ⟨needsInit_of_exec hadv, needsInit_of_exec hadvx, needsInit_of_exec hsav, needsInit_of_exec hrst, fun hi =>
    ⟨answersDl_of_exec hadv hi, answersDl_of_exec hadvx hi, answersDl_of_exec hsav hi, answersDl_of_exec hrst hi⟩⟩

/-- Settles O41: both halves of `split` are stored lane by lane. -/
theorem delaySet : Obligations.DelaySet := by
  intro s ls u
  refine ⟨needsInit_of_exec (exec_dlset s ls u), fun hi => ?_⟩
  obtain ⟨t, ht, honly, hline⟩ := answersDl_of_exec (exec_dlset s ls u) hi
  refine ⟨t, ht, honly, by rw [hline]; rfl, fun i hn => ?_⟩
  rw [hline]
  simp only [State.delaysSet, onLanes_get, if_pos hn]

/-- Settles O42: the line's buffer is the one with the lanes written at the cursor. -/
theorem delayWrite : Obligations.DelayWrite := by
  intro s ls u
  refine ⟨needsInit_of_exec (exec_dlwr s ls u), fun hi => ?_⟩
  obtain ⟨t, ht, honly, hline⟩ := answersDl_of_exec (exec_dlwr s ls u) hi
  refine ⟨t, ht, honly, by rw [hline]; rfl, fun a ha => ?_, fun hwf i hn => ?_⟩
  · rw [hline]
    exact read_writeLanes_ne _ _ _ _ a ha
  · rw [hline]
    exact read_writeLanes_self _ hwf _ _ _ i hn

theorem answersL_dlrdl (s : State) (ld : LReg) (u : Fin Config.ndl) (hi : s.status.initd = true) :
    AnswersL (.dlrdl ld u) s ld (s.linTap u) :=
  answersL_of_exec ((exec_dlrdl s ld u).trans (whenInit_of_initd _ _ _ hi))

theorem answersL_dlrdh (s : State) (ld : LReg) (u : Fin Config.ndl) (hi : s.status.initd = true) :
    AnswersL (.dlrdh ld u) s ld (s.hermTap u) :=
  answersL_of_exec ((exec_dlrdh s ld u).trans (whenInit_of_initd _ _ _ hi))

/-- Settles O43: both commands map an interpolation over the lanes of L[ld]; the two formulas and the taps are the
model's own, written out. -/
theorem delayTaps : Obligations.DelayTaps := fun s ld u =>
  ⟨needsInit_of_exec (exec_dlrdl s ld u), needsInit_of_exec (exec_dlrdh s ld u),
    fun hi => ⟨answersL_dlrdl s ld u hi, answersL_dlrdh s ld u hi⟩⟩

end Sys2Proof.Machine

/-! PROOFS. The modulation source (43_delayline.md R161, R162). -/

namespace Sys2Proof.Machine

theorem isFinite_pow2neg {sh : Nat} (h : sh < 127) : isFinite (pow2neg sh) = true := by
  rw [isFinite_iff, magBits, pow2neg, BitVec.toNat_ofNat]
  omega

/-- `pow2neg` is the power of two it is named for, where that is no subnormal. -/
theorem valQ_pow2neg {sh : Nat} (h : sh < 127) : valQ (pow2neg sh) = 2 ^ (-sh : Int) := by
  have hmag : magBits (pow2neg sh) = (126 - sh) * 2 ^ 23 + 2 ^ 23 := by
    rw [magBits, pow2neg, BitVec.toNat_ofNat]
    omega
  have hsign : signBit (pow2neg sh) = false := by
    rw [signBit_eq, pow2neg, BitVec.toNat_ofNat, decide_eq_false_iff_not]
    omega
  have hexp : (-sh : Int) = ((126 - sh : Nat) - 149 : Int) + 23 := by omega
  rw [valQ_eq, hsign, hmag, magVal_of_signif (.inr le_rfl) (by norm_num), hexp, zpow_add₀ two_ne_zero]
  norm_num
  ring

/-- What DLMOD gives in lane i (R162). -/
def State.modulation (s : State) (i : Lane) : Sample := fmul (s.at i 0) (i2f (s.lcgNext i).toInt) (pow2neg 31)

/-- The state DLMOD leaves after INIT (R162). -/
def State.dlmodNext (s : State) (ld : LReg) : State :=
  { s.mapL ld s.modulation with lcg := { s.lcg with state := onLanes s.par.n s.lcg.state s.lcgNext } }

theorem exec_dlmod (s : State) (ld : LReg) : exec (.dlmod ld) s = s.whenInit (.dlmod ld) (s.dlmodNext ld) := rfl

theorem toNat_lcgNext (s : State) (i : Lane) :
    (s.lcgNext i).toNat = (s.lcg.seed[i].toNat + s.lcg.state[i].toNat * 1103515245) % 2 ^ 32 := by
  have hmul : (1103515245#32).toNat = 1103515245 := rfl
  rw [State.lcgNext, BitVec.toNat_add, BitVec.toNat_mul, hmul, Nat.add_mod_mod]

theorem dlmodNext_state (s : State) (ld : LReg) {i : Lane} (hn : i.val < s.par.n) :
    (s.dlmodNext ld).lcg.state[i] = s.lcgNext i := onLanes_of_lt _ _ _ i hn

/-- Settles O39: the scale is 2^-31, a normal number. -/
theorem modulationStep : Obligations.ModulationStep := by
  intro s ld
  refine ⟨needsInit_of_exec (exec_dlmod s ld), fun hi => ⟨s.dlmodNext ld, pow2neg 31,
    (exec_dlmod s ld).trans (whenInit_of_initd _ _ _ hi), rfl, fun r h => setL_l_ne s ld r _ h, rfl,
    isFinite_pow2neg (by decide), valQ_pow2neg (by decide), fun i hn => ?_⟩⟩
  rw [dlmodNext_state s ld hn]
  exact ⟨toNat_lcgNext s i, mapL_lane s ld s.modulation hn⟩

end Sys2Proof.Machine

/-! SUPPORT. Exact results: an operation whose exact result is a finite Sample's value gives that value. -/

namespace Sys2Proof.Machine

/-- A finite Sample lies below the bound from which `RoundsTo` gives an infinity. -/
theorem abs_valQ_lt_overflow {x : Sample} (hx : isFinite x = true) : |valQ x| < (2 ^ 25 - 1) * 2 ^ 103 := by
  rw [isFinite_iff] at hx
  have hle : magVal (magBits x) ≤ magVal 0x7F7FFFFF := magVal_strictMono.monotone (by omega)
  have hlt : magVal 0x7F7FFFFF < magVal (0x7F7FFFFF + 1) := magVal_strictMono (Nat.lt_succ_self _)
  have hbound := overflow_bound
  rw [abs_valQ]
  linarith

/-- What a finite Sample holds needs no rounding. -/
theorem RoundsTo.exact {x r : Sample} (h : RoundsTo (valQ x) r) (hx : isFinite x = true) :
    isFinite r = true ∧ valQ r = valQ x := by
  rw [RoundsTo, if_neg (not_le.mpr (abs_valQ_lt_overflow hx))] at h
  obtain ⟨hr, hnear⟩ := h
  obtain ⟨hself, -⟩ := hnear x hx
  rw [sub_self, abs_zero] at hself
  exact ⟨hr, sub_eq_zero.mp (abs_nonpos_iff.mp hself)⟩

/-- Every number of at most 24 bits, `j` places above the last bit of the subnormals, is a magnitude. -/
theorem exists_magVal (j : Nat) {t : Nat} (ht : t < 2 ^ 24) :
    ∃ n < (j + 2) * 2 ^ 23, magVal n = t * 2 ^ ((j : Int) - 149) := by
  induction j generalizing t with
  | zero =>
    have hval := magVal_of_signif (j := 0) (.inl rfl) ht.le
    exact ⟨t, by omega, by rwa [Nat.zero_mul, Nat.zero_add] at hval⟩
  | succ j ih =>
    by_cases hlo : 2 ^ 23 ≤ t
    · exact ⟨(j + 1) * 2 ^ 23 + t, by omega, magVal_of_signif (.inr hlo) ht.le⟩
    · -- one place lower, with one bit more
      obtain ⟨n, hn, hval⟩ := ih (t := 2 * t) (by omega)
      have hexp : ((j + 1 : Nat) : Int) - 149 = (j : Int) - 149 + 1 := by omega
      refine ⟨n, hn.trans_le (Nat.mul_le_mul_right _ (by omega)), ?_⟩
      rw [hval, hexp, zpow_add_one₀ two_ne_zero]
      push_cast
      ring

/-- Every number of at most 24 bits, up to 149 of them after the point, is a Sample. -/
theorem exists_sample_eq_div {t : Nat} (ht : t < 2 ^ 24) {k : Nat} (hk : k ≤ 149) :
    ∃ x : Sample, isFinite x = true ∧ valQ x = t / (2 ^ k : Nat) := by
  obtain ⟨n, hn, hval⟩ := exists_magVal (149 - k) ht
  have hlt : n < 2 ^ 31 := by omega
  have hexp : ((149 - k : Nat) : Int) - 149 = -k := by omega
  refine ⟨ofMag false n, ?_, ?_⟩
  · rw [isFinite_iff, magBits_ofMag _ hlt]
    omega
  · rw [valQ_eq, signBit_ofMag _ hlt, magBits_ofMag _ hlt, if_neg Bool.false_ne_true, hval, hexp, zpow_neg,
      zpow_natCast, ← div_eq_mul_inv]
    norm_cast

theorem roundsTo_fsub (d : Draw) {a b : Sample} (ha : isFinite a = true) (hb : isFinite b = true) :
    RoundsTo (valQ a - valQ b) (fsub d a b) := by
  obtain ⟨-, hsub, -⟩ := sampleSumsRoundOnce d a b ha hb
  exact hsub

theorem roundsTo_i2f (z : Int) : RoundsTo z (i2f z) := (sampleProductsRoundOnce.2 z).1

theorem nonneg_valQ_iff {a : Sample} : 0 ≤ valQ a ↔ signBit a = false ∨ isZero a = true := by
  have hpos := magVal_nonneg (magBits a)
  rw [isZero_iff, ← magVal_eq_zero, valQ_eq]
  cases signBit a
  · simpa using hpos
  · simpa using (le_antisymm_iff.trans (and_iff_left hpos)).symm

end Sys2Proof.Machine

/-! PROOFS. `split` of a delay value (43_delayline.md R165). -/

namespace Sys2Proof.Machine

/-- A number not below 0 is its significand at the place of its last bit. -/
theorem valQ_of_nonneg {v : Sample} (h : signBit v = false ∨ isZero v = true) :
    valQ v = signif v * 2 ^ lsbExp v := by
  rw [signif_mul_lsbExp, ← abs_valQ, abs_of_nonneg (nonneg_valQ_iff.mpr h)]

/-- A number with bits after the point is a quotient. -/
theorem valQ_eq_div {v : Sample} (h : signBit v = false ∨ isZero v = true) (he : lsbExp v < 0) :
    valQ v = signif v / (2 ^ (-lsbExp v).toNat : Nat) := by
  have hexp : lsbExp v = -((-lsbExp v).toNat : Int) := by omega
  rw [valQ_of_nonneg h, div_eq_mul_inv, Nat.cast_pow, Nat.cast_ofNat, ← zpow_natCast, ← zpow_neg, ← hexp]

/-- A number without bits after the point is an integer. -/
theorem valQ_eq_natCast {v : Sample} (h : signBit v = false ∨ isZero v = true) (he : 0 ≤ lsbExp v) :
    valQ v = (signif v * 2 ^ (lsbExp v).toNat : Nat) := by
  rw [valQ_of_nonneg h, Nat.cast_mul, Nat.cast_pow, Nat.cast_ofNat, ← zpow_natCast, Int.toNat_of_nonneg he]

theorem floorNat_eq {v : Sample} (h : signBit v = false ∨ isZero v = true) : floorNat v = ⌊valQ v⌋₊ := by
  rw [floorNat]
  split
  · next he => rw [valQ_eq_natCast h he, Nat.floor_natCast]
  · next he => rw [valQ_eq_div h (not_le.mp he), Nat.floor_div_eq_div]

/-- The floor and what it cuts off are Samples: nothing is cut off, or both have at most the bits of the number. -/
theorem exists_floor_fraction {v : Sample} (hv : isFinite v = true) (h : signBit v = false ∨ isZero v = true) :
    ∃ n f : Sample, isFinite n = true ∧ valQ n = floorNat v
      ∧ isFinite f = true ∧ valQ f = valQ v - floorNat v := by
  rw [floorNat]
  split
  · next he =>
    have hval := valQ_eq_natCast h he
    exact ⟨v, 0#32, hv, hval, rfl, by rw [hval, sub_self, valQ_eq_zero.mpr rfl]⟩
  · next he =>
    have hval := valQ_eq_div h (not_le.mp he)
    have hk : (-lsbExp v).toNat ≤ 149 := by
      rw [lsbExp]
      split <;> omega
    generalize (-lsbExp v).toNat = k at hval hk ⊢
    have hbits := signif_lt v
    obtain ⟨n, hn, hnval⟩ := exists_sample_eq_div (lt_of_le_of_lt (Nat.div_le_self _ (2 ^ k)) hbits) (Nat.zero_le 149)
    obtain ⟨f, hf, hfval⟩ := exists_sample_eq_div (lt_of_le_of_lt (Nat.mod_le _ (2 ^ k)) hbits) hk
    have hdiv : (signif v : ℚ) = (2 ^ k : Nat) * (signif v / 2 ^ k : Nat) + (signif v % 2 ^ k : Nat) := by
      exact_mod_cast (Nat.div_add_mod (signif v) (2 ^ k)).symm
    refine ⟨n, f, hn, by simpa using hnval, hf, ?_⟩
    rw [hfval, hval, hdiv, add_div, mul_div_cancel_left₀ _ (by positivity), add_sub_cancel_left]

/-- The fraction that `split` forms, before a zero's sign is dropped, is exact (R165). -/
theorem fsub_floor_exact (d : Draw) {v : Sample} (hv : isFinite v = true) (h : signBit v = false ∨ isZero v = true) :
    isFinite (fsub d v (i2f (floorNat v))) = true
      ∧ valQ (fsub d v (i2f (floorNat v))) = valQ v - floorNat v := by
  obtain ⟨n, f, hn, hnval, hf, hfval⟩ := exists_floor_fraction hv h
  have hint : RoundsTo (valQ n) (i2f (floorNat v)) := by simpa [hnval] using roundsTo_i2f (floorNat v)
  obtain ⟨hifin, hival⟩ := hint.exact hn
  have hdiff := roundsTo_fsub d hv hifin
  rw [hival, hnval, ← hfval] at hdiff
  rw [← hfval]
  exact hdiff.exact hf

/-- The fraction with the sign of a zero dropped. -/
def plusZero (f : Sample) : Sample := if isZero f then 0 else f

theorem isFinite_plusZero {f : Sample} (h : isFinite f = true) : isFinite (plusZero f) = true := by
  rw [plusZero]
  split
  · rfl
  · exact h

theorem valQ_plusZero (f : Sample) : valQ (plusZero f) = valQ f := by
  rw [plusZero]
  split
  · next hz => rw [valQ_eq_zero.mpr ((isZero_iff f).mp hz), valQ_eq_zero.mpr rfl]
  · rfl

theorem signBit_plusZero {f : Sample} (h : 0 ≤ valQ f) : signBit (plusZero f) = false := by
  rw [plusZero]
  split
  · rfl
  · next hz => exact (nonneg_valQ_iff.mp h).resolve_right hz

section
variable {d : Draw} {v : Sample}

theorem splitDelay_clamped (h : isNaN v = true ∨ (signBit v = true ∧ isZero v = false)) :
    splitDelay d v = (0#32, 0#32) :=
  if_pos (by simpa using h)

theorem isClamped_eq_false (hn : isNaN v = false) (h : signBit v = false ∨ isZero v = true) :
    (isNaN v || (signBit v && !isZero v)) = false := by
  rcases h with h | h <;> simp [hn, h]

/-- The order key that saturates `split` is that of 2 ^ 32. -/
theorem saturates_iff : orderKey 0x4F800000#32 ≤ orderKey v ↔ 2 ^ 32 ≤ valQ v := by
  have hkey : valQ 0x4F800000#32 = 2 ^ 32 := by
    have hs : signBit 0x4F800000#32 = false := rfl
    have hm : magBits 0x4F800000#32 = 0x4F800000 := rfl
    norm_num [valQ_eq, hs, hm, magVal]
  rw [← keyVal_strictMono.le_iff_le, keyVal_orderKey, keyVal_orderKey, hkey]

theorem splitDelay_saturated (hn : isNaN v = false) (hs : signBit v = false) (h : 2 ^ 32 ≤ valQ v) :
    splitDelay d v = (0xFFFFFFFF#32, 0#32) := by
  rw [splitDelay, isClamped_eq_false hn (.inl hs), if_neg Bool.false_ne_true, if_pos (saturates_iff.mpr h)]
  rfl

theorem splitDelay_inRange (hn : isNaN v = false) (hs : signBit v = false ∨ isZero v = true) (h : valQ v < 2 ^ 32) :
    splitDelay d v = (BitVec.ofNat 32 (floorNat v), plusZero (fsub d v (i2f (floorNat v)))) := by
  rw [splitDelay, isClamped_eq_false hn hs, if_neg Bool.false_ne_true, if_neg (saturates_iff.not.mpr (not_le.mpr h))]
  rfl

/-- The bits of an infinity stand for 2 ^ 128, which is past 2 ^ 32. -/
theorem le_valQ_of_isInf (hs : signBit v = false) (h : isInf v = true) : 2 ^ 32 ≤ valQ v := by
  rw [valQ_eq, hs, (isInf_iff v).mp h]
  norm_num [magVal]

end

/-- Settles O40: the three ways through `split`; the fraction is the exact difference from the floor. -/
theorem splitDelayIsFloorAndFraction : Obligations.SplitDelayIsFloorAndFraction := by
  intro d v
  refine ⟨splitDelay_clamped, fun hs h => ?saturated, fun hv hs hlt => ?inRange⟩
  case saturated =>
    obtain h | ⟨hv, hle⟩ := h
    · exact splitDelay_saturated (isNaN_of_isInf h) hs (le_valQ_of_isInf hs h)
    · exact splitDelay_saturated (isNaN_of_isFinite hv) hs hle
  case inRange =>
    have hnonneg := nonneg_valQ_iff.mpr hs
    have hfloor : (floorNat v : Int) = ⌊valQ v⌋ := by rw [floorNat_eq hs, Int.natCast_floor_eq_floor hnonneg]
    have hbound : floorNat v < 2 ^ 32 := by
      rw [floorNat_eq hs, Nat.floor_lt hnonneg]
      exact_mod_cast hlt
    obtain ⟨hfin, hval⟩ := fsub_floor_exact d hv hs
    have hfract : valQ v - floorNat v = Int.fract (valQ v) := by
      rw [Int.fract, ← hfloor, Int.cast_natCast]
    have hfract' : valQ (fsub d v (i2f (floorNat v))) = Int.fract (valQ v) := hval.trans hfract
    rw [splitDelay_inRange (isNaN_of_isFinite hv) hs hlt]
    simp only [valQ_plusZero, hfract']
    refine ⟨?_, isFinite_plusZero hfin, signBit_plusZero (hfract' ▸ Int.fract_nonneg _), rfl, Int.fract_nonneg _,
      Int.fract_lt_one _⟩
    rw [BitVec.toNat_ofNat, Nat.mod_eq_of_lt hbound, hfloor]

end Sys2Proof.Machine

/-! SUPPORT. Sums with a zero, and what a finite sum says of its terms (R9). -/

namespace Sys2Proof.Machine

theorem isFinite_of_not {a : Sample} (hn : isNaN a = false) (hi : isInf a = false) : isFinite a = true := by
  rw [← Bool.not_eq_true, isNaN_iff] at hn
  rw [← Bool.not_eq_true, isInf_iff] at hi
  rw [isFinite_iff]
  omega

/-- A NaN or an infinity among the terms would show in the sum. -/
theorem isFinite_terms_of_fadd {d : Draw} {a b : Sample} (h : isFinite (fadd d a b) = true) :
    isFinite a = true ∧ isFinite b = true := by
  have hvalid := (fadd_nan d a b).isNaN_eq.symm.trans (isNaN_of_isFinite h)
  simp only [Bool.or_eq_false_iff] at hvalid
  obtain ⟨⟨hna, hnb⟩, hopposite⟩ := hvalid
  have hia : isInf a = false := by
    by_contra hia
    rw [Bool.not_eq_false] at hia
    rw [fadd_inf_left d hia hnb fun hib => by simpa [hia, hib] using hopposite] at h
    simp [isInf_of_isFinite h] at hia
  have ha := isFinite_of_not hna hia
  refine ⟨ha, isFinite_of_not hnb ?_⟩
  by_contra hib
  rw [Bool.not_eq_false] at hib
  rw [fadd_inf_right d ha hib] at h
  simp [isInf_of_isFinite h] at hib

theorem isFinite_terms_of_fsub {d : Draw} {a b : Sample} (h : isFinite (fsub d a b) = true) :
    isFinite a = true ∧ isFinite b = true := by
  rw [← isFinite_fneg b]
  exact isFinite_terms_of_fadd h

/-- A value other than zero has one pattern. -/
theorem eq_of_valQ_eq {a b : Sample} (h : valQ a = valQ b) (hb : valQ b ≠ 0) : a = b := by
  have hmag : magBits a = magBits b := magVal_strictMono.injective (by rw [← abs_valQ, ← abs_valQ, h])
  by_contra hne
  -- then the signs differ, and the values are each other's negative
  have hs : signBit a = signBit (fneg b) := by
    rw [signBit_fneg]
    exact Bool.eq_not_of_ne fun hs => hne (eq_of_sign_of_magBits hs hmag)
  have hab : a = fneg b := eq_of_sign_of_magBits hs (by rw [magBits_fneg, hmag])
  rw [hab, valQ_fneg] at h
  exact hb (by linarith)

/-- A zero added changes nothing but -0.0. -/
theorem fadd_zero_right (d : Draw) {a z : Sample} (ha : isFinite a = true) (hneg : a ≠ 0x80000000#32)
    (hz : isZero z = true) : fadd d a z = a := by
  have hfz := isFinite_of_isZero hz
  have hz0 : valQ z = 0 := valQ_eq_zero.mpr ((isZero_iff z).mp hz)
  by_cases ha0 : valQ a = 0
  · have hpos : a = 0#32 := by
      have hm := valQ_eq_zero.mp ha0
      exact eq_of_sign_of_magBits (Bool.eq_false_of_not_eq_true fun hs => hneg ((eq_negZero_iff a).mpr ⟨hs, hm⟩)) hm
    rw [fadd_of_sum_eq_zero d ha hfz (by rw [ha0, hz0, add_zero]), if_neg fun h => hneg h.1, hpos]
  · have hsum := roundsTo_fadd d ha hfz
    rw [hz0, add_zero] at hsum
    exact eq_of_valQ_eq (hsum.exact ha).2 ha0

theorem isZero_zeroOf (neg : Bool) : isZero (zeroOf neg) = true := by
  cases neg <;> rfl

theorem isZero_fmul_zero (d : Draw) {a b : Sample} (ha : isZero a = true) (hb : isFinite b = true) :
    isZero (fmul d a b) = true := by
  rw [fmul_of_finite d (isFinite_of_isZero ha) hb, signif_eq_zero.mpr ha, Nat.zero_mul, roundTo_zero, isZero_zeroOf]

end Sys2Proof.Machine

/-! PROOFS. A tap at the ring's period (43_delayline.md R183). -/

namespace Sys2Proof.Machine

/-- Masking is the remainder modulo the size of the ring. -/
theorem toNat_and_ringMask (log : Nat) (c : Word) : (c &&& ringMask log).toNat = c.toNat % 2 ^ log := by
  rw [BitVec.toNat_and, ringMask, BitVec.toNat_ofNat, ← Nat.and_two_pow_sub_one_eq_mod (2 ^ log - 1),
    Nat.and_comm (2 ^ log - 1), ← Nat.and_assoc, Nat.and_two_pow_sub_one_eq_mod, Nat.and_two_pow_sub_one_eq_mod,
    Nat.mod_eq_of_lt c.isLt]

/-- A delay of the whole ring is no delay. -/
theorem ringSlot_period {log : Nat} {c : Word} (hc : fitsRing log c) :
    ringSlot log c (BitVec.ofNat 32 (2 ^ log)) = c := by
  obtain h | h := le_total log 32
  · have hsum : ((c - BitVec.ofNat 32 (2 ^ log)).toNat + 2 ^ log) % 2 ^ 32 = c.toNat := by
      rw [← Nat.add_mod_mod, ← BitVec.toNat_ofNat (2 ^ log) 32, ← BitVec.toNat_add, BitVec.sub_add_cancel]
    apply BitVec.eq_of_toNat_eq
    calc (ringSlot log c (BitVec.ofNat 32 (2 ^ log))).toNat
        = (c - BitVec.ofNat 32 (2 ^ log)).toNat % 2 ^ log := toNat_and_ringMask log _
      _ = ((c - BitVec.ofNat 32 (2 ^ log)).toNat + 2 ^ log) % 2 ^ 32 % 2 ^ log := by
        rw [Nat.mod_mod_of_dvd _ (pow_dvd_pow 2 h), Nat.add_mod_right]
      _ = (c &&& ringMask log).toNat := by rw [hsum, toNat_and_ringMask]
      _ = c.toNat := congrArg BitVec.toNat hc
  · -- a ring of 2 ^ 32 slots or more: the delay is 0 modulo 2 ^ 32
    have hzero : BitVec.ofNat 32 (2 ^ log) = 0#32 := by
      apply BitVec.eq_of_toNat_eq
      rw [BitVec.toNat_ofNat, Nat.mod_eq_zero_of_dvd (pow_dvd_pow 2 h)]
      rfl
    rw [ringSlot, hzero, BitVec.sub_zero]
    exact hc

/-- Without a fraction the tap itself is given, if it is not -0.0 and its difference from the older one is finite
(R172). -/
theorem lin_zero {d : Nat → Draw} {a0 a1 : Sample} (hneg : a0 ≠ 0x80000000#32)
    (hdiff : isFinite (fsub (d 0) a1 a0) = true) : lin d a0 a1 0#32 = a0 :=
  fadd_zero_right _ (isFinite_terms_of_fsub hdiff).2 hneg (isZero_fmul_zero _ rfl hdiff)

/-- The tap of lane i at the ring's period is what was written at the cursor. -/
theorem tapv_written_period {s : State} (h : s.Inv) {ls : LReg} {u : Fin Config.ndl} {i : Lane} (hn : i.val < s.par.n)
    (hd : s.dl[u].idelay[i] = BitVec.ofNat 32 (2 ^ s.par.dllog[u])) :
    (s.setDl u (s.lineWritten ls u)).tapv u i 0 = s.l[ls][i] := by
  obtain ⟨hwf, hid, -⟩ := h.units.dl u
  have hslot : ringSlot s.par.dllog[u] s.dl[u].id (s.dl[u].idelay[i] + 0) = s.dl[u].id := by
    rw [add_zero, hd, ringSlot_period hid]
  simp only [State.tapv, setDl_dl_self, setDl_par, State.lineWritten]
  rw [hslot]
  exact read_writeLanes_self _ hwf _ _ _ i hn

/-- Settles O45: the tap read is the sample written, and the interpolation adds a zero to it. -/
theorem ringIdempotence : Obligations.RingIdempotence := by
  intro s ls ld u i hi hinv hn hid hfd hneg
  obtain ⟨t2, ht2, hlane, -⟩ := answersL_dlrdl (s.setDl u (s.lineWritten ls u)) ld u hi
  refine ⟨_, t2, (exec_dlwr s ls u).trans (whenInit_of_initd _ _ _ hi), ht2, fun hdiff => (hlane i hn).trans ?_⟩
  rw [State.linTap, tapv_written_period hinv hn hid, setDl_dl_self, State.lineWritten, hfd]
  exact lin_zero hneg (hdiff _)

end Sys2Proof.Machine

/-! SUPPORT. What APC and EQN leave in the machine, and the cascade one stage at a time (44_allpass_eq.md R191, R192,
R197, R198). -/

namespace Sys2Proof.Machine

/-- The cascade APC leaves (R192). -/
def State.cascadeRun (s : State) (ld : LReg) (u : Fin Config.nap) : Cascade :=
  { s.ap[u] with stages := (s.apRun ld u).1, apid := ringAdvance s.par.aplog s.ap[u].apid 1 }

/-- The state APC leaves after INIT (R192). -/
def State.apcNext (s : State) (ld : LReg) (u : Fin Config.nap) : State :=
  { s.setL ld (s.apRun ld u).2 with ap := s.ap.set u (s.cascadeRun ld u) }

/-- The EQ unit EQN leaves (R198). -/
def State.eqRun (s : State) (ld : LReg) : EqUnit :=
  { s.eq with
    eqm := writeLanes s.eq.eqm s.eq.eqid (Vector.ofFn fun i => s.eqW i s.l[ld][i]) s.par.n
    eqid := ringAdvance s.par.eqlog s.eq.eqid 1 }

/-- The state EQN leaves after INIT (R198). -/
def State.eqnNext (s : State) (ld : LReg) : State :=
  { s.mapL ld (fun i => s.eqY i s.l[ld][i]) with eq := s.eqRun ld }

section
variable (s : State) (ld : LReg)

theorem exec_apc (u : Fin Config.nap) : exec (.apc ld u) s = s.whenInit (.apc ld u) (s.apcNext ld u) := rfl

theorem exec_eqn : exec (.eqn ld) s = s.whenInit (.eqn ld) (s.eqnNext ld) := rfl

theorem apcNext_l_self (u : Fin Config.nap) : (s.apcNext ld u).l[ld] = (s.apRun ld u).2 := setL_l_self s ld _

theorem apcNext_ap_self (u : Fin Config.nap) : (s.apcNext ld u).ap[u] = s.cascadeRun ld u :=
  Vector.getElem_set_self _

theorem apcNext_stages (u : Fin Config.nap) : (s.apcNext ld u).ap[u].stages = (s.apRun ld u).1 := by
  rw [apcNext_ap_self, State.cascadeRun]

theorem apcNext_cascade (u : Fin Config.nap) :
    (s.apcNext ld u).ap[u] = { s.ap[u] with
      apid := ringAdvance s.par.aplog s.ap[u].apid 1, stages := (s.apcNext ld u).ap[u].stages } := by
  rw [apcNext_ap_self, State.cascadeRun]

end

/-! The memories: a write of all lanes touches the slot at the cursor only. -/

theorem onlySlot_refl (n : Nat) (slot : Word) (m : Memory 32) : OnlySlot n slot m m := fun _ _ => rfl

theorem onlySlot_writeLanes (n : Nat) (slot : Word) (m : Memory 32) (v : Lanes) :
    OnlySlot n slot m (writeLanes m slot v n) := fun a => read_writeLanes_ne m slot v n a

/-- Lane i of a slot holds what a lane-by-lane function wrote there. -/
theorem read_writeLanes_ofFn {m : Memory 32} (hm : Memory.wf m = true) (slot : Word) (f : Lane → Sample) {n : Nat}
    {i : Lane} (hi : i.val < n) : Memory.read (writeLanes m slot (Vector.ofFn f) n) (cell slot i) = f i := by
  rw [read_writeLanes_self m hm slot _ n i hi, Fin.getElem_fin, Vector.getElem_ofFn]

/-! One stage, lane by lane (R191). -/

section
variable (d : Lane → Nat → Draw) (n log : Nat) (c : Cascade) (g : ApStage) (x : Lanes)

theorem stageStep_onlySlot : OnlySlot n c.apid g.m (stageStep d n log c g x).1.m := onlySlot_writeLanes _ _ _ _

variable {n} {i : Lane} (hn : i.val < n)
include hn

theorem stageStep_read (hg : Memory.wf g.m = true) :
    Memory.read (stageStep d n log c g x).1.m (cell c.apid i) = stageV (d i) log c g i x[i] :=
  read_writeLanes_ofFn hg _ _ hn

theorem stageStep_s2 : (stageStep d n log c g x).1.s2[i] = g.s1[i] := onLanes_of_lt _ _ _ i hn

theorem stageStep_s1 : (stageStep d n log c g x).1.s1[i] = stageW (d i) log c g i x[i] := onLanes_of_lt _ _ _ i hn

theorem stageStep_out : (stageStep d n log c g x).2[i] = stageY (d i) log c g i x[i] := onLanes_of_lt _ _ _ i hn

end

/-! The run of a cascade: stage j is stepped once, on what the stages before it give (R192). -/

section
variable (d : Nat → Lane → Nat → Draw) (n log : Nat) (c : Cascade) (x : Lanes)

theorem stageRun_succ (k : Fin Config.nstagemax) :
    stageRun d n log c x (k.val + 1)
      = ((stageRun d n log c x k).1.set k
          (stageStep (d k) n log c (stageRun d n log c x k).1[k] (stageRun d n log c x k).2).1,
        (stageStep (d k) n log c (stageRun d n log c x k).1[k] (stageRun d n log c x k).2).2) := by
  simp [stageRun]

/-- A stage the run has passed has stepped from what it was; any other is as it was. -/
theorem stageRun_stage (k : Nat) (hk : k ≤ Config.nstagemax) (j : Fin Config.nstagemax) :
    (stageRun d n log c x k).1[j]
      = if j.val < k then (stageStep (d j) n log c c.stages[j] (stageRun d n log c x j).2).1 else c.stages[j] := by
  induction k with
  | zero => rfl
  | succ k ih =>
    have hrun := stageRun_succ d n log c x ⟨k, hk⟩
    obtain rfl | hj := eq_or_ne j ⟨k, hk⟩
    · have hself := ih (by omega)
      rw [if_neg (lt_irrefl k)] at hself
      rw [hrun, if_pos (Nat.lt_succ_self k), ← hself]
      exact Vector.getElem_set_self _
    · have hlt : j.val < k + 1 ↔ j.val < k := by
        have hne : j.val ≠ k := Fin.val_ne_of_ne hj
        omega
      rw [hrun, getElem_vector_set_ne _ _ hj, ih (by omega)]
      simp only [hlt]

theorem stageRun_succ_out (k : Fin Config.nstagemax) :
    (stageRun d n log c x (k.val + 1)).2 = (stageStep (d k) n log c c.stages[k] (stageRun d n log c x k).2).2 := by
  rw [stageRun_succ, stageRun_stage d n log c x k k.isLt.le k, if_neg (lt_irrefl _)]

end

/-! The cascade in the machine. -/

/-- What reaches stage j of a cascade; past the last stage, what the cascade gives (R192). -/
def State.apInput (s : State) (ld : LReg) (u : Fin Config.nap) (j : Nat) : Lanes :=
  (stageRun (fun j i op => s.at i (8 * j + op)) s.par.n s.par.aplog s.ap[u] s.l[ld] j).2

/-- Stage j of cascade u stepped on what reaches it: its memory and cells, and its output (R191). -/
def State.apStep (s : State) (ld : LReg) (u : Fin Config.nap) (j : Fin Config.nstagemax) : ApStage × Lanes :=
  stageStep (fun i op => s.at i (8 * j + op)) s.par.n s.par.aplog s.ap[u] s.ap[u].stages[j] (s.apInput ld u j)

section
variable (s : State) (ld : LReg) (u : Fin Config.nap)

theorem apInput_zero : s.apInput ld u 0 = s.l[ld] := rfl

theorem apInput_succ (j : Fin Config.nstagemax) : s.apInput ld u (j.val + 1) = (s.apStep ld u j).2 :=
  stageRun_succ_out _ _ _ _ _ j

/-- The cascade gives what would reach stage NSTAGE: with no stage, L[ld] itself (R192). -/
theorem apcNext_out : (s.apcNext ld u).l[ld] = s.apInput ld u s.ap[u].nstage := apcNext_l_self s ld u

theorem apcNext_stage (j : Fin Config.nstagemax) :
    (s.apcNext ld u).ap[u].stages[j]
      = if j.val < s.ap[u].nstage.val then (s.apStep ld u j).1 else s.ap[u].stages[j] := by
  rw [apcNext_stages]
  exact stageRun_stage _ _ _ _ _ _ (Nat.le_of_lt_succ s.ap[u].nstage.isLt) j

theorem apcNext_onlySlot (j : Fin Config.nstagemax) :
    OnlySlot s.par.n s.ap[u].apid s.ap[u].stages[j].m (s.apcNext ld u).ap[u].stages[j].m := by
  rw [apcNext_stage]
  split
  · exact stageStep_onlySlot _ _ _ _ _ _
  · exact onlySlot_refl _ _ _

end

end Sys2Proof.Machine

/-! PROOFS. APC and EQN: what they compute and what they leave (44_allpass_eq.md R191, R192, R197, R198). -/

namespace Sys2Proof.Machine

/-- Settles O46: in lane i, `y j` is what reaches stage j. -/
theorem allpassCascade : Obligations.AllpassCascade := by
  intro s ld u
  refine ⟨needsInit_of_exec (exec_apc s ld u), fun hi ⟨_, hwf, _⟩ => ⟨s.apcNext ld u,
    (exec_apc s ld u).trans (whenInit_of_initd _ _ _ hi), rfl, fun r h => setL_l_ne s ld r _ h,
    fun o h => getElem_vector_set_ne _ _ h, apcNext_cascade s ld u,
    fun j h => (apcNext_stage s ld u j).trans (if_neg (Nat.not_lt.mpr h)), apcNext_onlySlot s ld u, fun i hn => ?_⟩⟩
  refine ⟨fun j => (s.apInput ld u j)[i], congrArg (·[i]) (apInput_zero s ld u),
    congrArg (·[i]) (apcNext_out s ld u), fun j hj => ?_⟩
  simp only [apcNext_stage, if_pos hj, apInput_succ]
  exact ⟨stageStep_read _ _ _ _ _ hn (hwf u j), stageStep_s2 _ _ _ _ _ hn, stageStep_s1 _ _ _ _ _ hn,
    stageStep_out _ _ _ _ _ hn⟩

/-- Settles O47: `eqW` is what is stored at the cursor, and `eqY` what L[ld] takes. -/
theorem eqSection : Obligations.EqSection := by
  intro s ld
  exact ⟨needsInit_of_exec (exec_eqn s ld), fun hi hwf => ⟨s.eqnNext ld,
    (exec_eqn s ld).trans (whenInit_of_initd _ _ _ hi), rfl, fun r h => setL_l_ne s ld r _ h, rfl,
    onlySlot_writeLanes _ _ _ _, fun _ hn => ⟨read_writeLanes_ofFn hwf _ _ hn, mapL_lane s ld _ hn⟩⟩⟩

end Sys2Proof.Machine

/-! SUPPORT. The tree sum read lane by lane: one stride, one channel, all channels (45_lane_ramp_sum_decim.md R228). -/

namespace Sys2Proof.Machine

/-- Lane `base + j`: the j-th lane of the channel whose first lane is `base`. -/
def laneFrom (v : Lanes) (base j : Nat) : Sample := v[Fin.ofNat 8 (base + j)]

theorem getElem_eq_laneFrom (v : Lanes) (base j : Nat) : v[Fin.ofNat 8 (base + j)] = laneFrom v base j := rfl

theorem laneFrom_of_lt (v : Lanes) {base j : Nat} (h : base + j < 8) : laneFrom v base j = v[base + j] := by
  simp [laneFrom, Nat.mod_eq_of_lt h]

section
variable (d : Nat → Nat → Draw) (base : Nat)

/-- One stride pairs lane j with lane j + stride, for j < stride. -/
theorem laneFrom_treeStep (v : Lanes) {stride j : Nat} (hb : base + 2 * stride ≤ 8) (hj : base + j < 8) :
    laneFrom (treeStep d base stride v) base j
      = if j < stride then fadd (d (base + j) stride) (laneFrom v base j) (laneFrom v base (j + stride))
        else laneFrom v base j := by
  rw [laneFrom_of_lt _ hj, laneFrom_of_lt _ hj, treeStep, Vector.getElem_ofFn]
  dsimp only
  by_cases hs : j < stride
  · have hsum : base + (j + stride) < 8 := by omega
    rw [dif_pos (by omega), if_pos hs, laneFrom_of_lt _ hsum]
    simp only [Fin.getElem_fin, Nat.add_assoc]
  · rw [dif_neg (by omega), if_neg hs]
    rfl

theorem treeStep_outside (stride : Nat) (v : Lanes) {k : Nat} (hk : k < 8) (h : k < base ∨ base + stride ≤ k) :
    (treeStep d base stride v)[k] = v[k] := by
  rw [treeStep, Vector.getElem_ofFn, dif_neg (by dsimp only; omega)]
  rfl

/-- The loop of a channel writes no lane outside the first half of the channel. -/
theorem treeSum_outside (fuel stride : Nat) (v : Lanes) {k : Nat} (hk : k < 8) (h : k < base ∨ base + stride ≤ k) :
    (treeSum d base fuel stride v)[k] = v[k] := by
  induction fuel generalizing stride v with
  | zero => rfl
  | succ fuel ih =>
    rw [treeSum]
    split
    · rfl
    · rw [ih _ _ (by omega), treeStep_outside d base stride v hk h]

/-! The strides of a channel of 1, 2, 4 or 8 lanes. -/

variable (v : Lanes)

theorem treeSum_one : treeSum d base 8 (1 / 2) v = v := rfl

theorem treeSum_two : treeSum d base 8 (2 / 2) v = treeStep d base 1 v := rfl

theorem treeSum_four : treeSum d base 8 (4 / 2) v = treeStep d base 1 (treeStep d base 2 v) := rfl

theorem treeSum_eight :
    treeSum d base 8 (8 / 2) v = treeStep d base 1 (treeStep d base 2 (treeStep d base 4 v)) := rfl

end

section
variable (d : Nat → Nat → Draw) (g : Nat) (v : Lanes)

/-- A channel's lanes are as they were until its turn comes. -/
theorem treeChannels_before (chs : Nat) {k : Nat} (hk : k < 8) (h : chs * g ≤ k) :
    (treeChannels d g v chs)[k] = v[k] := by
  induction chs with
  | zero => rfl
  | succ chs ih =>
    rw [Nat.succ_mul] at h
    rw [treeChannels, treeSum_outside d _ _ _ _ hk (.inr (by omega)), ih (by omega)]

/-- A channel's lanes are not written after its turn. -/
theorem treeChannels_after {ch chs : Nat} (hch : ch < chs) {k : Nat} (hk : k < 8) (h : k < (ch + 1) * g) :
    (treeChannels d g v chs)[k] = (treeChannels d g v (ch + 1))[k] := by
  induction chs, hch using Nat.le_induction with
  | base => rfl
  | succ chs hle ih =>
    have hmul : (ch + 1) * g ≤ chs * g := Nat.mul_le_mul_right g hle
    rw [treeChannels, treeSum_outside d _ _ _ _ hk (.inl (by omega)), ih]

end

end Sys2Proof.Machine

/-! PROOFS. The tree sum (45_lane_ramp_sum_decim.md R228). -/

namespace Sys2Proof.Machine

/-- Legal parameters share at most 8 lanes out to the channels without a rest (R6). -/
theorem lanes_of_legal {p : Params} (h : Params.legal p = true) : p.nch * (p.n / p.nch) = p.n ∧ p.n ≤ 8 := by
  simp only [Params.legal, Bool.and_eq_true, Bool.or_eq_true, beq_iff_eq] at h
  obtain ⟨⟨⟨⟨⟨⟨⟨hn, -⟩, hdvd⟩, -⟩, -⟩, -⟩, -⟩, -⟩ := h
  exact ⟨Nat.mul_div_cancel' (Nat.dvd_of_mod_eq_zero hdvd), by omega⟩

/-- Channel ch after LSUMT: its own loop, run on lanes that still hold what L[ld] held. -/
theorem exists_laneFrom_treeChannels (d : Nat → Nat → Draw) {g ch nch : Nat} (v : Lanes) (hch : ch < nch)
    (hn : nch * g ≤ 8) :
    ch * g + g ≤ 8 ∧ ∃ w : Lanes, (∀ j < g, laneFrom w (ch * g) j = laneFrom v (ch * g) j)
      ∧ ∀ j < g, laneFrom (treeChannels d g v nch) (ch * g) j
        = laneFrom (treeSum d (ch * g) 8 (g / 2) w) (ch * g) j := by
  have hle : (ch + 1) * g ≤ nch * g := Nat.mul_le_mul_right g hch
  have hmul : (ch + 1) * g = ch * g + g := Nat.succ_mul ch g
  refine ⟨by omega, treeChannels d g v ch, fun j hj => ?_, fun j hj => ?_⟩
  all_goals
    have hlt : ch * g + j < 8 := by omega
    rw [laneFrom_of_lt _ hlt, laneFrom_of_lt _ hlt]
  · exact treeChannels_before d g v ch hlt (by omega)
  · exact treeChannels_after d g v hch hlt (by omega)

/-- Settles O34: a channel's loop is one stride for G = 2, two for G = 4 and three for G = 8, and no other channel's
loop touches its lanes. -/
theorem lsumtTreeSum : Obligations.TreeSum := by
  intro s ld hlegal
  refine ⟨_, rfl, ⟨rfl, fun r h => setL_l_ne s ld r _ h⟩, fun ch hch => ?_⟩
  obtain ⟨hmul, h8⟩ := lanes_of_legal hlegal
  obtain ⟨hb, w, hold, hnew⟩ := exists_laneFrom_treeChannels s.at s.l[ld] hch (hmul.trans_le h8)
  simp only [setL_l_self, getElem_eq_laneFrom]
  refine ⟨fun h => ?_, fun h => ?_, fun h => ?_, fun h => ?_⟩
  all_goals
    simp only [h] at hb hold hnew ⊢
    simp (disch := omega) only [hnew, treeSum_one, treeSum_two, treeSum_four, treeSum_eight, laneFrom_treeStep, hold,
      Nat.reduceLT, Nat.reduceAdd, Nat.add_zero, if_true, if_false, and_self]

end Sys2Proof.Machine

/-! PROOFS. Lane moves and lane arithmetic, one lane in and out, the ramps and the decimator
(45_lane_ramp_sum_decim.md R210 to R219, R224, R226, R231). -/

namespace Sys2Proof.Machine

/-- Settles O30: each command maps its pattern over the lanes of L[ld]. -/
theorem laneMoves : Obligations.LaneMoves := fun _ _ _ _ _ =>
  ⟨answersL_of_exec rfl, answersL_of_exec rfl, answersL_of_exec rfl⟩

/-- Settles O31: each command maps its formula over the lanes of L[ld]; the scale 2^-sh of LXCVT is a normal number. -/
theorem laneArithmetic : Obligations.LaneArithmetic := by
  intro s ld la lb rs sh
  have hsh : sh.toNat < 127 := sh.isLt.trans (by decide)
  exact ⟨answersL_of_exec rfl, answersL_of_exec rfl, answersL_of_exec rfl, answersL_of_exec rfl, pow2neg sh.toNat,
    answersL_of_exec rfl, isFinite_pow2neg hsh, valQ_pow2neg hsh⟩

section
variable {s : State} {k : Lane} (r : XReg) (q : LReg)

theorem exec_lins_of_lt (hk : k.val < s.par.n) :
    exec (.lins q r k) s = .next (s.setL q (s.l[q].set k (s.x[r].setWidth 32))) := if_pos hk

theorem exec_lext_of_lt (hk : k.val < s.par.n) :
    exec (.lext r q k) s = .next (s.setX r (s.l[q][k].setWidth 64)) := if_pos hk

theorem takesFault_lins (hk : s.par.n ≤ k.val) : TakesFault (.lins q r k) s .index (encode (.lins q r k)) :=
  if_neg hk.not_gt

theorem takesFault_lext (hk : s.par.n ≤ k.val) : TakesFault (.lext r q k) s .index (encode (.lext r q k)) :=
  if_neg hk.not_gt

end

/-- Settles O32: below N each command is one write, of one lane or of X[r]. -/
theorem laneInsertExtract : Obligations.LaneInsertExtract := by
  intro s r q k
  refine ⟨fun hk => ⟨⟨_, exec_lins_of_lt r q hk, rfl, ?_, fun i hi => ?_, fun p hp => setL_l_ne s q p _ hp⟩,
    answersX_of_exec (exec_lext_of_lt r q hk)⟩, fun hk => ⟨takesFault_lins r q hk, takesFault_lext r q hk⟩⟩
  · rw [setL_l_self]
    exact Vector.getElem_set_self _
  · rw [setL_l_self]
    exact getElem_vector_set_ne _ _ hi

/-! The ramps. -/

/-- Slot k after PRAMP (R224). -/
def State.rampStepped (s : State) (k : Fin Config.nprm) : Ramp :=
  { s.prm[k] with val := onLanes s.par.n s.prm[k].val (s.ramped k) }

/-- Slot k after PEND (R226). -/
def State.rampEnded (s : State) (k : Fin Config.nprm) : Ramp :=
  { s.prm[k] with inc := onLanes s.par.n s.prm[k].inc fun _ => 0 }

/-- The state PRAMP leaves after INIT (R224). -/
def State.prampNext (s : State) (ld : LReg) (k : Fin Config.nprm) : State :=
  { s.mapL ld (s.ramped k) with prm := s.prm.set k (s.rampStepped k) }

/-- The state PEND leaves after INIT (R226). -/
def State.pendNext (s : State) (k : Fin Config.nprm) : State :=
  { s with prm := s.prm.set k (s.rampEnded k) }

section
variable (s : State) (ld : LReg) (k : Fin Config.nprm)

theorem exec_pramp : exec (.pramp ld k) s = s.whenInit (.pramp ld k) (s.prampNext ld k) := rfl

theorem exec_pend : exec (.pend k) s = s.whenInit (.pend k) (s.pendNext k) := rfl

theorem prampNext_prm_self : (s.prampNext ld k).prm[k] = s.rampStepped k := Vector.getElem_set_self _

theorem pendNext_prm_self : (s.pendNext k).prm[k] = s.rampEnded k := Vector.getElem_set_self _

theorem rampStepped_val {i : Lane} (hn : i.val < s.par.n) : (s.rampStepped k).val[i] = s.ramped k i :=
  onLanes_of_lt _ _ _ i hn

theorem rampEnded_inc {i : Lane} (hn : i.val < s.par.n) : (s.rampEnded k).inc[i] = 0#32 := onLanes_of_lt _ _ _ i hn

end

/-- Settles O33: PRAMP gives VAL and L[ld] the same sum, PEND writes INC alone. -/
theorem rampStep : Obligations.RampStep := by
  intro s ld k
  refine ⟨needsInit_of_exec (exec_pramp s ld k), needsInit_of_exec (exec_pend s k), fun hi => ⟨⟨s.prampNext ld k,
    (exec_pramp s ld k).trans (whenInit_of_initd _ _ _ hi), rfl, fun r h => setL_l_ne s ld r _ h, fun i hn => ?_, ?_,
    fun p h => getElem_vector_set_ne _ _ h⟩, ⟨s.pendNext k, (exec_pend s k).trans (whenInit_of_initd _ _ _ hi), rfl,
    fun i hn => ?_, ?_, fun p h => getElem_vector_set_ne _ _ h⟩⟩⟩
  · rw [prampNext_prm_self, rampStepped_val s k hn]
    exact ⟨rfl, mapL_lane s ld (s.ramped k) hn⟩
  · rw [prampNext_prm_self, State.rampStepped]
  · rw [pendNext_prm_self, rampEnded_inc s k hn]
  · rw [pendNext_prm_self, State.rampEnded]

/-! The decimator. -/

/-- What DECIM gives in lane i (R231). -/
def State.decimated (s : State) (ld : LReg) (i : Lane) : Sample :=
  if s.deccnt = 0#32 then fmul (s.at i 0) s.l[ld][i] (i2f s.decm.toNat) else 0#32

/-- The state DECIM leaves after INIT (R231). -/
def State.decimNext (s : State) (ld : LReg) : State :=
  { s.mapL ld (s.decimated ld) with deccnt := s.nextDeccnt }

theorem exec_decim (s : State) (ld : LReg) : exec (.decim ld) s = s.whenInit (.decim ld) (s.decimNext ld) := rfl

theorem decimNext_lane (s : State) (ld : LReg) {i : Lane} (hn : i.val < s.par.n) :
    (s.decimNext ld).l[ld][i] = s.decimated ld i := mapL_lane s ld _ hn

/-- Settles O35: DECCNT before the command says which of the two values every lane takes. -/
theorem decimatorStep : Obligations.DecimatorStep := by
  intro s ld
  refine ⟨needsInit_of_exec (exec_decim s ld), fun hi => ⟨s.decimNext ld,
    (exec_decim s ld).trans (whenInit_of_initd _ _ _ hi), rfl, fun r h => setL_l_ne s ld r _ h,
    fun hfirst i hn => ?_, fun hlater i hn => ?_, rfl⟩⟩
  · rw [decimNext_lane s ld hn, State.decimated, if_pos hfirst]
  · rw [decimNext_lane s ld hn, State.decimated, if_neg hlater]

end Sys2Proof.Machine

/-! SUPPORT. The search ends on a slot that brackets the target, or parks (46_tape.md R252). -/

namespace Sys2Proof.Machine

/-- `le` is the negation of the wrapping comparison (R10, R112). -/
theorem le64_iff (x y : XWord) : le64 x y = true ↔ ¬0 < (x - y).toInt := by
  simp [le64, compare64_eq]

theorem not_le64_iff (x y : XWord) : ¬le64 x y = true ↔ 0 < (x - y).toInt := by
  rw [le64_iff, not_not]

/-- The ways a search can end: between two entries, under on the oldest, or over on the newest. -/
inductive Lands (times : Nat → XWord) (target : XWord) (top : Nat) : Hit → Prop
  | between {p : Nat} (lt : p < top) (le : le64 (times p) target = true)
      (later : ¬le64 (times (p + 1)) target = true) : Lands times target top ⟨p, false, false⟩
  | parkUnder (later : ¬le64 (times 0) target = true) : Lands times target top ⟨0, true, false⟩
  | parkOver (le : le64 (times top) target = true) : Lands times target top ⟨top, false, true⟩

section
variable {times : Nat → XWord} {target : XWord} {top : Nat}

/-- The binary search keeps A(lo) ≤ target < A(hi) until the two are neighbours. -/
theorem bisect_brackets {fuel lo hi : Nat} (hfuel : hi - lo ≤ fuel) (hlt : lo < hi)
    (hlo : le64 (times lo) target = true) (hhi : ¬le64 (times hi) target = true) :
    bisect times target fuel lo hi < hi ∧ le64 (times (bisect times target fuel lo hi)) target = true
      ∧ ¬le64 (times (bisect times target fuel lo hi + 1)) target = true := by
  induction fuel generalizing lo hi with
  | zero => omega
  | succ fuel ih =>
    rw [bisect]
    split
    · split
      · next hmid => exact ih (by omega) (by omega) hmid hhi
      · next hmid =>
        obtain ⟨hpos, hbracket⟩ := ih (by omega) (by omega) hlo hmid
        exact ⟨by omega, hbracket⟩
    · have hnext : hi = lo + 1 := by omega
      subst hnext
      exact ⟨hlt, hlo, hhi⟩

theorem lands_bisect {lo hi : Nat} (hlt : lo < hi) (htop : hi ≤ top) (hlo : le64 (times lo) target = true)
    (hhi : ¬le64 (times hi) target = true) :
    Lands times target top ⟨bisect times target (hi - lo) lo hi, false, false⟩ := by
  obtain ⟨hpos, hle, hlater⟩ := bisect_brackets le_rfl hlt hlo hhi
  exact .between (by omega) hle hlater

/-- Each round towards newer raises `lo`, whose entry is not later than the target. -/
theorem lands_seekUp {fuel lo stride : Nat} (hfuel : top - lo < fuel) (htop : lo ≤ top) (hstride : 0 < stride)
    (hlo : le64 (times lo) target = true) : Lands times target top (seekUp times target top fuel lo stride) := by
  induction fuel generalizing lo stride with
  | zero => omega
  | succ fuel ih =>
    rw [seekUp]
    split
    · next heq => exact .parkOver (heq ▸ hlo)
    · split
      · next hprobe => exact ih (by omega) (by omega) (by omega) hprobe
      · next hprobe => exact lands_bisect (by omega) (by omega) hlo hprobe

/-- Each round towards older lowers `hi`, whose entry is later than the target. -/
theorem lands_seekDown {fuel hi stride : Nat} (hfuel : hi < fuel) (htop : hi ≤ top) (hstride : 0 < stride)
    (hhi : ¬le64 (times hi) target = true) : Lands times target top (seekDown times target fuel hi stride) := by
  induction fuel generalizing hi stride with
  | zero => omega
  | succ fuel ih =>
    rw [seekDown]
    split
    · next heq => exact .parkUnder (heq ▸ hhi)
    · split
      · next hprobe => exact lands_bisect (by omega) htop hprobe hhi
      · next hprobe => exact ih (by omega) (by omega) (by omega) hprobe

/-- From every start in the buffer the search ends in one of the three ways. -/
theorem lands_searchFrom (times : Nat → XWord) (target : XWord) {top p0 : Nat} (h0 : p0 ≤ top) :
    Lands times target top (searchFrom times target top p0) := by
  rw [searchFrom]
  split
  · next hle => exact lands_seekUp (by omega) h0 one_pos hle
  · next hlater => exact lands_seekDown (Nat.lt_succ_self _) h0 one_pos hlater

theorem Lands.pos_le {h : Hit} (hl : Lands times target top h) : h.pos ≤ top := by
  cases hl with
  | between lt _ _ => exact lt.le
  | parkUnder _ => exact Nat.zero_le _
  | parkOver _ => exact le_rfl

theorem Lands.isOver_iff {h : Hit} (hl : Lands times target top h) :
    h.isOver = true ↔ h.isUnder = false ∧ top ≤ h.pos := by
  cases hl with
  | between lt _ _ => simpa using lt
  | parkUnder _ => simp
  | parkOver _ => simp

theorem Lands.pos_eq_zero {h : Hit} (hl : Lands times target top h) (hu : h.isUnder = true) : h.pos = 0 := by
  cases hl with
  | between _ _ _ => cases hu
  | parkUnder _ => rfl
  | parkOver _ => cases hu

/-- R42: the entries not later than the target come before those later. -/
def OrderedFor (times : Nat → XWord) (target : XWord) (top : Nat) : Prop :=
  ∀ p q : Nat, p ≤ q → q ≤ top → le64 (times q) target = true → le64 (times p) target = true

/-- In an ordered buffer the entries not later than the target are those up to where the search ends, none when it ends
under. -/
theorem Lands.le64_iff_le_pos {h : Hit} (hl : Lands times target top h) (hord : OrderedFor times target top) {q : Nat}
    (hq : q ≤ top) : le64 (times q) target = true ↔ h.isUnder = false ∧ q ≤ h.pos := by
  cases hl with
  | @between p lt le later =>
    refine ⟨fun hle => ⟨rfl, ?_⟩, fun ⟨_, hqp⟩ => hord q p hqp lt.le le⟩
    by_contra hgt
    exact later (hord (p + 1) q (Nat.lt_of_not_le hgt) hq hle)
  | parkUnder later => exact ⟨fun hle => absurd (hord 0 q q.zero_le hq hle) later, fun ⟨hu, _⟩ => nomatch hu⟩
  | parkOver le => exact ⟨fun _ => ⟨rfl, hq⟩, fun _ => hord q top hq le_rfl le⟩

theorem Lands.isUnder_iff {h : Hit} (hl : Lands times target top h) (hord : OrderedFor times target top) :
    h.isUnder = true ↔ ∀ p, p ≤ top → ¬le64 (times p) target = true := by
  refine ⟨fun hu p hp hle => ?_, fun hall => ?_⟩
  · simp [hl.le64_iff_le_pos hord hp, hu] at hle
  · by_contra hu
    exact hall h.pos hl.pos_le ((hl.le64_iff_le_pos hord hl.pos_le).mpr ⟨by simpa using hu, le_rfl⟩)

theorem Lands.isOver_iff_le64 {h : Hit} (hl : Lands times target top h) (hord : OrderedFor times target top) :
    h.isOver = true ↔ le64 (times top) target = true := by
  rw [hl.isOver_iff, hl.le64_iff_le_pos hord le_rfl]

theorem Lands.pos_le_pos {h h' : Hit} (hl : Lands times target top h) (hl' : Lands times target top h')
    (hord : OrderedFor times target top) : h.pos ≤ h'.pos := by
  cases hu : h.isUnder with
  | true => exact (hl.pos_eq_zero hu).trans_le (Nat.zero_le _)
  | false =>
    have hle := (hl.le64_iff_le_pos hord hl.pos_le).mpr ⟨hu, le_rfl⟩
    exact ((hl'.le64_iff_le_pos hord hl.pos_le).mp hle).2

/-- In an ordered buffer a search can end in one way only. -/
theorem Lands.unique {h h' : Hit} (hl : Lands times target top h) (hl' : Lands times target top h')
    (hord : OrderedFor times target top) : h = h' := by
  have hu : h.isUnder = h'.isUnder := Bool.eq_iff_iff.mpr ((hl.isUnder_iff hord).trans (hl'.isUnder_iff hord).symm)
  have ho : h.isOver = h'.isOver :=
    Bool.eq_iff_iff.mpr ((hl.isOver_iff_le64 hord).trans (hl'.isOver_iff_le64 hord).symm)
  have hp : h.pos = h'.pos := (hl.pos_le_pos hl' hord).antisymm (hl'.pos_le_pos hl hord)
  cases h
  cases h'
  simp_all only

end

end Sys2Proof.Machine

/-! PROOFS. Where the search ends (46_tape.md R252, 10_state.md R42). -/

namespace Sys2Proof.Machine

/-- Settles O51: the three ways the search can end. -/
theorem searchBracketsTheTarget : Obligations.SearchBracketsTheTarget := by
  intro times target top p0 h0 h
  have hl : Lands times target top h := lands_searchFrom times target h0
  clear_value h
  simp only [← not_le64_iff]
  cases hl with
  | @between p lt le later =>
    have hne : times (p + 1) ≠ times p := fun heq => later (heq ▸ le)
    simp [lt, le, later, hne, lt.le]
  | parkUnder later => simp [later]
  | parkOver le => simp [le]

/-- Settles O52: in an ordered buffer the entries not later than the target are those up to the position found. -/
theorem searchFindsTheFloorSlot : Obligations.SearchFindsTheFloorSlot := by
  intro times target top p0 h0
  simp only [← not_le64_iff, not_not]
  intro hord
  have hl := lands_searchFrom times target h0
  exact ⟨hl.isUnder_iff hord, hl.isOver_iff_le64 hord,
    fun hu => ⟨hl.pos_le, (hl.le64_iff_le_pos hord hl.pos_le).mpr ⟨hu, le_rfl⟩,
      fun p hp hle => ((hl.le64_iff_le_pos hord hp).mp hle).2⟩,
    fun p1 h1 => (lands_searchFrom times target h1).unique hl hord⟩

end Sys2Proof.Machine

/-! PROOFS. The speed of the tape and the write (46_tape.md R244, R246). -/

namespace Sys2Proof.Machine

/-- The state TSPD leaves after INIT (R244). -/
def State.tspdNext (s : State) (rd : XReg) : State :=
  { s.setX rd s.nextSpeed with tape := { s.tape with speed := s.nextSpeed } }

/-- The buffer WBUF as TWR leaves it (R246). -/
def State.bufWritten (s : State) (ls : LReg) (rs : XReg) : TapeBuf :=
  s.tape.bufs[s.tape.wbuf].put s.par.tlog s.par.nch (s.tape.xwrite + s.x[rs]) s.l[ls]

/-- The state TWR leaves after INIT (R246). -/
def State.twrNext (s : State) (ls : LReg) (rs : XReg) : State :=
  { s with tape := { s.tape with
      xwrite := s.tape.xwrite + s.x[rs], bufs := s.tape.bufs.set s.tape.wbuf (s.bufWritten ls rs) } }

section
variable (s : State) (rd : XReg) (ls : LReg) (rs : XReg)

theorem exec_tspd : exec (.tspd rd) s = s.whenInit (.tspd rd) (s.tspdNext rd) := rfl

theorem exec_twr : exec (.twr ls rs) s = s.whenInit (.twr ls rs) (s.twrNext ls rs) := rfl

/-- `sra` is the division rounded toward minus infinity (R7). -/
theorem nextSpeed_eq : s.nextSpeed = s.tape.speed
    + BitVec.ofInt 64 ((s.tape.tspeed - s.tape.speed).toInt / 2 ^ s.tape.spdsh.toNat) := by
  rw [State.nextSpeed, ← toInt_sra, BitVec.ofInt_toInt]

theorem twrNext_buf_self : (s.twrNext ls rs).tape.bufs[s.tape.wbuf] = s.bufWritten ls rs := Vector.getElem_set_self _

theorem bufWritten_tv : (s.bufWritten ls rs).tv
    = Memory.write s.tape.bufs[s.tape.wbuf].tv s.tape.bufs[s.tape.wbuf].nw.toNat (s.tape.xwrite + s.x[rs]) := rfl

theorem bufWritten_ts {c : Fin 2} (hc : c.val < s.par.nch) : (s.bufWritten ls rs).ts[c]
    = Memory.write s.tape.bufs[s.tape.wbuf].ts[c] s.tape.bufs[s.tape.wbuf].nw.toNat s.l[ls][c.val] := by
  simp [State.bufWritten, TapeBuf.put, hc]

end

/-- Settles O48: X[rd] and SPEED take the same value. -/
theorem speedStep : Obligations.SpeedStep := fun s rd =>
  ⟨needsInit_of_exec (exec_tspd s rd), fun hi => ⟨s.tspdNext rd,
    (exec_tspd s rd).trans (whenInit_of_initd _ _ _ hi), rfl, fun r h => setX_x_ne s rd r _ h,
    setX_x_self s rd _, nextSpeed_eq s⟩⟩

/-- Settles O49: the time and each channel are one write at the cursor. -/
theorem tapeWrite : Obligations.TapeWrite := by
  intro s ls rs
  refine ⟨needsInit_of_exec (exec_twr s ls rs), fun hi ⟨_, _, _, htv, hts⟩ => ⟨s.twrNext ls rs,
    (exec_twr s ls rs).trans (whenInit_of_initd _ _ _ hi), rfl, fun o h => getElem_vector_set_ne _ _ h, ?_⟩⟩
  rw [twrNext_buf_self, bufWritten_tv]
  refine ⟨rfl, Memory.read_write_self _ (htv _) _ _, fun a ha => Memory.read_write_ne _ _ _ _ ha, fun c hc => ?_⟩
  rw [bufWritten_ts s ls rs hc]
  exact ⟨Memory.read_write_self _ (hts _ c) _ _, fun a ha => Memory.read_write_ne _ _ _ _ ha⟩

end Sys2Proof.Machine

/-! PROOFS. The seek (46_tape.md R250, R254, R256, R257). -/

namespace Sys2Proof.Machine

/-- The state TSEEK leaves after INIT (R250). -/
def State.tseekNext (s : State) (rs : XReg) (k : Fin 2) : State :=
  { s.setTap k (s.seekTap k s.x[rs]) with
    status := s.status.afterSeek (s.seekHit k s.x[rs]).isUnder (s.seekHit k s.x[rs]).isOver
      (s.seekPastStop k s.x[rs]) (k == s.tape.cur) (fgt (s.seekPbs k s.x[rs]) s.tape.fastth) }

section
variable (s : State) (rs : XReg) (k : Fin 2) (step : XWord)

theorem exec_tseek : exec (.tseek rs k) s = s.whenInit (.tseek rs k) (s.tseekNext rs k) := rfl

theorem tseekNext_tap_self : (s.tseekNext rs k).tape.taps[k] = s.seekTap k s.x[rs] := Vector.getElem_set_self _

theorem seekTarget_eq : s.seekTarget k step
    = if s.tape.taps[k].dir = .forwards then s.tape.xwrite - 0x2000000000000000#64
      else s.tape.taps[k].xread - step := by
  rw [State.seekTarget]
  cases s.tape.taps[k].dir <;> rfl

/-- The slots moved, read as a number of TLOG bits in two's complement (R256); with one slot there is only 0. -/
theorem signedLog_eq (log : Nat) (v : Word) :
    signedLog log v = if 2 * v.toNat < 2 ^ log then (v.toNat : Int) else (v.toNat : Int) - 2 ^ log := by
  have hhalf : v.toNat < 2 ^ (log - 1) ↔ 2 * v.toNat < 2 ^ log := by
    cases log with
    | zero => simp
    | succ log => rw [Nat.pow_succ', Nat.add_sub_cancel]; omega
  simp only [signedLog, hhalf]

theorem histAt_channel (old : Vector Sample 2) (n e : Word) {c : Fin 2} (hc : c.val < s.par.nch) :
    (s.histAt k old n e)[c]
      = Memory.read s.tape.bufs[s.tape.taps[k].buf].ts[c] ((n + e) &&& ringMask s.par.tlog).toNat :=
  (onChannels_get _ _ _ c).trans (if_pos hc)

theorem seekFrac_eq : s.seekFrac k step
    = if (s.seekHit k step).isUnder = true ∨ (s.seekHit k step).isOver = true then 0#32
      else fdiv (s.at 0 0)
        (i2f (s.seekTarget k step
          - Memory.read s.tape.bufs[s.tape.taps[k].buf].tv (s.seekSlot k step).toNat).toInt)
        (i2f (Memory.read s.tape.bufs[s.tape.taps[k].buf].tv (ringAdvance s.par.tlog (s.seekSlot k step) 1).toNat
          - Memory.read s.tape.bufs[s.tape.taps[k].buf].tv (s.seekSlot k step).toNat).toInt) := by
  simp only [State.seekFrac, Bool.or_eq_true]
  rfl

theorem tseekNext_status : (s.tseekNext rs k).status = { s.status with
    tapUnder := s.status.tapUnder || (s.seekHit k s.x[rs]).isUnder
    tapOver := s.status.tapOver || (s.seekHit k s.x[rs]).isOver
    revstop := s.status.revstop || (s.tape.taps[k].dir == .backwards
      && decide (0 < (s.tape.taps[k].xrevstop - s.seekTarget k s.x[rs]).toInt))
    fast := if k = s.tape.cur then fgt (s.seekPbs k s.x[rs]) s.tape.fastth else s.status.fast } := by
  simp only [State.tseekNext, Status.afterSeek, State.seekPastStop, compare64_eq, beq_iff_eq]

end

/-- Settles O50: the statement's target, search and slot are the model's, and its fields those of `seekTap`. -/
theorem tapeSeek : Obligations.TapeSeek := by
  intro s rs k
  refine ⟨needsInit_of_exec (exec_tseek s rs k), fun hi => ?_⟩
  intro p b m time target
  have htarget : target = s.seekTarget k s.x[rs] := (seekTarget_eq s k _).symm
  clear_value target
  subst htarget
  intro hit n moved hist
  refine ⟨s.tseekNext rs k, (exec_tseek s rs k).trans (whenInit_of_initd _ _ _ hi), rfl,
    fun o h => getElem_vector_set_ne _ _ h, ?_⟩
  rw [tseekNext_tap_self]
  refine ⟨rfl, rfl, rfl, rfl, rfl, rfl, rfl, rfl, seekFrac_eq s k _, ?_, fun c hc => ?_, tseekNext_status s rs k⟩
  · rw [← signedLog_eq]
    rfl
  · exact ⟨histAt_channel s k _ _ _ hc, histAt_channel s k _ _ _ hc, histAt_channel s k _ _ _ hc,
      histAt_channel s k _ _ _ hc⟩

end Sys2Proof.Machine

/-! SUPPORT. The lanes of the channels (46_tape.md R260, R266). -/

namespace Sys2Proof.Machine

/-- Every channel of legal parameters has its own lane (R6). -/
theorem nch_le_n_of_legal {p : Params} (h : Params.legal p = true) : p.nch ≤ p.n := by
  simp only [Params.legal, Bool.and_eq_true, Bool.or_eq_true, beq_iff_eq] at h
  obtain ⟨⟨⟨⟨⟨⟨⟨hn, -⟩, hdvd⟩, -⟩, -⟩, -⟩, -⟩, -⟩ := h
  exact Nat.le_of_dvd (by omega) (Nat.dvd_of_mod_eq_zero hdvd)

section
variable (s : State) (ld : LReg) (f : Fin 2 → Sample) (g : Lane → Sample)

/-- The lane of channel c holds what was computed for it. -/
theorem mapL_channelLanes_channel (hle : s.par.nch ≤ s.par.n) {c : Fin 2} (hc : c.val < s.par.nch) :
    (s.mapL ld (channelLanes s.par.nch f g)).l[ld][c.val] = f c := by
  have hlane := mapL_lane s ld (channelLanes s.par.nch f g) (k := ⟨c.val, by omega⟩) (hc.trans_le hle)
  exact hlane.trans (dif_pos ⟨hc, c.isLt⟩)

theorem mapL_channelLanes_rest {i : Lane} (hc : s.par.nch ≤ i.val) (hn : i.val < s.par.n) :
    (s.mapL ld (channelLanes s.par.nch f g)).l[ld][i] = g i :=
  (mapL_lane s ld _ hn).trans (dif_neg fun h => hc.not_gt h.1)

end

end Sys2Proof.Machine

/-! PROOFS. The tape read (46_tape.md R260). -/

namespace Sys2Proof.Machine

/-- Tap k as TRD leaves it (R260). -/
def State.tapRead (s : State) (k : Fin 2) : Tap :=
  { s.tape.taps[k] with aas := onChannels s.par.nch s.tape.taps[k].aas (s.tapOut k) }

/-- The state TRD leaves after INIT (R260). -/
def State.trdNext (s : State) (ld : LReg) (k : Fin 2) : State :=
  (s.mapL ld (channelLanes s.par.nch (s.tapOut k) fun _ => 0)).setTap k (s.tapRead k)

section
variable (s : State) (ld : LReg) (k : Fin 2)

theorem exec_trd : exec (.trd ld k) s = s.whenInit (.trd ld k) (s.trdNext ld k) := rfl

theorem trdNext_tap_self : (s.trdNext ld k).tape.taps[k] = s.tapRead k := Vector.getElem_set_self _

theorem trdNext_l : (s.trdNext ld k).l = (s.mapL ld (channelLanes s.par.nch (s.tapOut k) fun _ => 0)).l := rfl

theorem tapRead_aas {c : Fin 2} (hc : c.val < s.par.nch) : (s.tapRead k).aas[c] = s.tapOut k c :=
  (onChannels_get _ _ _ c).trans (if_pos hc)

end

/-- Settles O53: AAS and the channel's lane both take `tapOut`. -/
theorem tapeRead : Obligations.TapeRead := by
  intro s ld k
  refine ⟨needsInit_of_exec (exec_trd s ld k), fun hi hlegal => ⟨s.trdNext ld k,
    (exec_trd s ld k).trans (whenInit_of_initd _ _ _ hi), rfl, fun r h => setL_l_ne s ld r _ h,
    fun o h => getElem_vector_set_ne _ _ h, ?_, fun c hc => ?_,
    fun i hc hn => mapL_channelLanes_rest s ld _ _ hc hn⟩⟩
  · rw [trdNext_tap_self, State.tapRead]
  · rw [trdNext_tap_self, tapRead_aas s k hc, trdNext_l]
    exact ⟨rfl, mapL_channelLanes_channel s ld _ _ (nch_le_n_of_legal hlegal) hc⟩

end Sys2Proof.Machine

/-! PROOFS. Reversal and modes (46_tape.md R262 to R264). -/

namespace Sys2Proof.Machine

theorem reversed_of_fading {s : State} (hf : s.status.fading = true) :
    s.reversed = { s with status := { s.status with revdrop := true } } := if_pos hf

theorem reversed_of_not_fading {s : State} (hf : s.status.fading = false) :
    s.reversed = { s with
      status := { s.status with fading := true }
      tape := { s.tape with
        taps := s.tape.taps.set (otherTap s.tape.cur) s.newTap, cur := otherTap s.tape.cur, fcnt := 0 } } :=
  if_neg (by simp [hf])

/-- `s` with a new tape mode. -/
def State.withMode (s : State) (m : Mode) : State := { s with tape := { s.tape with mode := m } }

/-- The tap TREV turns from, and after it the one turned to (R262). -/
def State.curTap (s : State) : Tap := s.tape.taps[s.tape.cur]

theorem curTap_reversed {s : State} (hf : s.status.fading = false) : s.reversed.curTap = s.newTap :=
  (congrArg State.curTap (reversed_of_not_fading hf)).trans (Vector.getElem_set_self _)

theorem Dir.flip_eq (d : Dir) : d.flip = if d = .forwards then .backwards else .forwards := by
  cases d <;> rfl

/-- A mode asks for another direction than the tap has when NORMAL meets a backward or REVERSE a forward tap (R264). -/
theorem wantedDir_ne_iff (m : Mode) (d : Dir) :
    wantedDir m d ≠ d ↔ (m = .normal ∧ d = .backwards) ∨ (m = .reverse ∧ d = .forwards) := by
  cases m <;> cases d <;> decide

theorem exec_trev {s : State} (hi : s.status.initd = true) : exec .trev s = .next s.reversed :=
  whenInit_of_initd _ _ _ hi

theorem exec_tmode_keeps {s : State} (hi : s.status.initd = true) {m : Mode}
    (hm : wantedDir m s.tape.taps[s.tape.cur].dir = s.tape.taps[s.tape.cur].dir) :
    exec (.tmode m) s = .next (s.withMode m) :=
  (whenInit_of_initd _ _ _ hi).trans (congrArg _ (if_pos hm))

theorem exec_tmode_turns {s : State} (hi : s.status.initd = true) {m : Mode}
    (hm : wantedDir m s.tape.taps[s.tape.cur].dir ≠ s.tape.taps[s.tape.cur].dir) :
    exec (.tmode m) s = .next (s.withMode m).reversed :=
  (whenInit_of_initd _ _ _ hi).trans (congrArg _ (if_neg hm))

/-- Settles O54: TMODE reverses the state with the mode already written. -/
theorem reversal : Obligations.Reversal := by
  intro s
  refine ⟨needsInit_of_exec rfl, fun m => needsInit_of_exec (i := .tmode m) rfl, fun hi => ?_⟩
  simp only [← Dir.flip_eq, ← wantedDir_ne_iff]
  refine ⟨fun hf => ?_, fun hf => ?_, fun m =>
    ⟨fun hm => exec_tmode_keeps hi (not_not.mp hm), fun hm hf => ?_, fun hm hf => ?_⟩⟩
  · rw [exec_trev hi, reversed_of_not_fading hf]
    rfl
  · rw [exec_trev hi, reversed_of_fading hf]
  · rw [exec_tmode_turns hi hm, reversed_of_not_fading (s := s.withMode m) hf]
    rfl
  · rw [exec_tmode_turns hi hm, reversed_of_fading (s := s.withMode m) hf]
    rfl

end Sys2Proof.Machine

/-! PROOFS. The mix of a fade (46_tape.md R266). -/

namespace Sys2Proof.Machine

/-- L[ld] as TMIX writes it while a fade runs (R266). -/
def State.fadeMixed (s : State) (ld lcur lold : LReg) : State :=
  s.mapL ld (channelLanes s.par.nch (s.mixed lcur lold) fun i => s.l[lcur][i])

section
variable (s : State) (ld lcur lold : LReg)

theorem exec_tmix : exec (.tmix ld lcur lold) s = s.whenInit (.tmix ld lcur lold) (s.afterMix ld lcur lold) := rfl

variable {s}

theorem afterMix_of_not_fading (hf : s.status.fading = false) :
    s.afterMix ld lcur lold = s.mapL ld fun i => s.l[lcur][i] := if_neg (by simp [hf])

theorem afterMix_of_fading (hf : s.status.fading = true) :
    s.afterMix ld lcur lold = (s.fadeMixed ld lcur lold).fadeCounted := if_pos hf

theorem fcnt_succ_eq_iff (n : BitVec 9) : n + 1#9 = 256#9 ↔ n.toNat + 1 = 256 := by
  bv_omega

theorem fadeCounted_of_last (h : s.tape.fcnt.toNat + 1 = 256) : s.fadeCounted =
    { s with status := { s.status with fading := false }, tape := { s.tape with fcnt := 0#9 } } :=
  if_pos ((fcnt_succ_eq_iff _).mpr h)

theorem fadeCounted_of_more (h : s.tape.fcnt.toNat + 1 ≠ 256) :
    s.fadeCounted = { s with tape := { s.tape with fcnt := s.tape.fcnt + 1#9 } } :=
  if_neg fun heq => h ((fcnt_succ_eq_iff _).mp heq)

end

/-- Counting a sample of the fade changes FADING and FCNT alone. -/
theorem fadeCounted_only (s : State) : s.fadeCounted = { s with
    status := { s.status with fading := s.fadeCounted.status.fading }
    tape := { s.tape with fcnt := s.fadeCounted.tape.fcnt } } := by
  by_cases h : s.tape.fcnt.toNat + 1 = 256
  · rw [fadeCounted_of_last h]
  · rw [fadeCounted_of_more h]

theorem fadeCounted_l (s : State) : s.fadeCounted.l = s.l :=
  (congrArg State.l (fadeCounted_only s)).trans rfl

/-- Settles O55: without a fade only L[ld] is written; with one, the blend is, and the sample is counted. -/
theorem tapeMix : Obligations.TapeMix := by
  intro s ld lcur lold
  refine ⟨needsInit_of_exec (exec_tmix s ld lcur lold), fun hi hlegal => ⟨s.afterMix ld lcur lold,
    (exec_tmix s ld lcur lold).trans (whenInit_of_initd _ _ _ hi), ?_⟩⟩
  cases hf : s.status.fading with
  | false =>
    rw [afterMix_of_not_fading ld lcur lold hf]
    exact ⟨fun r h => setL_l_ne s ld r _ h, rfl,
      fun _ => ⟨hf, rfl, fun _ hn => mapL_lane s ld _ hn⟩, (nomatch ·)⟩
  | true =>
    rw [afterMix_of_fading ld lcur lold hf, OnlyLanesOf, fadeCounted_l]
    refine ⟨fun r h => setL_l_ne s ld r _ h, fadeCounted_only _, (nomatch ·), fun _ =>
      ⟨fun _ hc => mapL_channelLanes_channel s ld _ _ (nch_le_n_of_legal hlegal) hc,
        fun _ hc hn => mapL_channelLanes_rest s ld _ _ hc hn, fun hlast => ?_, fun hmore => ?_⟩⟩
    · rw [fadeCounted_of_last (s := s.fadeMixed ld lcur lold) hlast]
      exact ⟨rfl, rfl⟩
    · rw [fadeCounted_of_more (s := s.fadeMixed ld lcur lold) hmore]
      exact ⟨hf, rfl⟩

end Sys2Proof.Machine

/-! PROOFS. Runs of one command: the length of a fade, and forward against reverse (46_tape.md R261, R266, R270). -/

namespace Sys2Proof.Machine

/-- The last of k + 1 commands runs in the state the first k leave. -/
theorem execTimes_succ_last {i : Instr} {k : Nat} {s t : State} (h : execTimes i k s = .next t) :
    execTimes i (k + 1) s = exec i t := by
  induction k generalizing s with
  | zero =>
    obtain rfl : s = t := Host.Outcome.next.inj h
    cases hs : exec i s <;> simp [execTimes, hs]
  | succ k ih =>
    rw [execTimes] at h ⊢
    split at h
    · next u hu => simpa only [hu] using ih h
    · cases h
    · cases h

/-- What holds at the start and is moved on by each of the first K commands holds after K of them. -/
theorem execTimes_induction {i : Instr} {s : State} (P : Nat → State → Prop) (K : Nat) (hzero : P 0 s)
    (hstep : ∀ k t, k < K → P k t → ∃ u, exec i t = .next u ∧ P (k + 1) u) :
    ∃ t, execTimes i K s = .next t ∧ P K t := by
  induction K with
  | zero => exact ⟨s, rfl, hzero⟩
  | succ K ih =>
    obtain ⟨t, ht, hP⟩ := ih fun k t hk => hstep k t (hk.trans (Nat.lt_succ_self K))
    obtain ⟨u, hu, hPu⟩ := hstep K t (Nat.lt_succ_self K) hP
    exact ⟨u, (execTimes_succ_last ht).trans hu, hPu⟩

/-! The length of a fade. -/

/-- A fade of which k samples were mixed (R261). -/
def FadeAt (k : Nat) (s : State) : Prop :=
  s.status.initd = true ∧ s.status.fading = true ∧ s.tape.fcnt.toNat = k

section
variable {s : State} (ld lcur lold : LReg)

theorem fadeAt_fadeMixed {k : Nat} (h : FadeAt k s) : FadeAt k (s.fadeMixed ld lcur lold) := h

theorem exec_tmix_of_fading {k : Nat} (h : FadeAt k s) :
    exec (.tmix ld lcur lold) s = .next (s.fadeMixed ld lcur lold).fadeCounted := by
  obtain ⟨hi, hf, -⟩ := h
  rw [exec_tmix, whenInit_of_initd _ _ _ hi, afterMix_of_fading ld lcur lold hf]

theorem fadeAt_fadeCounted {k : Nat} (hk : k < 255) (h : FadeAt k s) : FadeAt (k + 1) s.fadeCounted := by
  obtain ⟨hi, hf, hfcnt⟩ := h
  rw [fadeCounted_of_more (by omega)]
  exact ⟨hi, hf, by bv_omega⟩

theorem exists_execTimes_fadeAt (h : FadeAt 0 s) {k : Nat} (hk : k < 256) :
    ∃ t, execTimes (.tmix ld lcur lold) k s = .next t ∧ FadeAt k t :=
  execTimes_induction FadeAt k h fun _ _ hj hP =>
    ⟨_, exec_tmix_of_fading ld lcur lold hP, fadeAt_fadeCounted (by omega) (fadeAt_fadeMixed ld lcur lold hP)⟩

end

/-- Settles O56: each TMIX counts one sample, and the one that finds FCNT = 255 ends the fade. -/
theorem fadeLasts256 : Obligations.FadeLasts256 := by
  intro s ld lcur lold hi hf hfcnt
  have hstart : FadeAt 0 s := ⟨hi, hf, congrArg BitVec.toNat hfcnt⟩
  refine ⟨fun k hk => ?_, ?_⟩
  · obtain ⟨t, ht, -, hft, hk'⟩ := exists_execTimes_fadeAt ld lcur lold hstart hk
    exact ⟨t, ht, hft, hk'⟩
  · obtain ⟨t, ht, hlast⟩ := exists_execTimes_fadeAt ld lcur lold hstart (Nat.lt_succ_self 255)
    refine ⟨_, (execTimes_succ_last ht).trans (exec_tmix_of_fading ld lcur lold hlast), ?_⟩
    obtain ⟨-, -, h255⟩ := fadeAt_fadeMixed ld lcur lold hlast
    rw [fadeCounted_of_last (by omega)]
    exact ⟨rfl, rfl⟩

/-! Forward against reverse. -/

theorem ofNat_succ_mul (k : Nat) (step : XWord) :
    BitVec.ofNat 64 (k + 1) * step = BitVec.ofNat 64 k * step + step := by
  rw [BitVec.ofNat_add, BitVec.add_mul]
  simp

/-- What k TWR leave of `s`: XWRITE has moved by X[rs] each time; flags, taps and X registers are as they were. -/
structure WrittenTimes (s : State) (rs : XReg) (k : Nat) (t : State) : Prop where
  status : t.status = s.status
  x : t.x = s.x
  taps : t.tape.taps = s.tape.taps
  cur : t.tape.cur = s.tape.cur
  xwrite : t.tape.xwrite = s.tape.xwrite + BitVec.ofNat 64 k * s.x[rs]

theorem writtenTimes_zero (s : State) (rs : XReg) : WrittenTimes s rs 0 s :=
  ⟨rfl, rfl, rfl, rfl, by simp⟩

theorem writtenTimes_twrNext {s t : State} {rs : XReg} {k : Nat} (ls : LReg) (h : WrittenTimes s rs k t) :
    WrittenTimes s rs (k + 1) (t.twrNext ls rs) := by
  refine ⟨h.status, h.x, h.taps, h.cur, ?_⟩
  rw [State.twrNext, h.xwrite, h.x, ofNat_succ_mul, BitVec.add_assoc]

theorem exists_execTimes_twr {s : State} (hi : s.status.initd = true) (ls : LReg) (rs : XReg) (K : Nat) :
    ∃ t, execTimes (.twr ls rs) K s = .next t ∧ WrittenTimes s rs K t := by
  refine execTimes_induction (WrittenTimes s rs) K (writtenTimes_zero s rs) fun k t _ ht =>
    ⟨t.twrNext ls rs, ?_, writtenTimes_twrNext ls ht⟩
  rw [exec_twr, whenInit_of_initd _ _ _ (by rw [ht.status, hi])]

theorem WrittenTimes.curTap {s t : State} {rs : XReg} {k : Nat} (h : WrittenTimes s rs k t) : t.curTap = s.curTap := by
  simp only [State.curTap, h.taps, h.cur]

/-- Tap `tap` moves backward and stands at `time`; the machine is ready to seek it by X[rs] = `step`. -/
def BackwardAt (rs : XReg) (tap : Fin 2) (step time : XWord) (t : State) : Prop :=
  t.status.initd = true ∧ t.x[rs] = step ∧ t.tape.taps[tap].dir = .backwards ∧ t.tape.taps[tap].xread = time

theorem backwardAt_tseekNext {rs : XReg} {tap : Fin 2} {step time : XWord} {t : State}
    (h : BackwardAt rs tap step time t) : BackwardAt rs tap step (time - step) (t.tseekNext rs tap) := by
  obtain ⟨hi, hx, hd, ht⟩ := h
  refine ⟨hi, hx, ?_, ?_⟩
  · rw [tseekNext_tap_self]
    exact hd
  · rw [tseekNext_tap_self, State.seekTap, seekTarget_eq, hd, hx, ht]
    rfl

theorem exists_execTimes_tseek {rs : XReg} {tap : Fin 2} {step time : XWord} {s : State}
    (h : BackwardAt rs tap step time s) (K : Nat) :
    ∃ t, execTimes (.tseek rs tap) K s = .next t ∧ BackwardAt rs tap step (time - BitVec.ofNat 64 K * step) t := by
  refine execTimes_induction (fun k => BackwardAt rs tap step (time - BitVec.ofNat 64 k * step)) K (by simpa using h)
    fun k t _ ht => ⟨t.tseekNext rs tap, ?_, ?_⟩
  · obtain ⟨hi, -⟩ := ht
    rw [exec_tseek, whenInit_of_initd _ _ _ hi]
  · rw [ofNat_succ_mul, ← sub_sub]
    exact backwardAt_tseekNext ht

/-- A forward seek puts the tap one delay unit behind XWRITE (R250). -/
theorem tseekNext_xread_of_forwards {s : State} {k : Fin 2} (hd : s.tape.taps[k].dir = .forwards) (rs : XReg) :
    (s.tseekNext rs k).tape.taps[k].xread = s.tape.xwrite - 0x2000000000000000#64 := by
  rw [tseekNext_tap_self, State.seekTap, seekTarget_eq, if_pos hd]

/-- The reversal of a forward tap makes the other one current, backward and one delay unit behind XWRITE (R262). -/
theorem backwardAt_reversed {s : State} (hi : s.status.initd = true) (hf : s.status.fading = false)
    (hd : s.tape.taps[s.tape.cur].dir = .forwards) (rs : XReg) :
    BackwardAt rs s.reversed.tape.cur s.x[rs] (s.tape.xwrite - 0x2000000000000000#64) s.reversed := by
  have htap : s.reversed.tape.taps[s.reversed.tape.cur] = s.newTap := curTap_reversed hf
  rw [BackwardAt, htap, reversed_of_not_fading hf]
  exact ⟨hi, rfl, congrArg Dir.flip hd, rfl⟩

/-- Settles O57: K steps forward of XWRITE and K steps back of XREAD cancel. -/
theorem forwardReverseSymmetry : Obligations.ForwardReverseSymmetry := by
  intro s ls rs K hi hf hd
  obtain ⟨s1, hrun, hw⟩ := exists_execTimes_twr hi ls rs K
  rw [← hw.status] at hi hf
  have hd1 : s1.tape.taps[s1.tape.cur].dir = .forwards := (congrArg Tap.dir hw.curTap).trans hd
  rw [← hw.xwrite]
  have hstart : s1.reversed.curTap.xread = s1.tape.xwrite - 0x2000000000000000#64 :=
    congrArg Tap.xread (curTap_reversed hf)
  obtain ⟨s3, hback, -, -, -, hread⟩ := exists_execTimes_tseek (backwardAt_reversed hi hf hd1 rs) K
  refine ⟨s1, hrun, ⟨s1.tseekNext rs s1.tape.cur, (exec_tseek _ _ _).trans (whenInit_of_initd _ _ _ hi),
    tseekNext_xread_of_forwards hd1 rs⟩, s1.reversed, exec_trev hi, hstart, s3, hback, ?_⟩
  rw [hread, hw.xwrite, hw.x]
  ring

end Sys2Proof.Machine

/-! PROOFS. The system commands NOP and INIT, and their words (47_system.md R280, R282). -/

namespace Sys2Proof

/-! A command without operands has one word. -/

/-- The row of a command without operands: every field must be zero. -/
def bareRow (i : Instr) : Row := ⟨.zero, .zero, .zero, .zero, fun _ => i⟩

theorem bareRow_zeroOk_iff (i : Instr) (w : Word) :
    (bareRow i).zeroOk w = true ↔ w = packR (fieldOp w) 0 0 0 0 := by
  constructor
  · intro h
    simp only [bareRow, Row.zeroOk, FieldKind.zeroOk, ImmKind.zeroOk, Bool.and_eq_true, beq_iff_eq] at h
    obtain ⟨⟨⟨ha, hb⟩, hc⟩, himm⟩ := h
    calc w = packR (fieldOp w) (fieldA w) (fieldB w) (fieldC w) (fieldImm12 w) := (packR_fields w).symm
      _ = packR (fieldOp w) 0 0 0 0 := by rw [ha, hb, hc, himm]
  · intro h
    rw [h]
    simp [bareRow, Row.zeroOk, FieldKind.zeroOk, ImmKind.zeroOk]

/-- A word of the opcode of such a command is the command's word or has a reserved field set. -/
theorem decode_of_bareRow {n : Nat} {op : BitVec 8} {i : Instr} (hr : rowOf n op = some (bareRow i)) {w : Word}
    (hop : fieldOp w = op) :
    decode n w = if w = packR op 0 0 0 0 then .ok i else .error .resvd := by
  have hz := bareRow_zeroOk_iff i w
  rw [hop] at hz
  simp only [decode, hop, hr, ← hz]
  cases (bareRow i).zeroOk w <;> rfl

theorem decode_eq_ok_of_bareRow {n : Nat} {op : BitVec 8} {i : Instr} (hr : rowOf n op = some (bareRow i)) (w : Word) :
    decode n w = .ok i ↔ w = packR op 0 0 0 0 := by
  constructor
  · intro h
    obtain ⟨r, hrow, -, rfl⟩ := decode_eq_ok_iff.mp h
    have hop : fieldOp w = op := (fieldOp_encode_build hrow w).symm.trans (fieldOp_encode_build hr w)
    rw [decode_of_bareRow hr hop] at h
    by_contra hw
    rw [if_neg hw] at h
    cases h
  · rintro rfl
    rw [decode_of_bareRow hr (fieldOp_packR _ _ _ _ _), if_pos rfl]

theorem decode_eq_resvd_of_bareRow {n : Nat} {op : BitVec 8} {i : Instr} (hr : rowOf n op = some (bareRow i)) {w : Word}
    (hop : fieldOp w = op) (hw : w ≠ packR op 0 0 0 0) : decode n w = .error .resvd := by
  rw [decode_of_bareRow hr hop, if_neg hw]

end Sys2Proof

namespace Sys2Proof.Machine

/-- Settles O18: NOP has no operands, and a core that is not halted runs the word it decodes. -/
theorem nopDoesNothing : Obligations.NopDoesNothing := by
  refine ⟨fun _ => rfl, fun s rest hin hrun => ?_, fun n w =>
    ⟨decode_eq_ok_of_bareRow (op := 0x00#8) rfl w, decode_eq_resvd_of_bareRow (op := 0x00#8) rfl⟩⟩
  have hfault : s.status.fault = none := by simpa [State.halted] using hrun
  rw [(stepRunsTheDecodedInstruction s 0#32 rest .nop hfault rfl).1 hin]
  rfl

/-! What INIT leaves of each unit (R282). -/

section
variable (s : State)

@[simp] theorem SosSection.afterInit_afterInit (c : SosSection) : c.afterInit.afterInit = c.afterInit := rfl

theorem SosBank.afterInit_sec (b : SosBank) (j : Fin Config.nsecmax) :
    b.afterInit.sec[j] = b.sec[j].afterInit := by
  simp [SosBank.afterInit]

@[simp] theorem SosBank.afterInit_afterInit (b : SosBank) : b.afterInit.afterInit = b.afterInit := by
  simp [SosBank.afterInit]

@[simp] theorem DelayLine.afterInit_afterInit (d : DelayLine) : d.afterInit.afterInit = d.afterInit := rfl

theorem Cascade.afterInit_stages (c : Cascade) (j : Fin Config.nstagemax) :
    c.afterInit.stages[j] = ApStage.reset := by
  simp [Cascade.afterInit]

@[simp] theorem Cascade.afterInit_afterInit (c : Cascade) : c.afterInit.afterInit = c.afterInit := rfl

theorem TapeBuf.reset_ts (c : Fin 2) : TapeBuf.reset.ts[c] = [] := by simp [TapeBuf.reset]

theorem afterInit_ph (k : Fin Config.nosc) : s.afterInit.ph[k] = 0 := by simp [State.afterInit]

theorem afterInit_sos (b : Fin Config.nbank) : s.afterInit.sos[b] = s.sos[b].afterInit := by simp [State.afterInit]

theorem afterInit_lp1 (k : Fin Config.nlp) : s.afterInit.lp1[k] = { s.lp1[k] with s := Lanes.zero } := by
  simp [State.afterInit]

theorem afterInit_dcb (k : Fin Config.ndc) :
    s.afterInit.dcb[k] = { s.dcb[k] with x1 := Lanes.zero, y1 := Lanes.zero } := by
  simp [State.afterInit]

theorem afterInit_dl (u : Fin Config.ndl) : s.afterInit.dl[u] = s.dl[u].afterInit := by simp [State.afterInit]

theorem afterInit_ap (u : Fin Config.nap) : s.afterInit.ap[u] = s.ap[u].afterInit := by simp [State.afterInit]

theorem afterInit_prm (p : Fin Config.nprm) : s.afterInit.prm[p] = { s.prm[p] with inc := Lanes.zero } := by
  simp [State.afterInit]

theorem afterInit_bufs (b : Fin 2) : s.afterInit.tape.bufs[b] = TapeBuf.reset := by
  simp [State.afterInit, Tape.afterInit]

theorem afterInit_taps (k : Fin 2) : s.afterInit.tape.taps[k] = Tap.reset := by
  simp [State.afterInit, Tape.afterInit]

theorem lanesZero_lane (i : Lane) : Lanes.zero[i] = 0#32 := by simp

theorem allZero_nil {w : Nat} : AllZero ([] : Memory w) := fun _ => rfl

/-- List (a) of R282. -/
theorem cleared_afterInit : s.afterInit.Cleared := by
  refine ⟨afterInit_ph s, ?sections, ?lp1, ?dcb, ?dl, ?lcg, ?apid, ?apMemory, ?apCells, allZero_nil, rfl, ?prm, rfl,
    ?bufs, ?frames, rfl, rfl, rfl, rfl, ?taps, ?tapHistory, rfl, rfl, rfl, rfl, rfl, rfl⟩
  case sections => intro b j i; rw [afterInit_sos, SosBank.afterInit_sec]; exact ⟨lanesZero_lane i, lanesZero_lane i⟩
  case lp1 => intro k i; rw [afterInit_lp1]; exact lanesZero_lane i
  case dcb => intro k i; rw [afterInit_dcb]; exact ⟨lanesZero_lane i, lanesZero_lane i⟩
  case dl => intro u; rw [afterInit_dl]; exact ⟨allZero_nil, rfl, rfl⟩
  case lcg => exact lanesZero_lane
  case apid => intro u; rw [afterInit_ap]; rfl
  case apMemory => intro u j; rw [afterInit_ap, Cascade.afterInit_stages]; exact allZero_nil
  case apCells => intro u j i; rw [afterInit_ap, Cascade.afterInit_stages]; exact ⟨lanesZero_lane i, lanesZero_lane i⟩
  case prm => intro p i; rw [afterInit_prm]; exact lanesZero_lane i
  case bufs => intro b; rw [afterInit_bufs]; exact ⟨allZero_nil, rfl⟩
  case frames => intro b c; rw [afterInit_bufs, TapeBuf.reset_ts]; exact allZero_nil
  case taps => intro k; rw [afterInit_taps]; exact ⟨rfl, rfl, rfl, rfl, rfl, rfl, rfl, rfl, rfl⟩
  case tapHistory => intro k c; rw [afterInit_taps]; simp [Tap.reset]

/-- List (b) of R282. -/
theorem kept_afterInit : State.Kept s s.afterInit := by
  refine ⟨rfl, rfl, ?sections, ?nsect, ?lp1, ?dcb, ?ap, ⟨rfl, rfl, rfl, rfl, rfl, rfl⟩, ?dl, rfl, ?prm, rfl, rfl, rfl,
    rfl, rfl, rfl, rfl, rfl, rfl, rfl, rfl, rfl, rfl, rfl⟩
  case sections => intro b j; rw [afterInit_sos, SosBank.afterInit_sec]; exact ⟨rfl, rfl, rfl, rfl, rfl⟩
  case nsect => intro b; rw [afterInit_sos]; rfl
  case lp1 => intro k; rw [afterInit_lp1]
  case dcb => intro k; rw [afterInit_dcb]
  case ap => intro u; rw [afterInit_ap]; exact ⟨rfl, rfl, rfl, rfl⟩
  case dl => intro u; rw [afterInit_dl]; exact ⟨rfl, rfl⟩
  case prm => intro p; rw [afterInit_prm]

theorem exec_init : exec .init s = .next s.afterInit := rfl

theorem afterInit_afterInit : s.afterInit.afterInit = s.afterInit := by
  simp [State.afterInit, Status.afterInit, Tape.afterInit]

end

/-- Settles O19: INIT answers `afterInit`, an idempotent update. -/
theorem initClearsAndKeeps : Obligations.InitClearsAndKeeps :=
  ⟨fun s => ⟨s.afterInit, exec_init s, cleared_afterInit s, kept_afterInit s, rfl, by
      rw [exec_init, afterInit_afterInit]⟩,
    fun n w => ⟨decode_eq_ok_of_bareRow (op := 0x01#8) rfl w, decode_eq_resvd_of_bareRow (op := 0x01#8) rfl⟩⟩

end Sys2Proof.Machine

/-! PROOFS. The CFG commands (47_system.md R284, R286). -/

namespace Sys2Proof.Machine

/-- The address of CFGR and CFGW as a number. -/
theorem cfgAddress_eq (base : XWord) (off : BitVec 12) :
    cfgAddress base off = BitVec.ofNat 16 (base.toNat % 2 ^ 16 + off.toNat) := by
  apply BitVec.eq_of_toNat_eq
  simp [cfgAddress]

section
variable {s : State} {r rb : XReg} {off : BitVec 12} {wd : CfgWord}

theorem exec_cfgr_mapped (hw : cfgWord s.par (cfgAddress s.x[rb] off) = some wd) :
    exec (.cfgr r rb off) s = .next (s.setX r ((s.word wd).setWidth 64)) := by
  simp only [exec, execCfgr, hw, zextWord]

theorem takesFault_cfgr (hw : cfgWord s.par (cfgAddress s.x[rb] off) = none) :
    TakesFault (.cfgr r rb off) s .cfgaddr (encode (.cfgr r rb off)) := by
  simp only [TakesFault, exec, execCfgr, hw, State.raise]

theorem exec_cfgw_writable (hw : cfgWord s.par (cfgAddress s.x[rb] off) = some wd) (hrw : wd.writable = true) :
    exec (.cfgw r rb off) s = .next (s.storeWord wd (s.x[r].setWidth 32)) := by
  simp only [exec, execCfgw, hw, hrw, if_true, lowWord]

theorem takesFault_cfgw_readOnly (hw : cfgWord s.par (cfgAddress s.x[rb] off) = some wd) (hro : wd.writable = false) :
    TakesFault (.cfgw r rb off) s .cfgaddr (encode (.cfgw r rb off)) := by
  simp only [TakesFault, exec, execCfgw, hw, hro, Bool.false_eq_true, if_false, State.raise]

theorem takesFault_cfgw_unmapped (hw : cfgWord s.par (cfgAddress s.x[rb] off) = none) :
    TakesFault (.cfgw r rb off) s .cfgaddr (encode (.cfgw r rb off)) := by
  simp only [TakesFault, exec, execCfgw, hw, State.raise]

end

/-- Settles O21: CFGR writes X[rd] at a mapped address and takes the fault at any other. -/
theorem cfgrReads : Obligations.CfgrReads := by
  intro s rd rb off
  rw [← cfgAddress_eq]
  cases hw : cfgWord s.par (cfgAddress s.x[rb] off) with
  | none => exact takesFault_cfgr hw
  | some wd => exact answersX_of_exec (exec_cfgr_mapped hw)

/-- Settles O22: CFGW stores at a mapped RW word and takes the fault at any other address. -/
theorem cfgwWrites : Obligations.CfgwWrites := by
  intro s rs rb off
  rw [← cfgAddress_eq]
  cases hw : cfgWord s.par (cfgAddress s.x[rb] off) with
  | none => exact takesFault_cfgw_unmapped hw
  | some wd =>
    cases hrw : wd.writable with
    | true => simpa [hrw] using exec_cfgw_writable hw hrw
    | false => simpa [hrw] using takesFault_cfgw_readOnly hw hrw

end Sys2Proof.Machine

/-! PROOFS. Which commands take cause 6 before the first INIT (47_system.md R283). -/

namespace Sys2Proof.Machine

/-- The opcode is one that R283 lists. -/
def UsesUnitState (op : BitVec 8) : Prop := op.toNat ∈ [0x18, 0x19, 0x2A, 0x2B, 0x2D] ∨ 0x30 ≤ op.toNat

/-- Every command of a listed opcode runs under the check of R283. -/
theorem exec_eq_whenInit {i : Instr} (h : UsesUnitState (fieldOp (encode i))) (s : State) :
    ∃ t, exec i s = s.whenInit i t := by
  cases i with
  | nop | init | cfgw | cfgr => simp [UsesUnitState, encode] at h
  | xli | xsli | xmov | xadd | xsub | xsrai | xslli | vcmp => simp [UsesUnitState, encode] at h
  | lmov | lli | ladd | lsub | lmul | lmac | lsplat | lxcvt | lins | lext | lsumt => simp [UsesUnitState, encode] at h
  | plfo | tlfo | pramp | pend | decim | sos | lp1 | dcb | apc | eqn => exact ⟨_, rfl⟩
  | dlmod | dlset | dlwr | dlrdh | dlrdl | dladv | dladvx | dlsav | dlrst => exact ⟨_, rfl⟩
  | tspd | twr | tseek | trd | trev | tmode | tmix => exact ⟨_, rfl⟩

/-- If the answer is a next state, a fault of cause 6 in it stood in `s`. -/
def NoNewNoinit (s : State) (r : Result) : Prop :=
  ∀ t, r = .next t → t.status.fault = some .noinit → s.status.fault = some .noinit

section
variable {s : State}

theorem noNewNoinit_next {t : State} (h : t.status.fault = s.status.fault) : NoNewNoinit s (.next t) := by
  rintro _ ⟨⟩ ht
  rwa [← h]

theorem noNewNoinit_raise_index (w : Word) : NoNewNoinit s (.next (s.raise .index w)) := by
  rintro _ ⟨⟩ ⟨⟩

end

/-- STATUS is RO: no store reaches it (R30). -/
@[simp] theorem storeWord_status (s : State) (wd : CfgWord) (v : Word) : (s.storeWord wd v).status = s.status := by
  cases wd with
  | ph k hi => cases hi <;> rfl
  | _ => rfl

theorem noNewNoinit_cfgr (s : State) (rd rb : XReg) (off : BitVec 12) : NoNewNoinit s (execCfgr rd rb off s) := by
  intro t ht hf
  obtain ⟨-, rfl⟩ | ⟨wd, -, rfl⟩ := execCfgr_cases ht
  · cases hf
  · exact hf

theorem noNewNoinit_cfgw (s : State) (rs rb : XReg) (off : BitVec 12) : NoNewNoinit s (execCfgw rs rb off s) := by
  intro t ht hf
  obtain rfl | ⟨wd, -, -, rfl⟩ := execCfgw_cases ht
  · cases hf
  · rwa [storeWord_status] at hf

theorem noNewNoinit_lins (s : State) (ld : LReg) (rs : XReg) (k : Lane) : NoNewNoinit s (execLins ld rs k s) := by
  rw [execLins]
  split
  · exact noNewNoinit_next rfl
  · exact noNewNoinit_raise_index _

theorem noNewNoinit_lext (s : State) (rd : XReg) (ls : LReg) (k : Lane) : NoNewNoinit s (execLext rd ls k s) := by
  rw [execLext]
  split
  · exact noNewNoinit_next rfl
  · exact noNewNoinit_raise_index _

/-- A command of another opcode keeps the fault of STATUS, or takes cause 5 (CFGR, CFGW) or 4 (LINS, LEXT). -/
theorem noNewNoinit_exec {i : Instr} (h : ¬UsesUnitState (fieldOp (encode i))) (s : State) :
    NoNewNoinit s (exec i s) := by
  cases i with
  | cfgw rs rb off => exact noNewNoinit_cfgw s rs rb off
  | cfgr rd rb off => exact noNewNoinit_cfgr s rd rb off
  | lins ld rs k => exact noNewNoinit_lins s ld rs k
  | lext rd ls k => exact noNewNoinit_lext s rd ls k
  | nop | init | xli | xsli | xmov | xadd | xsub | xsrai | xslli | vcmp => exact noNewNoinit_next rfl
  | lmov | lli | ladd | lsub | lmul | lmac | lsplat | lxcvt | lsumt => exact noNewNoinit_next rfl
  | plfo | tlfo | pramp | pend | decim | sos | lp1 | dcb | apc | eqn => simp [UsesUnitState, encode] at h
  | dlmod | dlset | dlwr | dlrdh | dlrdl | dladv | dladvx | dlsav | dlrst => simp [UsesUnitState, encode] at h
  | tspd | twr | tseek | trd | trev | tmode | tmix => simp [UsesUnitState, encode] at h

/-- Settles O20: the listed opcodes are those of the commands under the check of R283; the faults of the others have
causes 4 and 5. -/
theorem noInitFaults : Obligations.NoInitFaults := by
  refine fun i s hi => ⟨fun hop => ?_, fun hop t ht hs hfault => ?_⟩
  · obtain ⟨t, ht⟩ := exec_eq_whenInit hop s
    exact needsInit_of_exec ht hi
  · simpa [hs] using noNewNoinit_exec hop s t ht hfault

end Sys2Proof.Machine

/-! PROOFS. Reset (70_reset_and_hazards.md R320): every reset value, and the invariant. -/

namespace Sys2Proof.Machine

theorem step_reset {s : State} {rest : List HostTx} (h : s.inbox = .reset :: rest) :
    step s = .next { s with inbox := rest }.afterReset := by
  simp only [step, State.serveNext, h, State.serve]

theorem ofFn_const {α : Type} (n : Nat) (a : α) : (Vector.ofFn fun _ : Fin n => a) = Vector.replicate n a := by
  ext i hi
  simp

theorem SosBank.afterInit_reset : SosBank.reset.afterInit = SosBank.reset := by
  simp [SosBank.afterInit, SosBank.reset, SosSection.afterInit, SosSection.reset, ofFn_const]

/-- INIT in a core just reset only sets INITD: Reset has cleared list (a) of R282. -/
theorem afterInit_afterReset (s : State) :
    s.afterReset.afterInit = { s.afterReset with status := { s.afterReset.status with initd := true } } := by
  simp only [State.afterInit, State.afterReset, State.reset, Fin.getElem_fin, Vector.getElem_replicate, ofFn_const,
    SosBank.afterInit_reset]
  rfl

/-- R320 for the state that INIT clears. INIT clears it too and sets INITD, which is not of it. -/
theorem cleared_afterReset (s : State) : s.afterReset.Cleared := by
  have h := cleared_afterInit s.afterReset
  rwa [afterInit_afterReset] at h

/-! The settings of a core just reset. -/

section
variable (s : State)

theorem afterReset_sos_sec (b : Fin Config.nbank) (j : Fin Config.nsecmax) :
    s.afterReset.sos[b].sec[j] = SosSection.reset := by
  simp [State.reset, SosBank.reset]

theorem SosSection.arr_reset (q : Fin 7) : SosSection.reset.arr q = Lanes.zero := by
  fin_cases q <;> rfl

theorem Cascade.arr_reset (q : Fin 3) : Cascade.reset.arr q = Lanes.zero := by
  fin_cases q <;> rfl

theorem EqUnit.arr_reset (q : Fin 6) : EqUnit.reset.arr q = Lanes.zero := by
  fin_cases q <;> rfl

theorem afterReset_cascade (u : Fin Config.nap) : s.afterReset.ap[u] = Cascade.reset := by simp [State.reset]

/-- R320 for the state that INIT keeps. -/
theorem settingsAtReset_afterReset : s.afterReset.SettingsAtReset := by
  refine ⟨?x, ?l, ?status, rfl, rfl, ?sections, ?nsect, ?lp1, ?dcb, ?dl, lanesZero_lane, ?nstage, ?ap, ?eq, ?prm,
    rfl, rfl, rfl, rfl, rfl, rfl⟩
  case x => simp [State.reset]
  case l => simp [State.reset]
  case status => exact (by decide : Status.reset.word = 0#32)
  case sections => intro b j q i; rw [afterReset_sos_sec, SosSection.arr_reset]; exact lanesZero_lane i
  case nsect => simp [State.reset, SosBank.reset]
  case lp1 => simp [State.reset, OnePole.reset]
  case dcb => simp [State.reset, DcBlock.reset]
  case dl => simp [State.reset, DelayLine.reset]
  case nstage => intro u; rw [afterReset_cascade]; rfl
  case ap => intro u q i; rw [afterReset_cascade, Cascade.arr_reset]; exact lanesZero_lane i
  case eq => intro q i; exact (congrArg (·[i]) (EqUnit.arr_reset q)).trans (lanesZero_lane i)
  case prm => simp [State.reset, Ramp.reset]

end

theorem afterReset_reset : State.reset.afterReset = State.reset := rfl

/-- Settles O14: `State.reset` is what Reset makes of itself. -/
theorem resetValues : Obligations.ResetValues := by
  have hreset := And.intro (cleared_afterReset State.reset) (settingsAtReset_afterReset State.reset)
  rw [afterReset_reset] at hreset
  exact ⟨hreset, fun s rest hin =>
    ⟨_, step_reset hin, cleared_afterReset _, settingsAtReset_afterReset _, rfl, rfl, rfl⟩⟩

/-- Settles O15: a core just reset meets the invariant. -/
theorem invariantAtReset : Obligations.InvariantAtReset := by
  have h := inv_afterReset State.reset
  rwa [afterReset_reset] at h

end Sys2Proof.Machine

/-! PROOFS. A halted core (60_exceptions.md R305, R306). -/

namespace Sys2Proof.Machine

theorem step_halted_issue {s : State} {w : Word} {rest : List HostTx} (hh : s.halted = true)
    (h : s.inbox = .issue w :: rest) : step s = .next { s with inbox := rest, index := s.index + 1 } := by
  rw [step_issue h]
  exact if_pos hh

theorem step_halted_hostWrite {s : State} {a : BitVec 16} {v : Word} {rest : List HostTx} (hh : s.halted = true)
    (h : s.inbox = .hostWrite a v :: rest) : step s = .next { s with inbox := rest } := by
  simp only [step, State.serveNext, h, State.serve]
  exact congrArg Host.Outcome.next (if_pos hh)

/-- Only Reset ends a halt: the other transactions leave STATUS of a halted core as it is. -/
theorem halted_of_step {s t : State} (hh : s.halted = true) (hstep : step s = .next t)
    (hreset : s.inbox.head? ≠ some .reset) : t.halted = true := by
  obtain ⟨-, rfl⟩ | ⟨w, rest, hin, -⟩ | ⟨a, rest, -, rfl⟩ | ⟨a, v, rest, hin, -⟩ | ⟨rest, hin, -⟩ :=
    step_cases hstep
  · exact hh
  · rw [step_halted_issue hh hin] at hstep
    cases hstep
    exact hh
  · exact hh
  · rw [step_halted_hostWrite hh hin] at hstep
    cases hstep
    exact hh
  · exact absurd (by rw [hin]; rfl) hreset

/-- Settles O8: each transaction in a halted core, and the one that ends the halt. -/
theorem haltedCoreDiscards : Obligations.HaltedCoreDiscards := by
  intro s rest hh
  refine ⟨fun w => step_halted_issue hh, fun a v => step_halted_hostWrite hh, fun a => step_hostRead,
    fun hin => ⟨_, step_reset hin, rfl⟩, fun t hstep hrun => ?_⟩
  by_contra hreset
  simp [halted_of_step hh hstep hreset] at hrun

end Sys2Proof.Machine

/-! PROOFS. The fault each command word takes (60_exceptions.md R303, R304). -/

namespace Sys2Proof

/-- Only the rows of LINS and LEXT depend on the number of lanes. -/
theorem rowOf_eq_some_of_wf_zero {n m : Nat} {op : BitVec 8} {r : Row} {w : Word} (hr : rowOf n op = some r)
    (hwf : (r.build w).wf 0 = true) : rowOf m op = some r := by
  unfold rowOf at hr ⊢
  generalize op.toNat = k at hr ⊢
  split at hr
  case h_50 => cases hr -- no row
  case h_23 | h_24 => cases hr; simp [Instr.wf] at hwf -- LINS, LEXT
  all_goals exact hr

/-- A command without a lane operand has its word whatever the number of lanes. -/
theorem encode_of_decode_of_wf_zero {n : Nat} {w : Word} {i : Instr} (h : decode n w = .ok i) (hwf : i.wf 0 = true) :
    encode i = w := by
  obtain ⟨r, hr, ha, rfl⟩ := decode_eq_ok_iff.mp h
  exact encode_of_decode (Nat.zero_le 8) (decode_eq_ok_iff.mpr ⟨r, rowOf_eq_some_of_wf_zero hr hwf, ha, rfl⟩)

/-- A lane operand is below 8. -/
theorem wf_of_le {n : Nat} (hn : 8 ≤ n) (i : Instr) : i.wf n = true := by
  cases i with
  | lins _ _ k | lext _ _ k => exact decide_eq_true (k.isLt.trans_le hn)
  | _ => rfl

theorem wf_of_decode {n : Nat} {w : Word} {i : Instr} (h : decode n w = .ok i) : i.wf n = true := by
  obtain hn | hn := le_total n 8
  · exact (encodeOfDecode n w i hn h).2
  · exact wf_of_le hn i

theorem fieldOp_encode_of_decode {n : Nat} {w : Word} {i : Instr} (h : decode n w = .ok i) :
    fieldOp (encode i) = fieldOp w := by
  obtain ⟨r, hr, -, rfl⟩ := decode_eq_ok_iff.mp h
  exact fieldOp_encode_build hr w

end Sys2Proof

namespace Sys2Proof.Machine

/-! The column INITD of the table. -/

/-- Row by row, the rows that need INITD are those of the opcodes that R283 lists. -/
theorem needsInit_iff_of_mem {n : Nat} :
    ∀ t ∈ opcodeTable n, t.needsInit = true ↔ UsesUnitState (BitVec.ofNat 8 t.op) := by
  simp [opcodeTable, tableX, tableL, tableF, tableT, UsesUnitState]

/-- A row of the command's opcode says whether the command needs INITD. -/
theorem needsInit_iff (i : Instr) : needsInit i = true ↔ UsesUnitState (fieldOp (encode i)) := by
  have hiff : ∀ t ∈ opcodeTable 8, t.op = (fieldOp (encode i)).toNat →
      (t.needsInit = true ↔ UsesUnitState (fieldOp (encode i))) := fun t ht hop => by
    simpa [hop] using needsInit_iff_of_mem t ht
  obtain ⟨r, hr, -⟩ := decode_eq_ok_iff.mp (decode_encode (wf_of_le le_rfl i))
  obtain ⟨t, ht, hop⟩ := mem_opcodeTable_of_rowOf hr
  simp only [needsInit, List.any_eq_true, Bool.and_eq_true, beq_iff_eq]
  constructor
  · rintro ⟨t, ht, hop, hneeds⟩
    exact (hiff t ht hop).mp hneeds
  · intro hu
    exact ⟨t, ht, hop, (hiff t ht hop).mpr hu⟩

theorem needsInit_eq_false {i : Instr} (h : ¬UsesUnitState (fieldOp (encode i))) : needsInit i = false := by
  rwa [← needsInit_iff, Bool.not_eq_true] at h

/-! The fault of a word, by what the decoder answers. -/

/-- The fault that `exec` raises for a well-formed command: the checks of R304 that come after those of the decoder. -/
def State.execFault (s : State) : Instr → Option Cause
  | .cfgw _ rb off =>
    if (cfgWord s.par (cfgAddress s.x[rb] off)).all (fun wd => !wd.writable) = true then some .cfgaddr else none
  | .cfgr _ rb off => if (cfgWord s.par (cfgAddress s.x[rb] off)).isNone = true then some .cfgaddr else none
  | i => if needsInit i && !s.status.initd then some .noinit else none

/-- The checks of R304 after those of the decoder, for a word `w` of the row `t`. -/
def State.laterFault (s : State) (t : TableRow) (w : Word) : Option Cause :=
  let wd := cfgWord s.par (cfgAddress s.x[toX (fieldB w)] (fieldImm12 w))
  if t.needsInit && !s.status.initd then some .noinit
  else if t.op = 0x02 ∧ wd.all (fun d => !d.writable) = true then some .cfgaddr
  else if t.op = 0x03 ∧ wd.isNone = true then some .cfgaddr
  else none

/-- For a word that decodes, these later checks are those of its command. -/
theorem laterFault_eq {s : State} {w : Word} {i : Instr} {t : TableRow} (h : decode s.par.n w = .ok i)
    (ht : t ∈ opcodeTable s.par.n) (hop : t.op = (fieldOp w).toNat) : s.laterFault t w = s.execFault i := by
  rw [← fieldOp_encode_of_decode h] at hop
  have hneeds : t.needsInit = needsInit i := by
    rw [Bool.eq_iff_iff, needsInit_iff, needsInit_iff_of_mem t ht, hop, BitVec.ofNat_toNat, BitVec.setWidth_eq]
  rw [State.laterFault, hneeds, hop]
  cases i with
  | cfgw | cfgr =>
    obtain rfl := encode_of_decode_of_wf_zero h rfl
    simp [State.execFault, needsInit_eq_false, UsesUnitState, encode]
  | _ => simp [State.execFault, encode]

/-- The fault of a core that runs, by what the decoder answers. -/
def State.faultOf (s : State) : Except DecodeError Instr → Option Cause
  | .error e => some (causeOf e)
  | .ok i => s.execFault i

/-- The first checks of R304 are the decoder's, in its order. -/
theorem dueFault_eq (s : State) (w : Word) : s.dueFault w = s.faultOf (decode s.par.n w) := by
  obtain ⟨hillop, hrow⟩ := decoderChecksInOrder.2 s.par.n w
  rw [State.dueFault]
  split
  · next hnone =>
    rw [hillop (by simpa using hnone)]
    rfl
  · next t hsome =>
    have ht := List.mem_of_find?_eq_some hsome
    have hop : t.op = (fieldOp w).toNat := by simpa using List.find?_some hsome
    have hdec := hrow t ht hop
    split_ifs at hdec with hzero hlreg hindex
    · rw [hdec, if_pos hzero]
      rfl
    · rw [hdec, if_neg hzero, if_pos hlreg]
      rfl
    · rw [hdec, if_neg hzero, if_neg hlreg, if_pos hindex]
      rfl
    · obtain ⟨i, hi, -⟩ := hdec
      rw [hi, if_neg hzero, if_neg hlreg, if_neg hindex]
      exact laterFault_eq hi ht hop

/-! What `exec` answers, by its fault. -/

@[simp] theorem reversed_fault (s : State) : s.reversed.status.fault = s.status.fault := by
  rw [State.reversed]
  split <;> rfl

@[simp] theorem fadeCounted_fault (s : State) : s.fadeCounted.status.fault = s.status.fault := by
  rw [State.fadeCounted]
  split <;> rfl

@[simp] theorem afterMix_fault (s : State) (ld lcur lold : LReg) :
    (s.afterMix ld lcur lold).status.fault = s.status.fault := by
  rw [State.afterMix]
  split
  · exact fadeCounted_fault _
  · rfl

/-- The command takes the fault `c` with its own word recorded; if there is none it runs and keeps the fault of
STATUS. -/
def AnswersFault (i : Instr) (s : State) : Option Cause → Prop
  | none => ∃ t, exec i s = .next t ∧ t.status.fault = s.status.fault
  | some c => exec i s = .next (s.raise c (encode i))

section
variable {s t : State} {i : Instr}

theorem answersFault_none (h : exec i s = .next t) (hf : t.status.fault = s.status.fault) : AnswersFault i s none :=
  ⟨t, h, hf⟩

/-- A command that does not need INITD, of which R304 has no other check. -/
theorem answersFault_next (hu : ¬UsesUnitState (fieldOp (encode i))) (h : exec i s = .next t)
    (hf : t.status.fault = s.status.fault) :
    AnswersFault i s (if needsInit i && !s.status.initd then some .noinit else none) := by
  simpa [needsInit_eq_false hu] using answersFault_none h hf

/-- A command under the check of R283 raises nothing else. -/
theorem answersFault_whenInit (hu : UsesUnitState (fieldOp (encode i))) (h : exec i s = s.whenInit i t)
    (hf : t.status.fault = s.status.fault) :
    AnswersFault i s (if needsInit i && !s.status.initd then some .noinit else none) := by
  rw [(needsInit_iff i).mpr hu]
  cases hi : s.status.initd with
  | true => exact ⟨t, h.trans (whenInit_of_initd _ _ _ hi), hf⟩
  | false => exact h.trans (whenInit_of_not _ _ _ hi)

end

theorem answersFault_cfgw (s : State) (rs rb : XReg) (off : BitVec 12) :
    AnswersFault (.cfgw rs rb off) s (s.execFault (.cfgw rs rb off)) := by
  rw [State.execFault]
  cases hw : cfgWord s.par (cfgAddress s.x[rb] off) with
  | none => exact takesFault_cfgw_unmapped hw
  | some wd =>
    cases hrw : wd.writable with
    | true => simpa [hrw] using answersFault_none (exec_cfgw_writable hw hrw) (by simp)
    | false =>
      have hfault : AnswersFault (.cfgw rs rb off) s (some .cfgaddr) := takesFault_cfgw_readOnly hw hrw
      simpa [hrw] using hfault

theorem answersFault_cfgr (s : State) (rd rb : XReg) (off : BitVec 12) :
    AnswersFault (.cfgr rd rb off) s (s.execFault (.cfgr rd rb off)) := by
  rw [State.execFault]
  cases hw : cfgWord s.par (cfgAddress s.x[rb] off) with
  | none => exact takesFault_cfgr hw
  | some wd => exact answersFault_none (exec_cfgr_mapped hw) rfl

theorem answersFault_tmode (s : State) (m : Mode) : AnswersFault (.tmode m) s (s.execFault (.tmode m)) := by
  refine answersFault_whenInit (by simp [UsesUnitState, encode]) rfl ?_
  split
  · rfl
  · exact reversed_fault _

/-- Every well-formed command takes the fault due, or runs. -/
theorem answersFault_exec {i : Instr} {s : State} (hwf : i.wf s.par.n = true) : AnswersFault i s (s.execFault i) := by
  cases i with
  | cfgw rs rb off => exact answersFault_cfgw s rs rb off
  | cfgr rd rb off => exact answersFault_cfgr s rd rb off
  | lins ld rs k =>
    exact answersFault_next (by simp [UsesUnitState, encode]) (exec_lins_of_lt _ _ (of_decide_eq_true hwf)) rfl
  | lext rd ls k =>
    exact answersFault_next (by simp [UsesUnitState, encode]) (exec_lext_of_lt _ _ (of_decide_eq_true hwf)) rfl
  | nop | init | xli | xsli | xmov | xadd | xsub | xsrai | xslli | vcmp =>
    exact answersFault_next (by simp [UsesUnitState, encode]) rfl rfl
  | lmov | lli | ladd | lsub | lmul | lmac | lsplat | lxcvt | lsumt =>
    exact answersFault_next (by simp [UsesUnitState, encode]) rfl rfl
  | trev => exact answersFault_whenInit (by simp [UsesUnitState, encode]) rfl (reversed_fault s)
  | tmode m => exact answersFault_tmode s m
  | tmix ld lcur lold =>
    exact answersFault_whenInit (by simp [UsesUnitState, encode]) rfl (afterMix_fault s ld lcur lold)
  | plfo | tlfo | pramp | pend | decim | sos | lp1 | dcb | apc | eqn =>
    exact answersFault_whenInit (by simp [UsesUnitState, encode]) rfl rfl
  | dlmod | dlset | dlwr | dlrdh | dlrdl | dladv | dladvx | dlsav | dlrst =>
    exact answersFault_whenInit (by simp [UsesUnitState, encode]) rfl rfl
  | tspd | twr | tseek | trd => exact answersFault_whenInit (by simp [UsesUnitState, encode]) rfl rfl

/-- A command that takes a fault has no lane operand: the lane of LINS and LEXT was checked by the decoder. -/
theorem wf_zero_of_execFault {i : Instr} {s : State} {c : Cause} (h : s.execFault i = some c) : i.wf 0 = true := by
  cases i with
  | lins | lext => simp [State.execFault, needsInit_eq_false, UsesUnitState, encode] at h
  | _ => rfl

/-! The step. -/

/-- A core that runs answers every word: it takes the fault due, by the entry of R303, or runs the word's command. -/
theorem issue_answers {s : State} (hf : s.status.fault = none) (w : Word) :
    ∃ t, s.issue w = .next t ∧ t.status.fault = s.dueFault w
      ∧ ∀ c, s.dueFault w = some c → t = { s with
          index := s.index + 1, draw := t.draw
          status := { s.status with fault := some c }, faultinfo := w } := by
  rw [dueFault_eq]
  cases hd : decode s.par.n w with
  | error e =>
    refine ⟨{ s with index := s.index + 1 }.raise (causeOf e) w, ?_, rfl, ?_⟩
    · simp [State.issue, State.halted, hf, hd]
    · rintro _ ⟨⟩
      rfl
  | ok i =>
    have hexec : AnswersFault i { s with index := s.index + 1, draw := s.draw + 1 } (s.execFault i) :=
      answersFault_exec (s := { s with index := s.index + 1, draw := s.draw + 1 }) (wf_of_decode hd)
    rw [issue_of_decode hf hd, State.faultOf]
    cases hfault : s.execFault i with
    | none =>
      rw [hfault] at hexec
      obtain ⟨t, ht, hkept⟩ := hexec
      exact ⟨t, ht, hkept.trans hf, nofun⟩
    | some c =>
      rw [hfault] at hexec
      have hw : encode i = w := encode_of_decode_of_wf_zero hd (wf_zero_of_execFault hfault)
      rw [← hw]
      refine ⟨_, hexec, rfl, ?_⟩
      rintro _ ⟨⟩
      rfl

/-- Settles O6: a fault in the next state is the fault due, and the entry of R303 wrote it. -/
theorem faultEntryChangesNothingElse : Obligations.FaultEntryChangesNothingElse := by
  intro s t w rest c hin hf hstep hfault
  obtain ⟨u, hu, hdue, hentry⟩ := issue_answers (s := { s with inbox := rest }) hf w
  rw [step_issue hin, hu] at hstep
  cases hstep
  exact ⟨hentry c (hdue.symm.trans hfault), by rw [State.halted, hfault]; rfl⟩

/-- CAUSE of a core that took a fault (R28, R302). -/
theorem extractLsb'_status_cause {st : Status} {c : Cause} (h : st.fault = some c) :
    st.word.extractLsb' 4 4 = c.code := by
  obtain ⟨-, hcause, -⟩ := status_wideFields st
  rw [hcause, Status.causeCode, h]

/-- Settles O7: the decoder's checks come first, then those of the command. -/
theorem faultTakenByAWord : Obligations.FaultTakenByAWord := by
  refine ⟨⟨rfl, rfl, rfl, rfl, rfl, rfl⟩, fun s w rest hin hf => ?_⟩
  obtain ⟨t, ht, hdue, hentry⟩ := issue_answers (s := { s with inbox := rest }) hf w
  refine ⟨t, (step_issue hin).trans ht, hdue, fun c hc => ⟨?_, extractLsb'_status_cause (hdue.trans hc)⟩⟩
  rw [hentry c hc]

end Sys2Proof.Machine
